-- ==== Sys2Proof/Word.lean ====
section
/-!
DEFINITION. The word types of the Mini Computer ISA (spec/00_scope.md R1, R6, R11): everything here is a bit vector
because the spec treats it as bits. Arithmetic on them wraps, as R11 says.
-/

namespace Sys2Proof

/-- A byte of an instruction, and half of a memory word (R9, R62). -/
abbrev Byte := BitVec 8

/-- A register value or a memory word: 16 bits (R6, R11). -/
abbrev Word := BitVec 16

/-- A word address: 24 bits (R6, R60). -/
abbrev Addr := BitVec 24

/-- The implemented bits of the flag register, F[4:0] (R30), and a mask over them (R113). -/
abbrev Flags := BitVec 5

end Sys2Proof
end

