-- ==== Sys2Proof/Config.lean ====
section
/-!
DEFINITION. The implementation parameters of spec/00_scope.md R7 and the values this model names where the spec gives
none. They are fixed for the machine. Each carries its log entry (notes/assumptions).
-/

namespace Sys2Proof.Config

/-- `COND_AW`, the condition code of the pseudo-flag AW: the default of R7 (D14).
DESIGN CHOICE of the spec, log entry 6, unsafe. -/
def condAW : BitVec 3 := 0b101#3

/-- `INT_VECTOR`, the handler address of each interrupt id: OPEN, no default (R7, R284, D17). It has no body: a claim
that mentions it holds for every choice of it. Log entry 5, safe. -/
opaque intVector : Byte → Addr

/-- `RESET_PC`, the entry address after reset: OPEN, 0x000000 suggested (R7, R310, D21).
DESIGN CHOICE, log entry 2, unsafe. -/
def resetPC : Addr := 0x000000#24

/-- `MEM_VALID`, which addresses hold memory: the default of R7, all 2^24 words (R71, D27).
DESIGN CHOICE of the spec, log entry 7, unsafe. -/
def memValid (_addr : Addr) : Bool := true

/-- `INT_STACK_DEPTH`: "This stack is 4 levels deep." (R31, R7). -/
def intStackDepth : Nat := 4

/-- What a byte of memory that nothing has written reads as. The spec leaves it unspecified (R38).
DESIGN CHOICE, log entry 3, unsafe. -/
def unwrittenByte : Byte := 0x00#8

end Sys2Proof.Config
end

