-- ==== Sys2Proof/Syntax.lean ====
section
/-!
DEFINITION. The instructions of the Mini Computer ISA as syntax: one constructor for each of the 65 rows of
spec/opcode_table.json (58 encoding rows M1 to M16, J1 to J17, A1 to A20, O1 to O5 and the alias rows P1 to P7).
A constructor holds the fields its row has and none of the bits the row prints as don't-care (R97). Register fields are
held with their bank bit, as the register they name (R22, R23, R21), so a field can name only registers it can encode.
-/

namespace Sys2Proof

/-- Every register an instruction can name: the fourteen of R20. Constructors in the order of the codes of R21. -/
inductive Reg where
  | a | b | c | sp | rl | rh | i | z | aa | ab | ac | pl | ph | f
  deriving DecidableEq, Repr

/-- What a 2-bit field with an `s` bank bit can name: the REGL and SPEC columns of R22. -/
inductive RegS where
  | a | b | c | sp | rl | rh | i | z
  deriving DecidableEq, Repr

/-- What a 2-bit field with an `a` bank bit can name: the REGL and ARTH columns of R22. -/
inductive RegA where
  | a | b | c | sp | aa | ab | ac | z
  deriving DecidableEq, Repr

/-- What the `RHI` field can name (R23): "can only be A, B, C, or Z". -/
inductive RegHi where
  | a | b | c | z
  deriving DecidableEq, Repr

/-- The large registers of R27: RT = RH:RL (ID 0) and PC = PH:PL (ID 1). -/
inductive LargeReg where
  | rt | pc
  deriving DecidableEq, Repr

/-- The five flags of R30, in the order of their bit numbers. -/
inductive Flag where
  | ca | ze | ov | ne | di
  deriving DecidableEq, Repr

/-- A condition of JCD: a flag, or AW, the condition that always holds (R106, R190). -/
inductive Cond where
  | flag (fl : Flag)
  | aw
  deriving DecidableEq, Repr

/-- The instructions. `p` and `q` are the `$` bits of the source and the destination operand (R96): true means that the
operand is the memory word at the address it gives. Register arguments stand in the order R1, R2, R3 of the row. -/
inductive Instr where
  -- memory family, R100
  /-- M1, `MOV ($)R1 > ($)[RHI:]R2` (R141). -/
  | movRegHi (p q : Bool) (r1 r2 : RegS) (hh : RegHi)
  /-- M2, `MOV ($)[RHI:]R2 > ($)R1` (R142). -/
  | movHiReg (p q : Bool) (r1 r2 : RegS) (hh : RegHi)
  /-- M3, `MOV ($)16L > ($)[RHI:]R2` (R143). -/
  | movLitHi (p q : Bool) (r2 : RegS) (hh : RegHi) (lit : Word)
  /-- M4, `MOV ($)[RHI:]R2 > $16L` (R144). -/
  | movHiLit (p : Bool) (r2 : RegS) (hh : RegHi) (lit : Word)
  /-- M5, `MOV LR > RHI:R2` (R148). -/
  | movLargePair (g : LargeReg) (rhi rlo : RegS)
  /-- M6, `MOV RHI:R2 > LR` (R149). -/
  | movPairLarge (g : LargeReg) (rhi rlo : RegS)
  /-- M7, `MOV [$8L:]R1 > [$8L:]R2` (R147): `hs` the source's, `hd` the destination's high address byte. -/
  | movBytes (p q : Bool) (r1 r2 : RegS) (hs hd : Byte)
  /-- M8, `MOV $24L > R1` (R145). -/
  | movLoad24 (r1 : RegS) (addr : Addr)
  /-- M9, `MOV R1 > $24L` (R146). -/
  | movStore24 (r1 : RegS) (addr : Addr)
  /-- M10, `MOV 8L > R1` (R150). -/
  | movLit8 (r1 : RegS) (lit : Byte)
  /-- M11, `PSH R1` (R160). -/
  | pshReg (r : Reg)
  /-- M12, `PSH R1:R2` (R162): `rhi` the high half. -/
  | pshPair (rhi rlo : Reg)
  /-- M13, `PSH 16L` (R163). -/
  | pshLit16 (lit : Word)
  /-- M14, `PSH 8L` (R163). -/
  | pshLit8 (lit : Byte)
  /-- M15, `POP R1` (R164). -/
  | popReg (r : Reg)
  /-- M16, `POP R1,R2` (R165): `rhi` the high half. -/
  | popPair (rhi rlo : Reg)
  -- branch family, R105
  /-- J1, `JMP $R1` (R181). -/
  | jmpReg (r1 : RegS)
  /-- J2, `JMP $R1:R2` (R182). -/
  | jmpPair (r1 r2 : RegS)
  /-- J3, `JMP $R1:16L` (R183). -/
  | jmpRegLit (r1 : RegS) (lit : Word)
  /-- J4, `JMP $16L:R1` (R184). -/
  | jmpLitReg (r1 : RegS) (lit : Word)
  /-- J5, `JMP $24L` (R185). -/
  | jmpLit24 (addr : Addr)
  /-- J6, `JSR $R1` (R186). -/
  | jsrReg (r1 : RegS)
  /-- J7, `JSR $R1:R2` (R186). -/
  | jsrPair (r1 r2 : RegS)
  /-- J8, `JSR $R1:16L` (R186). -/
  | jsrRegLit (r1 : RegS) (lit : Word)
  /-- J9, `JSR $16L:R1` (R186). -/
  | jsrLitReg (r1 : RegS) (lit : Word)
  /-- J10, `JSR $24L` (R186). -/
  | jsrLit24 (addr : Addr)
  /-- J11, `JCD cond R1` (R191). -/
  | jcdReg (cond : Cond) (r1 : RegS)
  /-- J12, `JCD cond 7L` (R192). -/
  | jcdLit7 (cond : Cond) (off : BitVec 7)
  /-- J13, `JCD a,b... 16L` (R193). -/
  | jcdMask (m : Flags) (off : Word)
  /-- J14, `JCC cond R1` (R194). -/
  | jccReg (fl : Flag) (r1 : RegS)
  /-- J15, `JCC cond 7L` (R195). -/
  | jccLit7 (fl : Flag) (off : BitVec 7)
  /-- J16, `JCC a,b... 16L` (R196). -/
  | jccMask (m : Flags) (off : Word)
  /-- J17, `JCN a,!b... 8L` (R197): `ms` the flags that must be set, `mc` those that must be clear. -/
  | jcn (off : Byte) (ms mc : Flags)
  -- arithmetic family, R110
  /-- A1, `ADD R1,R2 > R3` (R222). -/
  | addRegs (r1 r2 r3 : RegA)
  /-- A2, `ADC R1,R2 > R3` (R223). -/
  | adcRegs (r1 r2 r3 : RegA)
  /-- A3, `SUB R1,R2 > R3` (R224). -/
  | subRegs (r1 r2 r3 : RegA)
  /-- A4, `SBC R1,R2 > R3` (R225). -/
  | sbcRegs (r1 r2 r3 : RegA)
  /-- A5, `AND R1,R2 > R3` (R231). -/
  | andRegs (r1 r2 r3 : RegA)
  /-- A6, `IOR R1,R2 > R3` (R232). -/
  | iorRegs (r1 r2 r3 : RegA)
  /-- A7, `XOR R1,R2 > R3` (R233). -/
  | xorRegs (r1 r2 r3 : RegA)
  /-- A8, `ADD R1,16L > R3` (R222). -/
  | addLit (r1 : RegA) (lit : Word) (r3 : RegA)
  /-- A9, `ADC R1,16L > R3` (R223). -/
  | adcLit (r1 : RegA) (lit : Word) (r3 : RegA)
  /-- A10, `SUB R1,16L > R3` (R224). -/
  | subLit (r1 : RegA) (lit : Word) (r3 : RegA)
  /-- A11, `SUB 16L,R1 > R3` (R224). -/
  | subLitRev (r1 : RegA) (lit : Word) (r3 : RegA)
  /-- A12, `SBC R1,16L > R3` (R225). -/
  | sbcLit (r1 : RegA) (lit : Word) (r3 : RegA)
  /-- A13, `SBC 16L,R1 > R3` (R225). -/
  | sbcLitRev (r1 : RegA) (lit : Word) (r3 : RegA)
  /-- A14, `AND R1,16L > R3` (R231). -/
  | andLit (r1 : RegA) (lit : Word) (r3 : RegA)
  /-- A15, `IOR R1,16L > R3` (R232). -/
  | iorLit (r1 : RegA) (lit : Word) (r3 : RegA)
  /-- A16, `XOR R1,16L > R3` (R233). -/
  | xorLit (r1 : RegA) (lit : Word) (r3 : RegA)
  /-- A17, `LSL R1 > R3` (R227). -/
  | lsl (r1 r3 : RegA)
  /-- A18, `ROL R1 > R3` (R228). -/
  | rol (r1 r3 : RegA)
  /-- A19, `LSR R1 > R3` (R229). -/
  | lsr (r1 r3 : RegA)
  /-- A20, `ROR R1 > R3` (R230). -/
  | ror (r1 r3 : RegA)
  -- other family, R112
  /-- O1, `NOP` (R261). -/
  | nop
  /-- O2, `SEF F1,F2,F3,...` (R262). -/
  | sef (m : Flags)
  /-- O3, `CLF F1,F2,F3,...` (R263). -/
  | clf (m : Flags)
  /-- O4, `ITR 8L` (R266). -/
  | itr (id : Byte)
  /-- O5, `RTI` (R267). -/
  | rti
  -- the assembler's second names, R128: words of rows J2, A4, A12, A13, J11, J12, J13 (log entry 9)
  /-- P1, `RTS`, the words of `JMP $RH:RL` (R187). -/
  | rts
  /-- P2, `CMP R1,R2`, the words of `SBC R1,R2 > Z` (R226). -/
  | cmpRegs (r1 r2 : RegA)
  /-- P3, `CMP R1,16L`, the words of `SBC R1,16L > Z` (R226). -/
  | cmpLit (r1 : RegA) (lit : Word)
  /-- P4, `CMP 16L,R1`, the words of `SBC 16L,R1 > Z` (R226). -/
  | cmpLitRev (r1 : RegA) (lit : Word)
  /-- P5, `JRL R1`, the words of `JCD AW R1` (R198). -/
  | jrlReg (r1 : RegS)
  /-- P6, `JRL 7L`, the words of `JCD AW 7L` (R198). -/
  | jrlLit7 (off : BitVec 7)
  /-- P7, `JRL 16L`, the words of JCD with the empty mask (R198). -/
  | jrlLit16 (off : Word)
  deriving DecidableEq, Repr

end Sys2Proof
end

