-- ==== Sys2Proof/WellFormed.lean ====
section
/-!
DEFINITION. Which instructions as syntax have words of their own. The types of Syntax.lean already keep every field within
what its row encodes, so what is left to check is naming: a word that has one of the second names of R128 (RTS, CMP, JRL) is
read as that name (log entry 9), and the core instruction that R128 says it stands for is then not the name of any word.
-/

namespace Sys2Proof

/-- `i` is the name under which its own words are read. False exactly for the core forms that R128 renames. -/
def wellFormed : Instr → Bool
  | .jmpPair r1 r2 => !(r1 == .rh && r2 == .rl)      -- RTS
  | .sbcRegs _ _ r3 => r3 != .z                      -- CMP R1,R2
  | .sbcLit _ _ r3 => r3 != .z                       -- CMP R1,16L
  | .sbcLitRev _ _ r3 => r3 != .z                    -- CMP 16L,R1
  | .jcdReg cond _ => cond != .aw                    -- JRL R1
  | .jcdLit7 cond _ => cond != .aw                   -- JRL 7L
  | .jcdMask m _ => m != 0#5                         -- JRL 16L
  | .movRegHi .. | .movHiReg .. | .movLitHi .. | .movHiLit .. | .movLargePair .. | .movPairLarge ..
  | .movBytes .. | .movLoad24 .. | .movStore24 .. | .movLit8 .. | .pshReg .. | .pshPair .. | .pshLit16 ..
  | .pshLit8 .. | .popReg .. | .popPair .. | .jmpReg .. | .jmpRegLit .. | .jmpLitReg .. | .jmpLit24 ..
  | .jsrReg .. | .jsrPair .. | .jsrRegLit .. | .jsrLitReg .. | .jsrLit24 .. | .jccReg .. | .jccLit7 ..
  | .jccMask .. | .jcn .. | .addRegs .. | .adcRegs .. | .subRegs .. | .andRegs .. | .iorRegs .. | .xorRegs ..
  | .addLit .. | .adcLit .. | .subLit .. | .subLitRev .. | .andLit .. | .iorLit .. | .xorLit .. | .lsl ..
  | .rol .. | .lsr .. | .ror .. | .nop | .sef .. | .clf .. | .itr .. | .rti | .rts | .cmpRegs .. | .cmpLit ..
  | .cmpLitRev .. | .jrlReg .. | .jrlLit7 .. | .jrlLit16 .. => true

/-- `wellFormed` as a proposition, for hypotheses. -/
abbrev WellFormed (i : Instr) : Prop := wellFormed i = true

end Sys2Proof
end

