-- ==== Sys2Proof/Decode.lean ====
section
/-!
DEFINITION. Decoding and encoding, from spec/30_encoding.md and the register codes of spec/10_state.md R21 to R23.
The decoder takes the two words at the program counter (the second is ignored by a 16-bit instruction) and is total: what
matches no row is rejected under a name. A word with a second name (R128) is read under that name (log entry 9).
-/

namespace Sys2Proof

/-- Why words are no instruction: the three kinds of unassigned encoding of R120, and words that end too early (R90). -/
inductive DecodeError where
  /-- B1 matches no row of R100, R105, R110, R112. -/
  | unassignedOpcode
  /-- A condition code `ccc` outside R106. -/
  | unassignedCondition
  /-- A PSH or POP register code outside R161. -/
  | unassignedRegister
  /-- Fewer words than B1[0] asks for. -/
  | truncated
  deriving DecidableEq, Repr

/-! ### Fields -/

/-- B1, the opcode byte of a first word, bits 15:8 (R62). -/
def byteHi (w : Word) : Byte := w.extractLsb' 8 8

/-- B2, bits 7:0 of a first word (R62). -/
def byteLo (w : Word) : Byte := w.extractLsb' 0 8

/-- A word of two bytes: the first in bits 15:8 (R62). -/
def wordOf (x y : Byte) : Word := x ++ y

/-- A 24-bit value of a byte and a word (R66). -/
def addrOf (x : Byte) (y : Word) : Addr := x ++ y

/-- `b[hi:lo]` of a byte, by its low bit and its width (R8). -/
def field (b : Byte) (lo n : Nat) : BitVec n := b.extractLsb' lo n

/-- `b[k]` of a byte (R8). -/
def bitAt (b : Byte) (k : Nat) : Bool := b.getLsbD k

/-- One bit of an instruction. -/
def bit (v : Bool) : BitVec 1 := BitVec.ofBool v

/-- Length from the first word alone: `B1[0] = 1` means two words (R90). -/
def isLong (w1 : Word) : Bool := bitAt (byteHi w1) 0

/-- `bankS(s, c)` (R22). -/
def bankS (s : Bool) (c : BitVec 2) : RegS :=
  match s, c with
  | false, 0b00#2 => .a
  | false, 0b01#2 => .b
  | false, 0b10#2 => .c
  | false, _ => .sp
  | true, 0b00#2 => .rl
  | true, 0b01#2 => .rh
  | true, 0b10#2 => .i
  | true, _ => .z

/-- `bankA(a, c)` (R22). -/
def bankA (a : Bool) (c : BitVec 2) : RegA :=
  match a, c with
  | false, 0b00#2 => .a
  | false, 0b01#2 => .b
  | false, 0b10#2 => .c
  | false, _ => .sp
  | true, 0b00#2 => .aa
  | true, 0b01#2 => .ab
  | true, 0b10#2 => .ac
  | true, _ => .z

/-- `hi8reg(c)` (R23). -/
def hi8reg (c : BitVec 2) : RegHi :=
  match c with
  | 0b00#2 => .a
  | 0b01#2 => .b
  | 0b10#2 => .c
  | _ => .z

/-- `reg4(c)` (R21): none for 1011, which has no row, and for 1111, which is N (R161). -/
def reg4 (c : BitVec 4) : Option Reg :=
  match c with
  | 0b0000#4 => some .a
  | 0b0001#4 => some .b
  | 0b0010#4 => some .c
  | 0b0011#4 => some .sp
  | 0b0100#4 => some .rl
  | 0b0101#4 => some .rh
  | 0b0110#4 => some .i
  | 0b0111#4 => some .z
  | 0b1000#4 => some .aa
  | 0b1001#4 => some .ab
  | 0b1010#4 => some .ac
  | 0b1100#4 => some .pl
  | 0b1101#4 => some .ph
  | 0b1110#4 => some .f
  | _ => none

/-- The large register of ID `g` (R27). -/
def largeReg (g : Bool) : LargeReg := if g then .pc else .rt

/-- The flag of a COND code (R30). -/
def flagOfCode (c : BitVec 3) : Option Flag :=
  match c with
  | 0b000#3 => some .ca
  | 0b001#3 => some .ze
  | 0b010#3 => some .ov
  | 0b011#3 => some .ne
  | 0b100#3 => some .di
  | _ => none

/-- The condition of a JCD code: a flag, or AW at `COND_AW` (R106). -/
def condOfCode (c : BitVec 3) : Option Cond :=
  match flagOfCode c with
  | some fl => some (.flag fl)
  | none => if c = Config.condAW then some .aw else none

/-- A flag mask: bits 7:5 of the byte are ignored (R113). -/
def maskOf (b : Byte) : Flags := field b 0 5

/-- Whether B1 has the fixed bits of a row: the row's `mask` and `match` of opcode_table.json, cut to B1 (R121, R122). -/
def rowIs (b1 mask pattern : Byte) : Bool := b1 &&& mask == pattern

/-! ### The decoder, family by family -/

/-- The instruction of a PSH or POP register byte: R2 = 1111 selects the single form (R121, R161). -/
def decodeStackRegs (b2 : Byte) (single : Reg → Instr) (pair : Reg → Reg → Instr) : Except DecodeError Instr :=
  match reg4 (field b2 4 4), field b2 0 4 with
  | none, _ => .error .unassignedRegister
  | some r, 0b1111#4 => .ok (single r)
  | some rhi, c =>
    match reg4 c with
    | none => .error .unassignedRegister
    | some rlo => .ok (pair rhi rlo)

/-- Memory family, R100. -/
def decodeMemory (b1 b2 : Byte) (w2 : Word) : Except DecodeError Instr :=
  let p := bitAt b1 3
  let q := bitAt b1 2
  let r1 := bankS (bitAt b2 7) (field b2 4 2)
  let r2 := bankS (bitAt b2 6) (field b2 2 2)
  let r2lit := bankS (bitAt b2 7) (field b2 2 2)
  let rhi := bankS (bitAt b2 6) (field b2 0 2)
  let r24 := bankS (bitAt b1 2) (field b1 3 2)
  let hh := hi8reg (field b2 0 2)
  if rowIs b1 0xF3#8 0x40#8 then .ok (.movRegHi p q r1 r2 hh)
  else if rowIs b1 0xF3#8 0x42#8 then .ok (.movHiReg p q r1 r2 hh)
  else if rowIs b1 0xF3#8 0x41#8 then .ok (.movLitHi p q r2lit hh w2)
  else if rowIs b1 0xF7#8 0x47#8 then .ok (.movHiLit p r2lit hh w2)
  else if rowIs b1 0xFF#8 0x50#8 then .ok (.movLargePair (largeReg (bitAt b2 4)) rhi r2lit)
  else if rowIs b1 0xFF#8 0x52#8 then .ok (.movPairLarge (largeReg (bitAt b2 4)) rhi r2lit)
  else if rowIs b1 0xFF#8 0x51#8 then .ok (.movBytes (bitAt b2 1) (bitAt b2 0) r1 r2 (byteHi w2) (byteLo w2))
  else if rowIs b1 0xE3#8 0x61#8 then .ok (.movLoad24 r24 (addrOf b2 w2))
  else if rowIs b1 0xE3#8 0x63#8 then .ok (.movStore24 r24 (addrOf b2 w2))
  else if rowIs b1 0xE3#8 0x60#8 then .ok (.movLit8 r24 b2)
  else if rowIs b1 0xFF#8 0x58#8 then decodeStackRegs b2 .pshReg .pshPair
  else if rowIs b1 0xFF#8 0x5B#8 then .ok (.pshLit16 w2)
  else if rowIs b1 0xFF#8 0x5A#8 then .ok (.pshLit8 b2)
  else if rowIs b1 0xFF#8 0x5C#8 then decodeStackRegs b2 .popReg .popPair
  else .error .unassignedOpcode

/-- Rows J11 and J12 (P5 and P6 for AW): B2[7] tells the register form from the 7L form (R105, R128). -/
def decodeJcd (b1 b2 : Byte) : Except DecodeError Instr :=
  match condOfCode (field b1 1 3) with
  | none => .error .unassignedCondition
  | some .aw =>
    if bitAt b2 7 then .ok (.jrlReg (bankS (bitAt b2 6) (field b2 4 2))) else .ok (.jrlLit7 (field b2 0 7))
  | some (.flag fl) =>
    if bitAt b2 7 then .ok (.jcdReg (.flag fl) (bankS (bitAt b2 6) (field b2 4 2)))
    else .ok (.jcdLit7 (.flag fl) (field b2 0 7))

/-- Rows J14 and J15: AW is not valid for JCC (R106). -/
def decodeJcc (b1 b2 : Byte) : Except DecodeError Instr :=
  match flagOfCode (field b1 1 3) with
  | none => .error .unassignedCondition
  | some fl =>
    if bitAt b2 7 then .ok (.jccReg fl (bankS (bitAt b2 6) (field b2 4 2))) else .ok (.jccLit7 fl (field b2 0 7))

/-- Branch family, R105. -/
def decodeBranch (b1 b2 : Byte) (w2 : Word) : Except DecodeError Instr :=
  let r1 := bankS (bitAt b2 7) (field b2 4 2)
  let r2 := bankS (bitAt b2 6) (field b2 2 2)
  if rowIs b1 0xFF#8 0x80#8 then .ok (.jmpReg r1)
  else if rowIs b1 0xFF#8 0x90#8 then .ok (if r1 = .rh ∧ r2 = .rl then .rts else .jmpPair r1 r2)
  else if rowIs b1 0xFF#8 0x99#8 then .ok (.jmpRegLit r1 w2)
  else if rowIs b1 0xFF#8 0x9B#8 then .ok (.jmpLitReg r1 w2)
  else if rowIs b1 0xFF#8 0x89#8 then .ok (.jmpLit24 (addrOf b2 w2))
  else if rowIs b1 0xFF#8 0x84#8 then .ok (.jsrReg r1)
  else if rowIs b1 0xFF#8 0x94#8 then .ok (.jsrPair r1 r2)
  else if rowIs b1 0xFF#8 0x9D#8 then .ok (.jsrRegLit r1 w2)
  else if rowIs b1 0xFF#8 0x9F#8 then .ok (.jsrLitReg r1 w2)
  else if rowIs b1 0xFF#8 0x8D#8 then .ok (.jsrLit24 (addrOf b2 w2))
  else if rowIs b1 0xF1#8 0xB0#8 then decodeJcd b1 b2
  else if rowIs b1 0xF5#8 0xB1#8 then .ok (if maskOf b2 = 0#5 then .jrlLit16 w2 else .jcdMask (maskOf b2) w2)
  else if rowIs b1 0xF1#8 0xA0#8 then decodeJcc b1 b2
  else if rowIs b1 0xF5#8 0xA1#8 then .ok (.jccMask (maskOf b2) w2)
  else if rowIs b1 0xE5#8 0xA5#8 then .ok (.jcn b2 (maskOf (byteHi w2)) (maskOf (byteLo w2)))
  else .error .unassignedOpcode

/-- Arithmetic family, R110. -/
def decodeArithmetic (b1 b2 : Byte) (w2 : Word) : Except DecodeError Instr :=
  let r1 := bankA (bitAt b2 7) (field b2 4 2)
  let r2 := bankA (bitAt b2 6) (field b2 2 2)
  let r3 := bankA (bitAt b1 1) (field b2 0 2)
  let swp := bitAt b2 2
  if rowIs b1 0xFD#8 0xE0#8 then .ok (.addRegs r1 r2 r3)
  else if rowIs b1 0xFD#8 0xE8#8 then .ok (.adcRegs r1 r2 r3)
  else if rowIs b1 0xFD#8 0xF0#8 then .ok (.subRegs r1 r2 r3)
  else if rowIs b1 0xFD#8 0xF8#8 then .ok (if r3 = .z then .cmpRegs r1 r2 else .sbcRegs r1 r2 r3)
  else if rowIs b1 0xFD#8 0xC0#8 then .ok (.andRegs r1 r2 r3)
  else if rowIs b1 0xFD#8 0xC8#8 then .ok (.iorRegs r1 r2 r3)
  else if rowIs b1 0xFD#8 0xD8#8 then .ok (.xorRegs r1 r2 r3)
  else if rowIs b1 0xFD#8 0xE1#8 then .ok (.addLit r1 w2 r3)
  else if rowIs b1 0xFD#8 0xE9#8 then .ok (.adcLit r1 w2 r3)
  else if rowIs b1 0xFD#8 0xF1#8 then .ok (if swp then .subLitRev r1 w2 r3 else .subLit r1 w2 r3)
  else if rowIs b1 0xFD#8 0xF9#8 then
    .ok (if r3 = .z then (if swp then .cmpLitRev r1 w2 else .cmpLit r1 w2)
      else (if swp then .sbcLitRev r1 w2 r3 else .sbcLit r1 w2 r3))
  else if rowIs b1 0xFD#8 0xC1#8 then .ok (.andLit r1 w2 r3)
  else if rowIs b1 0xFD#8 0xC9#8 then .ok (.iorLit r1 w2 r3)
  else if rowIs b1 0xFD#8 0xD9#8 then .ok (.xorLit r1 w2 r3)
  else if rowIs b1 0xFD#8 0xC4#8 then .ok (.lsl r1 r3)
  else if rowIs b1 0xFD#8 0xCC#8 then .ok (.rol r1 r3)
  else if rowIs b1 0xFD#8 0xD4#8 then .ok (.lsr r1 r3)
  else if rowIs b1 0xFD#8 0xDC#8 then .ok (.ror r1 r3)
  else .error .unassignedOpcode

/-- Other family, R112. -/
def decodeOther (b1 b2 : Byte) : Except DecodeError Instr :=
  if rowIs b1 0xFF#8 0x00#8 then .ok .nop
  else if rowIs b1 0xF1#8 0x10#8 then .ok (.sef (maskOf b2))
  else if rowIs b1 0xF1#8 0x30#8 then .ok (.clf (maskOf b2))
  else if rowIs b1 0xFF#8 0x20#8 then .ok (.itr b2)
  else if rowIs b1 0xFF#8 0x22#8 then .ok .rti
  else .error .unassignedOpcode

/-- The instruction of the words `w1`, `w2` (R121): the family from B1[7:6] (R93), then its rows in order. -/
def decode (w1 w2 : Word) : Except DecodeError Instr :=
  let b1 := byteHi w1
  let b2 := byteLo w1
  match field b1 6 2 with
  | 0b01#2 => decodeMemory b1 b2 w2
  | 0b10#2 => decodeBranch b1 b2 w2
  | 0b11#2 => decodeArithmetic b1 b2 w2
  | _ => decodeOther b1 b2

/-- The first instruction of a list of words: the length is known before any other bit is looked at (R90). -/
def decodeWords : List Word → Except DecodeError Instr
  | [] => .error .truncated
  | [w1] => if isLong w1 then .error .truncated else decode w1 0#16
  | w1 :: w2 :: _ => decode w1 w2

/-! ### The host's numbering of the table -/

/-- The first and second word of an instruction whose bits are `w`, numbered as opcode_table.json numbers them (R122): in a
32-bit row bit 31 is B1[7] and bits 15:0 are B3 : B4. The words of a 16-bit row are followed by zero (log entry 10). -/
def tableWords (nbits w : Nat) : Word × Word :=
  if nbits ≤ 16 then (BitVec.ofNat 16 w, 0#16) else (BitVec.ofNat 16 (w / 65536), BitVec.ofNat 16 w)

/-- What the decoder reads from a table word. -/
def decodeTableWord (nbits w : Nat) : Option Instr :=
  match decode (tableWords nbits w).1 (tableWords nbits w).2 with
  | .ok i => some i
  | .error _ => none

/-! ### The encoder -/

/-- The bank bit of a REGL or SPEC register (R22). -/
def RegS.bank : RegS → Bool
  | .a | .b | .c | .sp => false
  | .rl | .rh | .i | .z => true

/-- The 2-bit code of a REGL or SPEC register (R22). -/
def RegS.code : RegS → BitVec 2
  | .a | .rl => 0b00#2
  | .b | .rh => 0b01#2
  | .c | .i => 0b10#2
  | .sp | .z => 0b11#2

/-- The bank bit of a REGL or ARTH register (R22). -/
def RegA.bank : RegA → Bool
  | .a | .b | .c | .sp => false
  | .aa | .ab | .ac | .z => true

/-- The 2-bit code of a REGL or ARTH register (R22). -/
def RegA.code : RegA → BitVec 2
  | .a | .aa => 0b00#2
  | .b | .ab => 0b01#2
  | .c | .ac => 0b10#2
  | .sp | .z => 0b11#2

/-- The `RHI` code of a high address register (R23). -/
def RegHi.code : RegHi → BitVec 2
  | .a => 0b00#2
  | .b => 0b01#2
  | .c => 0b10#2
  | .z => 0b11#2

/-- The FULL code of a register (R21). -/
def Reg.code : Reg → BitVec 4
  | .a => 0b0000#4
  | .b => 0b0001#4
  | .c => 0b0010#4
  | .sp => 0b0011#4
  | .rl => 0b0100#4
  | .rh => 0b0101#4
  | .i => 0b0110#4
  | .z => 0b0111#4
  | .aa => 0b1000#4
  | .ab => 0b1001#4
  | .ac => 0b1010#4
  | .pl => 0b1100#4
  | .ph => 0b1101#4
  | .f => 0b1110#4

/-- The ID of a large register (R27). -/
def LargeReg.id : LargeReg → Bool
  | .rt => false
  | .pc => true

/-- The COND code of a flag (R30): its bit number in F. -/
def Flag.code : Flag → BitVec 3
  | .ca => 0b000#3
  | .ze => 0b001#3
  | .ov => 0b010#3
  | .ne => 0b011#3
  | .di => 0b100#3

/-- The `ccc` of a JCD condition (R106). -/
def Cond.code : Cond → BitVec 3
  | .flag fl => fl.code
  | .aw => Config.condAW

/-- Bits 23:16 of a 24-bit literal, which B2 holds (R66). -/
def litHi (x : Addr) : Byte := x.extractLsb' 16 8

/-- Bits 15:0 of a 24-bit literal, the second word (R66). -/
def litLo (x : Addr) : Word := x.extractLsb' 0 16

/-- B1 of rows M1 to M4: `0100`, the `$` bits or fixed bits `p`, `q`, and two fixed bits (R100). -/
def movB1 (p q : Bool) (x : BitVec 2) : Byte := 0b0100#4 ++ bit p ++ bit q ++ x

/-- B2 of rows with two bankS registers, `s t R1 R2` and two more bits (R100, R105). -/
def pairB2 (r1 r2 : RegS) (x : BitVec 2) : Byte := bit r1.bank ++ bit r2.bank ++ r1.code ++ r2.code ++ x

/-- B2 of rows M3 and M4, `s . . . R2 HH`; B2[6] is set equal to B2[7] (R143). -/
def movLitB2 (r2 : RegS) (hh : RegHi) : Byte := bit r2.bank ++ bit r2.bank ++ 0b00#2 ++ r2.code ++ hh.code

/-- B2 of rows M5 and M6, `s t . g R2 RHI`: B2[7] banks the low register, B2[6] the high one (R94). -/
def movLargeB2 (g : LargeReg) (rhi rlo : RegS) : Byte :=
  bit rlo.bank ++ bit rhi.bank ++ 0b0#1 ++ bit g.id ++ rlo.code ++ rhi.code

/-- B1 of rows M8 to M10, `011 R1 s` and two fixed bits (R100). -/
def mov24B1 (r1 : RegS) (x : BitVec 2) : Byte := 0b011#3 ++ r1.code ++ bit r1.bank ++ x

/-- B2 of PSH and POP: two 4-bit codes (R100). -/
def stackB2 (x y : BitVec 4) : Byte := x ++ y

/-- B1 of the 16-bit conditional jumps, `101 j ccc 0` with `j = 1` for JCD (R105). -/
def condB1 (jcd : Bool) (ccc : BitVec 3) : Byte := 0b101#3 ++ bit jcd ++ ccc ++ 0b0#1

/-- B1 of the arithmetic family: `11 ooo t a L` (R110). -/
def arithB1 (ooo : BitVec 3) (t : Bool) (r3 : RegA) (l : Bool) : Byte :=
  0b11#2 ++ ooo ++ bit t ++ bit r3.bank ++ bit l

/-- B2 of the three-register rows, `a a R1 R2 R3` (R110). -/
def arithB2 (r1 r2 r3 : RegA) : Byte := bit r1.bank ++ bit r2.bank ++ r1.code ++ r2.code ++ r3.code

/-- B2 of the literal and shift rows, `a . R1 . swp R3` (R110); don't-care bits 0 (R97). -/
def arithB2One (r1 : RegA) (swp : Bool) (r3 : RegA) : Byte :=
  bit r1.bank ++ 0b0#1 ++ r1.code ++ 0b0#1 ++ bit swp ++ r3.code

/-- B2 of the rows with one register in B2[5:4] and its bank in B2[7], `s . R1 . . . .` (R105). -/
def branchB2One (r1 : RegS) : Byte := bit r1.bank ++ 0b0#1 ++ r1.code ++ 0b0000#4

/-- B2 of the register forms of JCD and JCC, `1 s R1 . . . .` (R105). -/
def offsetB2 (r1 : RegS) : Byte := 0b1#1 ++ bit r1.bank ++ r1.code ++ 0b0000#4

/-- B2 of the 7L forms of JCD and JCC (R105). -/
def offsetB2Lit (off : BitVec 7) : Byte := 0b0#1 ++ off

/-- A flag mask as a byte, bits 7:5 zero (R113). -/
def maskByte (m : Flags) : Byte := 0b000#3 ++ m

/-- B1 and B2 of an instruction, the first word (R62). Don't-care bits are 0 (R97), but for B2[6] of M3 and M4, which the
canonical encoding sets equal to B2[7] (R143). -/
def encodeFirst : Instr → Word
  | .movRegHi p q r1 r2 hh => wordOf (movB1 p q 0b00#2) (pairB2 r1 r2 hh.code)
  | .movHiReg p q r1 r2 hh => wordOf (movB1 p q 0b10#2) (pairB2 r1 r2 hh.code)
  | .movLitHi p q r2 hh _ => wordOf (movB1 p q 0b01#2) (movLitB2 r2 hh)
  | .movHiLit p r2 hh _ => wordOf (movB1 p true 0b11#2) (movLitB2 r2 hh)
  | .movLargePair g rhi rlo => wordOf 0x50#8 (movLargeB2 g rhi rlo)
  | .movPairLarge g rhi rlo => wordOf 0x52#8 (movLargeB2 g rhi rlo)
  | .movBytes p q r1 r2 _ _ => wordOf 0x51#8 (pairB2 r1 r2 (bit p ++ bit q))
  | .movLoad24 r1 addr => wordOf (mov24B1 r1 0b01#2) (litHi addr)
  | .movStore24 r1 addr => wordOf (mov24B1 r1 0b11#2) (litHi addr)
  | .movLit8 r1 lit => wordOf (mov24B1 r1 0b00#2) lit
  | .pshReg r => wordOf 0x58#8 (stackB2 r.code 0b1111#4)
  | .pshPair rhi rlo => wordOf 0x58#8 (stackB2 rhi.code rlo.code)
  | .pshLit16 _ => wordOf 0x5B#8 0x00#8
  | .pshLit8 lit => wordOf 0x5A#8 lit
  | .popReg r => wordOf 0x5C#8 (stackB2 r.code 0b1111#4)
  | .popPair rhi rlo => wordOf 0x5C#8 (stackB2 rhi.code rlo.code)
  | .jmpReg r1 => wordOf 0x80#8 (branchB2One r1)
  | .jmpPair r1 r2 => wordOf 0x90#8 (pairB2 r1 r2 0b00#2)
  | .jmpRegLit r1 _ => wordOf 0x99#8 (branchB2One r1)
  | .jmpLitReg r1 _ => wordOf 0x9B#8 (branchB2One r1)
  | .jmpLit24 addr => wordOf 0x89#8 (litHi addr)
  | .jsrReg r1 => wordOf 0x84#8 (branchB2One r1)
  | .jsrPair r1 r2 => wordOf 0x94#8 (pairB2 r1 r2 0b00#2)
  | .jsrRegLit r1 _ => wordOf 0x9D#8 (branchB2One r1)
  | .jsrLitReg r1 _ => wordOf 0x9F#8 (branchB2One r1)
  | .jsrLit24 addr => wordOf 0x8D#8 (litHi addr)
  | .jcdReg cond r1 => wordOf (condB1 true cond.code) (offsetB2 r1)
  | .jcdLit7 cond off => wordOf (condB1 true cond.code) (offsetB2Lit off)
  | .jcdMask m _ => wordOf 0xB1#8 (maskByte m)
  | .jccReg fl r1 => wordOf (condB1 false fl.code) (offsetB2 r1)
  | .jccLit7 fl off => wordOf (condB1 false fl.code) (offsetB2Lit off)
  | .jccMask m _ => wordOf 0xA1#8 (maskByte m)
  | .jcn off _ _ => wordOf 0xA5#8 off
  | .addRegs r1 r2 r3 => wordOf (arithB1 0b100#3 false r3 false) (arithB2 r1 r2 r3)
  | .adcRegs r1 r2 r3 => wordOf (arithB1 0b101#3 false r3 false) (arithB2 r1 r2 r3)
  | .subRegs r1 r2 r3 => wordOf (arithB1 0b110#3 false r3 false) (arithB2 r1 r2 r3)
  | .sbcRegs r1 r2 r3 => wordOf (arithB1 0b111#3 false r3 false) (arithB2 r1 r2 r3)
  | .andRegs r1 r2 r3 => wordOf (arithB1 0b000#3 false r3 false) (arithB2 r1 r2 r3)
  | .iorRegs r1 r2 r3 => wordOf (arithB1 0b001#3 false r3 false) (arithB2 r1 r2 r3)
  | .xorRegs r1 r2 r3 => wordOf (arithB1 0b011#3 false r3 false) (arithB2 r1 r2 r3)
  | .addLit r1 _ r3 => wordOf (arithB1 0b100#3 false r3 true) (arithB2One r1 false r3)
  | .adcLit r1 _ r3 => wordOf (arithB1 0b101#3 false r3 true) (arithB2One r1 false r3)
  | .subLit r1 _ r3 => wordOf (arithB1 0b110#3 false r3 true) (arithB2One r1 false r3)
  | .subLitRev r1 _ r3 => wordOf (arithB1 0b110#3 false r3 true) (arithB2One r1 true r3)
  | .sbcLit r1 _ r3 => wordOf (arithB1 0b111#3 false r3 true) (arithB2One r1 false r3)
  | .sbcLitRev r1 _ r3 => wordOf (arithB1 0b111#3 false r3 true) (arithB2One r1 true r3)
  | .andLit r1 _ r3 => wordOf (arithB1 0b000#3 false r3 true) (arithB2One r1 false r3)
  | .iorLit r1 _ r3 => wordOf (arithB1 0b001#3 false r3 true) (arithB2One r1 false r3)
  | .xorLit r1 _ r3 => wordOf (arithB1 0b011#3 false r3 true) (arithB2One r1 false r3)
  | .lsl r1 r3 => wordOf (arithB1 0b000#3 true r3 false) (arithB2One r1 false r3)
  | .rol r1 r3 => wordOf (arithB1 0b001#3 true r3 false) (arithB2One r1 false r3)
  | .lsr r1 r3 => wordOf (arithB1 0b010#3 true r3 false) (arithB2One r1 false r3)
  | .ror r1 r3 => wordOf (arithB1 0b011#3 true r3 false) (arithB2One r1 false r3)
  | .nop => wordOf 0x00#8 0x00#8
  | .sef m => wordOf 0x10#8 (maskByte m)
  | .clf m => wordOf 0x30#8 (maskByte m)
  | .itr id => wordOf 0x20#8 id
  | .rti => wordOf 0x22#8 0x00#8
  | .rts => wordOf 0x90#8 (pairB2 .rh .rl 0b00#2)
  | .cmpRegs r1 r2 => wordOf (arithB1 0b111#3 false .z false) (arithB2 r1 r2 .z)
  | .cmpLit r1 _ => wordOf (arithB1 0b111#3 false .z true) (arithB2One r1 false .z)
  | .cmpLitRev r1 _ => wordOf (arithB1 0b111#3 false .z true) (arithB2One r1 true .z)
  | .jrlReg r1 => wordOf (condB1 true Config.condAW) (offsetB2 r1)
  | .jrlLit7 off => wordOf (condB1 true Config.condAW) (offsetB2Lit off)
  | .jrlLit16 _ => wordOf 0xB1#8 0x00#8

/-- B3 and B4, the second word of a 32-bit instruction (R62, R91); none for a 16-bit one. -/
def encodeSecond : Instr → Option Word
  | .movLitHi _ _ _ _ lit | .movHiLit _ _ _ lit | .pshLit16 lit | .jmpRegLit _ lit | .jmpLitReg _ lit
  | .jsrRegLit _ lit | .jsrLitReg _ lit | .addLit _ lit _ | .adcLit _ lit _ | .subLit _ lit _ | .subLitRev _ lit _
  | .sbcLit _ lit _ | .sbcLitRev _ lit _ | .andLit _ lit _ | .iorLit _ lit _ | .xorLit _ lit _ | .cmpLit _ lit
  | .cmpLitRev _ lit => some lit
  | .jcdMask _ off | .jccMask _ off | .jrlLit16 off => some off
  | .movBytes _ _ _ _ hs hd => some (wordOf hs hd)
  | .movLoad24 _ addr | .movStore24 _ addr | .jmpLit24 addr | .jsrLit24 addr => some (litLo addr)
  | .jcn _ ms mc => some (wordOf (maskByte ms) (maskByte mc))
  | .movRegHi .. | .movHiReg .. | .movLargePair .. | .movPairLarge .. | .movLit8 .. | .pshReg .. | .pshPair ..
  | .pshLit8 .. | .popReg .. | .popPair .. | .jmpReg .. | .jmpPair .. | .jsrReg .. | .jsrPair .. | .jcdReg ..
  | .jcdLit7 .. | .jccReg .. | .jccLit7 .. | .addRegs .. | .adcRegs .. | .subRegs .. | .sbcRegs .. | .andRegs ..
  | .iorRegs .. | .xorRegs .. | .lsl .. | .rol .. | .lsr .. | .ror .. | .nop | .sef .. | .clf .. | .itr .. | .rti
  | .rts | .cmpRegs .. | .jrlReg .. | .jrlLit7 .. => none

/-- The words of an instruction, in the order of their addresses (R62). -/
def encode (i : Instr) : List Word := encodeFirst i :: (encodeSecond i).toList

/-- The length of an instruction in words (R90). -/
def Instr.size (i : Instr) : Nat := (encode i).length

/-- The bits of the first word that the instruction's row prints as don't-care (R97, R113). -/
def dontCareFirst : Instr → Word
  | .movLitHi .. | .movHiLit .. => 0x0070#16
  | .movLargePair .. | .movPairLarge .. => 0x0020#16
  | .pshLit16 .. | .nop | .rti => 0x00FF#16
  | .jmpReg .. | .jmpRegLit .. | .jmpLitReg .. | .jsrReg .. | .jsrRegLit .. | .jsrLitReg .. => 0x004F#16
  | .jmpPair .. | .jsrPair .. | .rts => 0x0003#16
  | .jcdReg .. | .jccReg .. | .jrlReg .. => 0x000F#16
  | .jcdMask .. | .jccMask .. | .jrlLit16 .. => 0x0AE0#16
  | .jcn .. => 0x1A00#16
  | .addLit .. | .adcLit .. | .andLit .. | .iorLit .. | .xorLit .. | .lsl .. | .rol .. | .lsr .. | .ror .. => 0x004C#16
  | .subLit .. | .subLitRev .. | .sbcLit .. | .sbcLitRev .. | .cmpLit .. | .cmpLitRev .. => 0x0048#16
  | .sef .. | .clf .. => 0x0EE0#16
  | .movRegHi .. | .movHiReg .. | .movBytes .. | .movLoad24 .. | .movStore24 .. | .movLit8 .. | .pshReg ..
  | .pshPair .. | .pshLit8 .. | .popReg .. | .popPair .. | .jmpLit24 .. | .jsrLit24 .. | .jcdLit7 .. | .jccLit7 ..
  | .addRegs .. | .adcRegs .. | .subRegs .. | .sbcRegs .. | .andRegs .. | .iorRegs .. | .xorRegs .. | .itr ..
  | .cmpRegs .. | .jrlLit7 .. => 0x0000#16

/-- The bits of the second word that are ignored: bits 7:5 of each mask byte of JCN (R113). -/
def dontCareSecond : Instr → Word
  | .jcn .. => 0xE0E0#16
  | _ => 0x0000#16

end Sys2Proof
end

