-- ==== Sys2Proof/Machine/State.lean ====
section
/-!
DEFINITION. The state of the machine as plain data (spec/10_state.md), the reasons a step can stop, and the state after
reset. What reads and writes it is in Machine/Ops.lean, Machine/Flags.lean and Machine/Operands.lean.
-/

namespace Sys2Proof.Machine

/-- Memory: (key, byte) pairs in one canonical form (`Memory.wf`). Word `n` is held at the keys `2n` (bits 15:8) and
`2n + 1` (bits 7:0), so the 2^24 words of R60 have the keys below 2^25 (log entry 4). -/
abbrev Memory := List Host.Cell

/-- The canonical form: keys strictly rising, no entry that says what an unlisted key reads as, no key outside the address
space. Equal memories are then equal data. -/
abbrev Memory.wf (m : Memory) : Prop :=
  m.Pairwise (fun x y => x.1 < y.1) ∧ ∀ x ∈ m, x.2 ≠ Config.unwrittenByte ∧ x.1 < 2 ^ 25

/-- The state of the processor and its memory. Z has no storage (R25); PL and PH are the halves of `pc` (R28); RT and PC are
names of pairs (R27). -/
structure State where
  /-- Register A (R20). -/
  a : Word
  /-- Register B (R20). -/
  b : Word
  /-- Register C (R20). -/
  c : Word
  /-- The stack pointer SP (R35). -/
  sp : Word
  /-- Return register low, RL (R20). -/
  rl : Word
  /-- Return register high, RH (R20). -/
  rh : Word
  /-- The interrupt register I (R34). -/
  i : Word
  /-- Arithmetic register AA (R36). -/
  aa : Word
  /-- Arithmetic register AB (R36). -/
  ab : Word
  /-- Arithmetic register AC (R36). -/
  ac : Word
  /-- The program counter, a word address (R28). -/
  pc : Addr
  /-- The implemented bits of F: CA 0, ZE 1, OV 2, NE 3, DI 4 (R30). -/
  f : Flags
  /-- The hidden interrupt return-address stack, the newest entry first (R31). -/
  istack : List Addr
  /-- Memory (R37, R60). -/
  mem : Memory
  deriving DecidableEq, Repr

/-- The model faults of R281. The hardware has no event for them: it has no architected exception (R280). -/
inductive Fault where
  /-- Raised by `step` when the words at the program counter are no instruction (R120). Safe: the spec gives such words no
  behaviour. -/
  | illegalInstruction
  /-- Raised by a read, a write or a fetch at an address where MEM_VALID is false (R63, R64). Safe. It cannot occur with the
  default MEM_VALID. -/
  | badAddress
  /-- Raised by ITR with DI = 0 when the return stack holds 4 entries (R266, R286). Safe: the spec gives it no behaviour. -/
  | interruptStackOverflow
  /-- Raised by RTI when the return stack is empty (R267, R287). Safe: the spec gives it no behaviour. -/
  | interruptStackUnderflow
  deriving DecidableEq, Repr

/-- Why an instruction is declined. Every instruction of the table has its meaning, so no step answers with this. -/
inductive Refusal where
  /-- Answered by an arm of `exec` whose instruction has no meaning yet. Safe. No arm answers so. -/
  | notModelled (mnemonic : String)
  deriving DecidableEq, Repr

/-- What an instruction answers. -/
abbrev Result := Host.Outcome State Fault Refusal

/-- The machine right after reset (R38, R310): pc = RESET_PC and the return stack empty, as the spec says. The registers and
the flags, which the spec leaves unspecified, are zero: DESIGN CHOICE, log entry 1, unsafe. Memory lists nothing (log
entry 3). -/
def State.reset : State where
  a := 0x0000#16
  b := 0x0000#16
  c := 0x0000#16
  sp := 0x0000#16
  rl := 0x0000#16
  rh := 0x0000#16
  i := 0x0000#16
  aa := 0x0000#16
  ab := 0x0000#16
  ac := 0x0000#16
  pc := Config.resetPC
  f := 0b00000#5
  istack := []
  mem := []

end Sys2Proof.Machine
end

