-- ==== Sys2Proof/Machine/Ops.lean ====
section
/-!
DEFINITION. The named operations over memory, registers, the program counter and the interrupt stack: the primitives of
spec/00_scope.md R12, the memory access of spec/20_memory.md, and taking and leaving an interrupt (spec/60_exceptions.md).
-/

namespace Sys2Proof.Machine

/-! ### Memory as bytes -/

/-- The byte at a key: what is listed, else what an unwritten byte reads as. -/
def Memory.get : Memory → Nat → Byte
  | [], _ => Config.unwrittenByte
  | (k, v) :: rest, key => if k = key then v else Memory.get rest key

/-- Memory without the entries of a key. -/
def Memory.erase : Memory → Nat → Memory
  | [], _ => []
  | (k, v) :: rest, key => if k = key then Memory.erase rest key else (k, v) :: Memory.erase rest key

/-- Memory with an entry set at its place in the rising order of keys. -/
def Memory.insert : Memory → Nat → Byte → Memory
  | [], key, v => [(key, v)]
  | (k, w) :: rest, key, v => if key < k then (key, v) :: (k, w) :: rest else (k, w) :: Memory.insert rest key v

/-- Memory with the byte at a key changed; a byte equal to what an unlisted one reads as is not listed. -/
def Memory.put (m : Memory) (key : Nat) (v : Byte) : Memory :=
  if v = Config.unwrittenByte then m.erase key else (m.erase key).insert key v

/-! ### Memory as words -/

/-- One byte of memory, by key: bits 15:8 of word `n` at `2n`, bits 7:0 at `2n + 1` (log entry 4). -/
def State.readByte (s : State) (key : Nat) : Byte := s.mem.get key

/-- The key of bits 15:8 of the word at an address. -/
def keyHi (addr : Addr) : Nat := 2 * addr.toNat

/-- The key of bits 7:0 of the word at an address. -/
def keyLo (addr : Addr) : Nat := 2 * addr.toNat + 1

/-- The word an address holds (R60). -/
def State.readWord (s : State) (addr : Addr) : Word := wordOf (s.readByte (keyHi addr)) (s.readByte (keyLo addr))

/-- Memory with the word at an address changed and no other word (R60, R62). -/
def Memory.putWord (m : Memory) (addr : Addr) (v : Word) : Memory :=
  (m.put (keyHi addr) (byteHi v)).put (keyLo addr) (byteLo v)

/-- The state with the word at an address changed and no other word (R64). -/
def State.writeWord (s : State) (addr : Addr) (v : Word) : State := { s with mem := s.mem.putWord addr v }

/-- `MemRead(addr, 1)` (R63). -/
def memRead (s : State) (addr : Addr) : Except Fault Word :=
  if Config.memValid addr then .ok (s.readWord addr) else .error .badAddress

/-- `MemWrite(addr, 1, v)` (R64). -/
def memWrite (s : State) (addr : Addr) (v : Word) : Except Fault State :=
  if Config.memValid addr then .ok (s.writeWord addr v) else .error .badAddress

/-! ### Addresses -/

/-- `0x00 : v`, the address of a single register, of a 16-bit literal and of the stack (R70). -/
def shortAddr (v : Word) : Addr := addrOf 0x00#8 v

/-- `h[7:0] : l`: bits 15:8 of the high part are ignored (R70, R180). -/
def pairAddr (h l : Word) : Addr := addrOf (byteLo h) l

/-- `h : l` with a high byte from the instruction (R70). -/
def byteAddr (h : Byte) (l : Word) : Addr := addrOf h l

/-! ### Registers -/

/-- Bits 23:16 of an address, zero-extended: what PH reads as (R28). -/
def addrHi (addr : Addr) : Word := (litHi addr).setWidth 16

/-- Bits 15:0 of an address: what PL reads as (R28). -/
def addrLo (addr : Addr) : Word := litLo addr

/-- `x[r]` (R12, R25, R28, R30). PL and PH read the visible pc, which is `pcnext`: a meaning reads registers in a state whose
`pc` has been advanced (`State.advance`). -/
def State.readReg (s : State) : Reg → Word
  | .a => s.a
  | .b => s.b
  | .c => s.c
  | .sp => s.sp
  | .rl => s.rl
  | .rh => s.rh
  | .i => s.i
  | .z => 0x0000#16
  | .aa => s.aa
  | .ab => s.ab
  | .ac => s.ac
  | .pl => addrLo s.pc
  | .ph => addrHi s.pc
  | .f => s.f.setWidth 16

/-- `x[r] <- v` (R12, R25, R28, R30): Z discards, PL and PH write their part of `pc` (a control transfer), F takes
`v[4:0]`. -/
def State.writeReg (s : State) (r : Reg) (v : Word) : State :=
  match r with
  | .a => { s with a := v }
  | .b => { s with b := v }
  | .c => { s with c := v }
  | .sp => { s with sp := v }
  | .rl => { s with rl := v }
  | .rh => { s with rh := v }
  | .i => { s with i := v }
  | .z => s
  | .aa => { s with aa := v }
  | .ab => { s with ab := v }
  | .ac => { s with ac := v }
  | .pl => { s with pc := addrOf (litHi s.pc) v }
  | .ph => { s with pc := addrOf (byteLo v) (litLo s.pc) }
  | .f => { s with f := v.extractLsb' 0 5 }

/-! ### The program counter -/

/-- `pc <- target` (R12). -/
def State.jump (s : State) (target : Addr) : State := { s with pc := target }

/-- `pcnext` of an instruction of `n` words, modulo 2^24 (R12, R29). -/
def State.pcNext (s : State) (n : Nat) : Addr := s.pc + BitVec.ofNat 24 n

/-- The state an instruction of `n` words works in: `pc` already at `pcnext`, which is both the visible pc (R28) and where the
instruction leaves `pc` unless it writes it (R13). -/
def State.advance (s : State) (n : Nat) : State := s.jump (s.pcNext n)

/-- The fetch of R92: the first word, and the second when `B1[0] = 1` (else zero, and unused). -/
def fetch (s : State) : Except Fault (Word × Word) :=
  match memRead s s.pc with
  | .error e => .error e
  | .ok w1 =>
    if isLong w1 then
      match memRead s (s.pc + 1) with
      | .error e => .error e
      | .ok w2 => .ok (w1, w2)
    else .ok (w1, 0x0000#16)

/-! ### The interrupt: entry and return -/

/-- Interrupt entry, in the order of R284: the stack check, the return address (`pcnext`) pushed, the id into I, the handler's
address into `pc`. Nothing else is saved or changed. -/
def takeInterrupt (id : Byte) (s : State) : Result :=
  if s.istack.length = Config.intStackDepth then .fault .interruptStackOverflow
  else .next { s with istack := s.pc :: s.istack, i := id.setWidth 16, pc := Config.intVector id }

/-- Interrupt return (R287): the newest entry of the stack goes into `pc`, and nothing else is restored. -/
def returnFromInterrupt (s : State) : Result :=
  match s.istack with
  | [] => .fault .interruptStackUnderflow
  | ra :: rest => .next { s with istack := rest, pc := ra }

end Sys2Proof.Machine
end

