-- ==== Sys2Proof/Machine/Flags.lean ====
section
/-!
DEFINITION. Every flag computation of the spec: the flags of spec/10_state.md R30, the conditions and masks of
spec/41_branch_family.md R190, and the flag rules of spec/42_arithmetic_family.md R221 to R230 over exact integers.
-/

namespace Sys2Proof.Machine

/-- The bit of F that holds a flag (R30). -/
def flagBit : Flag → Nat
  | .ca => 0
  | .ze => 1
  | .ov => 2
  | .ne => 3
  | .di => 4

/-- `F.<flag>` (R12, R30). -/
def State.flag (s : State) (fl : Flag) : Bool := s.f.getLsbD (flagBit fl)

/-- `f` with one bit set to `v`. -/
def putFlag (f : Flags) (fl : Flag) (v : Bool) : Flags :=
  if v then f ||| (1#5 <<< flagBit fl) else f &&& ~~~(1#5 <<< flagBit fl)

/-- `F.<flag> <- v`: a flag that an instruction affects is always written (R33, R221). -/
def State.setFlag (s : State) (fl : Flag) (v : Bool) : State := { s with f := putFlag s.f fl v }

/-- `zero(r)` (R221). -/
def isZero (v : Word) : Bool := v == 0#16

/-- The ZE condition of a 32-bit value `h : l` (R140, R148, D25). -/
def isZero32 (h l : Word) : Bool := (h ++ l : BitVec 32) == 0#32

/-- A bit as a number. -/
def bitNat (v : Bool) : Nat := if v then 1 else 0

/-- The carry out of `x + y + cin` (R223: `s >= 2^16`). -/
def carryOut (x y : Word) (cin : Bool) : Bool := decide (2 ^ 16 ≤ x.toNat + y.toNat + bitNat cin)

/-- Signed overflow of `x + y + cin` (R223: `t < -32768 or t > 32767`). -/
def addOverflows (x y : Word) (cin : Bool) : Bool :=
  let t : Int := x.toInt + y.toInt + (bitNat cin : Int)
  decide (t < -32768 ∨ t > 32767)

/-- The borrow out of `x - y - bin` (R225: `d < 0`). -/
def borrowOut (x y : Word) (bin : Bool) : Bool := decide ((x.toNat : Int) - (y.toNat : Int) - (bitNat bin : Int) < 0)

/-- Signed overflow of `x - y - bin` (R225: `t < -32768 or t > 32767`). -/
def subOverflows (x y : Word) (bin : Bool) : Bool :=
  let t : Int := x.toInt - y.toInt - (bitNat bin : Int)
  decide (t < -32768 ∨ t > 32767)

/-- Whether a JCD condition holds: its flag is set, or it is AW (R190). -/
def State.holds (s : State) : Cond → Bool
  | .flag fl => s.flag fl
  | .aw => true

/-- `all_set(m)` (R190): every flag of the mask is set; true of the empty mask. -/
def State.allSet (s : State) (m : Flags) : Bool := s.f &&& m == m

/-- `all_clear(m)` (R190): every flag of the mask is clear; true of the empty mask. -/
def State.allClear (s : State) (m : Flags) : Bool := s.f &&& m == 0#5

end Sys2Proof.Machine
end

