-- ==== Sys2Proof/Machine/Operands.lean ====
section
/-!
DEFINITION. The operand forms of every family, and the shared shape of the instructions that use them: MOV operands
(spec/20_memory.md R70, spec/30_encoding.md R96), the stack (spec/40_memory_family.md), jump targets
(spec/41_branch_family.md) and arithmetic operands (spec/42_arithmetic_family.md R220).
-/

namespace Sys2Proof.Machine

/-- The register a bankS field names (R22). -/
def regS : RegS → Reg
  | .a => .a
  | .b => .b
  | .c => .c
  | .sp => .sp
  | .rl => .rl
  | .rh => .rh
  | .i => .i
  | .z => .z

/-- The register a bankA field names (R22). -/
def regA : RegA → Reg
  | .a => .a
  | .b => .b
  | .c => .c
  | .sp => .sp
  | .aa => .aa
  | .ab => .ab
  | .ac => .ac
  | .z => .z

/-- The register an RHI field names (R23). -/
def regHi : RegHi → Reg
  | .a => .a
  | .b => .b
  | .c => .c
  | .z => .z

/-- `x[r]` of a bankS field. -/
def State.readS (s : State) (r : RegS) : Word := s.readReg (regS r)

/-- `x[r]` of a bankA field. -/
def State.readA (s : State) (r : RegA) : Word := s.readReg (regA r)

/-! ### MOV operands -/

/-- The source of a MOV (R96): a register, a literal, or the memory word at an address. -/
inductive Source where
  | reg (r : Reg)
  | lit (v : Word)
  | mem (addr : Addr)
  deriving DecidableEq, Repr

/-- The destination of a MOV (R96): a register or the memory word at an address. -/
inductive Dest where
  | reg (r : Reg)
  | mem (addr : Addr)
  deriving DecidableEq, Repr

/-- The address of `$R` (R70). -/
def State.addrReg (s : State) (r : RegS) : Addr := shortAddr (s.readS r)

/-- `addr2(HH, R2)`, the address of `$RHI:R2` (R70, R140). -/
def State.addr2 (s : State) (hh : RegHi) (r2 : RegS) : Addr := pairAddr (s.readReg (regHi hh)) (s.readS r2)

/-- A source with a `$` bit: memory at `addr` when set, else `plain`. -/
def sourceOf (p : Bool) (addr : Addr) (plain : Source) : Source := if p then .mem addr else plain

/-- A destination with a `$` bit: memory at `addr` when set, else the register. -/
def destOf (q : Bool) (addr : Addr) (r : RegS) : Dest := if q then .mem addr else .reg (regS r)

/-- The value of a source. -/
def readSource (s : State) : Source → Except Fault Word
  | .reg r => .ok (s.readReg r)
  | .lit v => .ok v
  | .mem addr => memRead s addr

/-- A value written to a destination. -/
def writeDest (s : State) (d : Dest) (v : Word) : Except Fault State :=
  match d with
  | .reg r => .ok (s.writeReg r v)
  | .mem addr => memWrite s addr v

/-- What every 16-bit MOV does (R140): read the source, write the destination, set ZE from the value moved. -/
def move (src : Source) (dst : Dest) (s : State) : Result :=
  match readSource s src with
  | .error e => .fault e
  | .ok v =>
    match writeDest s dst v with
    | .error e => .fault e
    | .ok t => .next (t.setFlag .ze (isZero v))

/-- The halves of a large register, high first (R27). -/
def State.readLarge (s : State) : LargeReg → Word × Word
  | .rt => (s.readReg .rh, s.readReg .rl)
  | .pc => (s.readReg .ph, s.readReg .pl)

/-- A large register written; PC is a jump that drops bits 15:8 of the high half (R149). -/
def State.writeLarge (s : State) (g : LargeReg) (h l : Word) : State :=
  match g with
  | .rt => (s.writeReg .rh h).writeReg .rl l
  | .pc => s.jump (pairAddr h l)

/-! ### The stack -/

/-- The address SP names (R35). -/
def stackAddr (sp : Word) : Addr := shortAddr sp

/-- Push one word (R160, R163): store at `0x00 : SP`, then SP + 1, then ZE. -/
def push (v : Word) (s : State) : Result :=
  match memWrite s (stackAddr s.sp) v with
  | .error e => .fault e
  | .ok t => .next ((t.writeReg .sp (s.sp + 1)).setFlag .ze (isZero v))

/-- Push a pair (R162): the high half at `0x00 : SP`, the low half at `0x00 : (SP + 1)`, SP + 2, ZE on 32 bits. -/
def pushPair (h l : Word) (s : State) : Result :=
  match memWrite s (stackAddr s.sp) h with
  | .error e => .fault e
  | .ok t =>
    match memWrite t (stackAddr (s.sp + 1)) l with
    | .error e => .fault e
    | .ok u => .next ((u.writeReg .sp (s.sp + 2)).setFlag .ze (isZero32 h l))

/-- Pop one word into a register (R164, R166): SP is updated before the register is written, and ZE is not recomputed when
the register is F. -/
def pop (r : Reg) (s : State) : Result :=
  match memRead s (stackAddr (s.sp - 1)) with
  | .error e => .fault e
  | .ok v =>
    let t := (s.writeReg .sp (s.sp - 1)).writeReg r v
    .next (if r = .f then t else t.setFlag .ze (isZero v))

/-- Pop a pair (R165, R166): low half first, high half last, so the high half wins where they meet; ZE is not recomputed when
F is one of the two. DESIGN CHOICE, log entry 28: with PL in the first position (`POP PL,PH`) each half goes to the register that
names it, by the pseudocode of R165, so `pc` ends at `l[7:0] : h`; R166 (c) says `h[7:0] : l` of both in one POP. -/
def popPair (rhi rlo : Reg) (s : State) : Result :=
  match memRead s (stackAddr (s.sp - 1)) with
  | .error e => .fault e
  | .ok l =>
    match memRead s (stackAddr (s.sp - 2)) with
    | .error e => .fault e
    | .ok h =>
      let t := ((s.writeReg .sp (s.sp - 2)).writeReg rlo l).writeReg rhi h
      .next (if rhi = .f ∨ rlo = .f then t else t.setFlag .ze (isZero32 h l))

/-! ### Jumps -/

/-- `$R1` as a target (R181). -/
def State.targetReg (s : State) (r1 : RegS) : Addr := shortAddr (s.readS r1)

/-- `$R1:R2` as a target (R182). -/
def State.targetPair (s : State) (r1 r2 : RegS) : Addr := pairAddr (s.readS r1) (s.readS r2)

/-- `$R1:16L` as a target (R183). -/
def State.targetRegLit (s : State) (r1 : RegS) (lit : Word) : Addr := pairAddr (s.readS r1) lit

/-- `$16L:R1` as a target: bits 15:8 of the literal are ignored (R184). -/
def State.targetLitReg (s : State) (r1 : RegS) (lit : Word) : Addr := pairAddr lit (s.readS r1)

/-- What every JSR does in a state whose `pc` is `pcnext` (R186): RT receives `pcnext` and `pc` the target, which was computed
from the registers before. -/
def State.call (s : State) (target : Addr) : State :=
  ((s.writeReg .rh (addrHi s.pc)).writeReg .rl (addrLo s.pc)).jump target

/-- A conditional jump in a state whose `pc` is `pcnext` (R189): `pcnext + sext_24(off)` when taken. -/
def State.branch (s : State) (taken : Bool) {n : Nat} (off : BitVec n) : State :=
  if taken then s.jump (s.pc + off.signExtend 24) else s

/-! ### Arithmetic operands and results (R220, R221) -/

/-- An arithmetic operation: from the two operands, the destination and the state, the state after. -/
abbrev AluOp := Word → Word → RegA → State → State

/-- A three-register row: `arg1 = x[r1]`, `arg2 = x[r2]`. -/
def aluRegs (op : AluOp) (r1 r2 r3 : RegA) (s : State) : Result :=
  let t := s.advance 1
  .next (op (t.readA r1) (t.readA r2) r3 t)

/-- A literal row: `arg1 = x[r1]`, `arg2 = lit`. -/
def aluLit (op : AluOp) (r1 : RegA) (lit : Word) (r3 : RegA) (s : State) : Result :=
  let t := s.advance 2
  .next (op (t.readA r1) lit r3 t)

/-- A literal row with `swp = 1`: `arg1 = lit`, `arg2 = x[r1]`. -/
def aluLitRev (op : AluOp) (r1 : RegA) (lit : Word) (r3 : RegA) (s : State) : Result :=
  let t := s.advance 2
  .next (op lit (t.readA r1) r3 t)

/-- A shift row: the result and the bit shifted out, from the one operand. -/
def aluShift (result : Word → Word) (out : Word → Bool) (r1 r3 : RegA) (s : State) : Result :=
  let t := s.advance 1
  let src := t.readA r1
  .next (((t.writeReg (regA r3) (result src)).setFlag .ca (out src)).setFlag .ze (isZero (result src)))

/-- A result that affects ZE only (R222, R224, R231 to R233). -/
def State.resultZE (s : State) (r3 : RegA) (r : Word) : State :=
  (s.writeReg (regA r3) r).setFlag .ze (isZero r)

/-- A result that affects CA, OV and ZE (R223, R225). -/
def State.resultCarry (s : State) (r3 : RegA) (r : Word) (ca ov : Bool) : State :=
  (((s.writeReg (regA r3) r).setFlag .ca ca).setFlag .ov ov).setFlag .ze (isZero r)

end Sys2Proof.Machine
end

