-- ==== Sys2Proof/Machine/ArithmeticFamily.lean ====
section
/-!
DEFINITION. The arithmetic family: ADD, ADC, SUB, SBC, CMP, LSL, ROL, LSR, ROR, AND, IOR, XOR
(spec/42_arithmetic_family.md, rows A1 to A20, P2 to P4). No instruction of it touches data memory or NE (R221).
-/

namespace Sys2Proof.Machine

/-! ### The operations -/

/-- `dest = arg1 + arg2` modulo 2^16; ZE only (R222). -/
def addOp : AluOp := fun x y r3 s => s.resultZE r3 (x + y)

/-- `arg1 + arg2 + CA`; CA is the carry out, OV the signed overflow (R223). -/
def adcOp : AluOp := fun x y r3 s =>
  let cin := s.flag .ca
  s.resultCarry r3 (x + y + BitVec.ofNat 16 (bitNat cin)) (carryOut x y cin) (addOverflows x y cin)

/-- `dest = arg1 - arg2` modulo 2^16; ZE only (R224). -/
def subOp : AluOp := fun x y r3 s => s.resultZE r3 (x - y)

/-- `arg1 - arg2 - CA`; CA is the borrow out, OV the signed overflow (R225). -/
def sbcOp : AluOp := fun x y r3 s =>
  let bin := s.flag .ca
  s.resultCarry r3 (x - y - BitVec.ofNat 16 (bitNat bin)) (borrowOut x y bin) (subOverflows x y bin)

/-- Bitwise AND; ZE only (R231). -/
def andOp : AluOp := fun x y r3 s => s.resultZE r3 (x &&& y)

/-- Bitwise inclusive OR; ZE only (R232). -/
def iorOp : AluOp := fun x y r3 s => s.resultZE r3 (x ||| y)

/-- Bitwise exclusive OR; ZE only (R233). -/
def xorOp : AluOp := fun x y r3 s => s.resultZE r3 (x ^^^ y)

/-- `src[14:0] : 0` (R227). -/
def shiftLeft (src : Word) : Word := src.extractLsb' 0 15 ++ 0b0#1

/-- `src[14:0] : src[15]` (R228). -/
def rotateLeft (src : Word) : Word := src.extractLsb' 0 15 ++ src.extractLsb' 15 1

/-- `0 : src[15:1]` (R229). -/
def shiftRight (src : Word) : Word := 0b0#1 ++ src.extractLsb' 1 15

/-- `src[0] : src[15:1]` (R230). -/
def rotateRight (src : Word) : Word := src.extractLsb' 0 1 ++ src.extractLsb' 1 15

/-! ### The instructions -/

/-- A1, `ADD R1,R2 > R3` (R222). -/
def execAddRegs (r1 r2 r3 : RegA) (s : State) : Result := aluRegs addOp r1 r2 r3 s

/-- A2, `ADC R1,R2 > R3` (R223). -/
def execAdcRegs (r1 r2 r3 : RegA) (s : State) : Result := aluRegs adcOp r1 r2 r3 s

/-- A3, `SUB R1,R2 > R3` (R224). -/
def execSubRegs (r1 r2 r3 : RegA) (s : State) : Result := aluRegs subOp r1 r2 r3 s

/-- A4, `SBC R1,R2 > R3` (R225). -/
def execSbcRegs (r1 r2 r3 : RegA) (s : State) : Result := aluRegs sbcOp r1 r2 r3 s

/-- A5, `AND R1,R2 > R3` (R231). -/
def execAndRegs (r1 r2 r3 : RegA) (s : State) : Result := aluRegs andOp r1 r2 r3 s

/-- A6, `IOR R1,R2 > R3` (R232). -/
def execIorRegs (r1 r2 r3 : RegA) (s : State) : Result := aluRegs iorOp r1 r2 r3 s

/-- A7, `XOR R1,R2 > R3` (R233). -/
def execXorRegs (r1 r2 r3 : RegA) (s : State) : Result := aluRegs xorOp r1 r2 r3 s

/-- A8, `ADD R1,16L > R3` (R222). -/
def execAddLit (r1 : RegA) (lit : Word) (r3 : RegA) (s : State) : Result := aluLit addOp r1 lit r3 s

/-- A9, `ADC R1,16L > R3` (R223). -/
def execAdcLit (r1 : RegA) (lit : Word) (r3 : RegA) (s : State) : Result := aluLit adcOp r1 lit r3 s

/-- A10, `SUB R1,16L > R3` (R224). -/
def execSubLit (r1 : RegA) (lit : Word) (r3 : RegA) (s : State) : Result := aluLit subOp r1 lit r3 s

/-- A11, `SUB 16L,R1 > R3` (R224). -/
def execSubLitRev (r1 : RegA) (lit : Word) (r3 : RegA) (s : State) : Result := aluLitRev subOp r1 lit r3 s

/-- A12, `SBC R1,16L > R3` (R225). -/
def execSbcLit (r1 : RegA) (lit : Word) (r3 : RegA) (s : State) : Result := aluLit sbcOp r1 lit r3 s

/-- A13, `SBC 16L,R1 > R3` (R225). -/
def execSbcLitRev (r1 : RegA) (lit : Word) (r3 : RegA) (s : State) : Result := aluLitRev sbcOp r1 lit r3 s

/-- A14, `AND R1,16L > R3` (R231). -/
def execAndLit (r1 : RegA) (lit : Word) (r3 : RegA) (s : State) : Result := aluLit andOp r1 lit r3 s

/-- A15, `IOR R1,16L > R3` (R232). -/
def execIorLit (r1 : RegA) (lit : Word) (r3 : RegA) (s : State) : Result := aluLit iorOp r1 lit r3 s

/-- A16, `XOR R1,16L > R3` (R233). -/
def execXorLit (r1 : RegA) (lit : Word) (r3 : RegA) (s : State) : Result := aluLit xorOp r1 lit r3 s

/-- A17, `LSL R1 > R3`: CA is bit 15 of the source (R227). -/
def execLsl (r1 r3 : RegA) (s : State) : Result := aluShift shiftLeft (·.getLsbD 15) r1 r3 s

/-- A18, `ROL R1 > R3`: not through CA; CA is bit 15 of the source (R228). -/
def execRol (r1 r3 : RegA) (s : State) : Result := aluShift rotateLeft (·.getLsbD 15) r1 r3 s

/-- A19, `LSR R1 > R3`: CA is bit 0 of the source (R229). -/
def execLsr (r1 r3 : RegA) (s : State) : Result := aluShift shiftRight (·.getLsbD 0) r1 r3 s

/-- A20, `ROR R1 > R3`: not through CA; CA is bit 0 of the source (R230). -/
def execRor (r1 r3 : RegA) (s : State) : Result := aluShift rotateRight (·.getLsbD 0) r1 r3 s

/-- P2, `CMP R1,R2`, which is `SBC R1,R2 > Z`: only the flags (R226). -/
def execCmpRegs (r1 r2 : RegA) (s : State) : Result := aluRegs sbcOp r1 r2 .z s

/-- P3, `CMP R1,16L`, which is `SBC R1,16L > Z` (R226). -/
def execCmpLit (r1 : RegA) (lit : Word) (s : State) : Result := aluLit sbcOp r1 lit .z s

/-- P4, `CMP 16L,R1`, which is `SBC 16L,R1 > Z` (R226). -/
def execCmpLitRev (r1 : RegA) (lit : Word) (s : State) : Result := aluLitRev sbcOp r1 lit .z s

end Sys2Proof.Machine
end

