-- ==== Sys2Proof/Machine/BranchFamily.lean ====
section
/-!
DEFINITION. The branch family: JMP, JSR, RTS, JCD, JCC, JCN, JRL (spec/41_branch_family.md, rows J1 to J17, P1, P5 to P7).
No instruction of it changes a flag or touches data memory. Targets are computed from the registers before the instruction;
offsets count words from `pcnext` (R189).
-/

namespace Sys2Proof.Machine

/-- J1, `JMP $R1` (R181). -/
def execJmpReg (r1 : RegS) (s : State) : Result :=
  let t := s.advance 1
  .next (t.jump (t.targetReg r1))

/-- J2, `JMP $R1:R2` (R182). -/
def execJmpPair (r1 r2 : RegS) (s : State) : Result :=
  let t := s.advance 1
  .next (t.jump (t.targetPair r1 r2))

/-- J3, `JMP $R1:16L` (R183). -/
def execJmpRegLit (r1 : RegS) (lit : Word) (s : State) : Result :=
  let t := s.advance 2
  .next (t.jump (t.targetRegLit r1 lit))

/-- J4, `JMP $16L:R1` (R184). -/
def execJmpLitReg (r1 : RegS) (lit : Word) (s : State) : Result :=
  let t := s.advance 2
  .next (t.jump (t.targetLitReg r1 lit))

/-- J5, `JMP $24L` (R185). -/
def execJmpLit24 (addr : Addr) (s : State) : Result := .next ((s.advance 2).jump addr)

/-- J6, `JSR $R1` (R186). -/
def execJsrReg (r1 : RegS) (s : State) : Result :=
  let t := s.advance 1
  .next (t.call (t.targetReg r1))

/-- J7, `JSR $R1:R2` (R186). -/
def execJsrPair (r1 r2 : RegS) (s : State) : Result :=
  let t := s.advance 1
  .next (t.call (t.targetPair r1 r2))

/-- J8, `JSR $R1:16L` (R186). -/
def execJsrRegLit (r1 : RegS) (lit : Word) (s : State) : Result :=
  let t := s.advance 2
  .next (t.call (t.targetRegLit r1 lit))

/-- J9, `JSR $16L:R1` (R186). -/
def execJsrLitReg (r1 : RegS) (lit : Word) (s : State) : Result :=
  let t := s.advance 2
  .next (t.call (t.targetLitReg r1 lit))

/-- J10, `JSR $24L` (R186). -/
def execJsrLit24 (addr : Addr) (s : State) : Result := .next ((s.advance 2).call addr)

/-- J11, `JCD cond R1` (R191): the offset is the register's value as a signed number. -/
def execJcdReg (cond : Cond) (r1 : RegS) (s : State) : Result :=
  let t := s.advance 1
  .next (t.branch (t.holds cond) (t.readS r1))

/-- J12, `JCD cond 7L` (R192). -/
def execJcdLit7 (cond : Cond) (off : BitVec 7) (s : State) : Result :=
  let t := s.advance 1
  .next (t.branch (t.holds cond) off)

/-- J13, `JCD a,b... 16L` (R193): every flag of the mask must be set. -/
def execJcdMask (m : Flags) (off : Word) (s : State) : Result :=
  let t := s.advance 2
  .next (t.branch (t.allSet m) off)

/-- J14, `JCC cond R1` (R194). -/
def execJccReg (fl : Flag) (r1 : RegS) (s : State) : Result :=
  let t := s.advance 1
  .next (t.branch (!t.flag fl) (t.readS r1))

/-- J15, `JCC cond 7L` (R195). -/
def execJccLit7 (fl : Flag) (off : BitVec 7) (s : State) : Result :=
  let t := s.advance 1
  .next (t.branch (!t.flag fl) off)

/-- J16, `JCC a,b... 16L` (R196): every flag of the mask must be clear. -/
def execJccMask (m : Flags) (off : Word) (s : State) : Result :=
  let t := s.advance 2
  .next (t.branch (t.allClear m) off)

/-- J17, `JCN a,!b... 8L` (R197). -/
def execJcn (off : Byte) (ms mc : Flags) (s : State) : Result :=
  let t := s.advance 2
  .next (t.branch (t.allSet ms && t.allClear mc) off)

/-- P1, `RTS`, which is `JMP $RH:RL` (R187). -/
def execRts (s : State) : Result :=
  let t := s.advance 1
  .next (t.jump (t.targetPair .rh .rl))

/-- P5, `JRL R1`, which is `JCD AW R1` (R198). -/
def execJrlReg (r1 : RegS) (s : State) : Result :=
  let t := s.advance 1
  .next (t.branch (t.holds .aw) (t.readS r1))

/-- P6, `JRL 7L`, which is `JCD AW 7L` (R198). -/
def execJrlLit7 (off : BitVec 7) (s : State) : Result :=
  let t := s.advance 1
  .next (t.branch (t.holds .aw) off)

/-- P7, `JRL 16L`, which is JCD with the empty mask (R198). -/
def execJrlLit16 (off : Word) (s : State) : Result :=
  let t := s.advance 2
  .next (t.branch (t.allSet 0b00000#5) off)

end Sys2Proof.Machine
end

