-- ==== Sys2Proof/Machine/MemoryFamily.lean ====
section
/-!
DEFINITION. The memory family: MOV, PSH, POP (spec/40_memory_family.md, rows M1 to M16). Every meaning works in the state
advanced to `pcnext` (R13, R28), reads its operands there, and then writes.
-/

namespace Sys2Proof.Machine

/-- M1, `MOV ($)R1 > ($)[RHI:]R2` (R141). -/
def execMovRegHi (p q : Bool) (r1 r2 : RegS) (hh : RegHi) (s : State) : Result :=
  let t := s.advance 1
  move (sourceOf p (t.addrReg r1) (.reg (regS r1))) (destOf q (t.addr2 hh r2) r2) t

/-- M2, `MOV ($)[RHI:]R2 > ($)R1` (R142). -/
def execMovHiReg (p q : Bool) (r1 r2 : RegS) (hh : RegHi) (s : State) : Result :=
  let t := s.advance 1
  move (sourceOf p (t.addr2 hh r2) (.reg (regS r2))) (destOf q (t.addrReg r1) r1) t

/-- M3, `MOV ($)16L > ($)[RHI:]R2` (R143). -/
def execMovLitHi (p q : Bool) (r2 : RegS) (hh : RegHi) (lit : Word) (s : State) : Result :=
  let t := s.advance 2
  move (sourceOf p (shortAddr lit) (.lit lit)) (destOf q (t.addr2 hh r2) r2) t

/-- M4, `MOV ($)[RHI:]R2 > $16L` (R144). -/
def execMovHiLit (p : Bool) (r2 : RegS) (hh : RegHi) (lit : Word) (s : State) : Result :=
  let t := s.advance 2
  move (sourceOf p (t.addr2 hh r2) (.reg (regS r2))) (.mem (shortAddr lit)) t

/-- M5, `MOV LR > RHI:R2` (R148): the low half is written first and the high half last, ZE is of the 32-bit value. -/
def execMovLargePair (g : LargeReg) (rhi rlo : RegS) (s : State) : Result :=
  let t := s.advance 1
  let v := t.readLarge g
  .next (((t.writeReg (regS rlo) v.2).writeReg (regS rhi) v.1).setFlag .ze (isZero32 v.1 v.2))

/-- M6, `MOV RHI:R2 > LR` (R149): to PC it is a jump; ZE is of the 32-bit value, the dropped bits included. -/
def execMovPairLarge (g : LargeReg) (rhi rlo : RegS) (s : State) : Result :=
  let t := s.advance 1
  .next ((t.writeLarge g (t.readS rhi) (t.readS rlo)).setFlag .ze (isZero32 (t.readS rhi) (t.readS rlo)))

/-- M7, `MOV [$8L:]R1 > [$8L:]R2` (R147). -/
def execMovBytes (p q : Bool) (r1 r2 : RegS) (hs hd : Byte) (s : State) : Result :=
  let t := s.advance 2
  move (sourceOf p (byteAddr hs (t.readS r1)) (.reg (regS r1))) (destOf q (byteAddr hd (t.readS r2)) r2) t

/-- M8, `MOV $24L > R1` (R145). -/
def execMovLoad24 (r1 : RegS) (addr : Addr) (s : State) : Result :=
  move (.mem addr) (.reg (regS r1)) (s.advance 2)

/-- M9, `MOV R1 > $24L` (R146). -/
def execMovStore24 (r1 : RegS) (addr : Addr) (s : State) : Result :=
  move (.reg (regS r1)) (.mem addr) (s.advance 2)

/-- M10, `MOV 8L > R1` (R150): the literal zero-extended. -/
def execMovLit8 (r1 : RegS) (lit : Byte) (s : State) : Result :=
  move (.lit (lit.setWidth 16)) (.reg (regS r1)) (s.advance 1)

/-- M11, `PSH R1` (R160). -/
def execPshReg (r : Reg) (s : State) : Result :=
  let t := s.advance 1
  push (t.readReg r) t

/-- M12, `PSH R1:R2` (R162). -/
def execPshPair (rhi rlo : Reg) (s : State) : Result :=
  let t := s.advance 1
  pushPair (t.readReg rhi) (t.readReg rlo) t

/-- M13, `PSH 16L` (R163). -/
def execPshLit16 (lit : Word) (s : State) : Result := push lit (s.advance 2)

/-- M14, `PSH 8L` (R163): the literal zero-extended. -/
def execPshLit8 (lit : Byte) (s : State) : Result := push (lit.setWidth 16) (s.advance 1)

/-- M15, `POP R1` (R164, R166). -/
def execPopReg (r : Reg) (s : State) : Result := pop r (s.advance 1)

/-- M16, `POP R1,R2` (R165, R166). -/
def execPopPair (rhi rlo : Reg) (s : State) : Result := popPair rhi rlo (s.advance 1)

end Sys2Proof.Machine
end

