-- ==== Sys2Proof/Machine/OtherFamily.lean ====
section
/-!
DEFINITION. The other family: NOP, SEF, CLF, ITR, RTI (spec/43_other_family.md, rows O1 to O5). Interrupt entry and return
are the shared operations of Machine/Ops.lean.
-/

namespace Sys2Proof.Machine

/-- O1, NOP: only `pc <- pcnext` (R261). -/
def execNop (s : State) : Result := .next (s.advance 1)

/-- O2, SEF: the flags of the mask are set (R262). -/
def execSef (m : Flags) (s : State) : Result :=
  let t := s.advance 1
  .next { t with f := t.f ||| m }

/-- O3, CLF: the flags of the mask are cleared (R263). -/
def execClf (m : Flags) (s : State) : Result :=
  let t := s.advance 1
  .next { t with f := t.f &&& ~~~m }

/-- O4, ITR: with DI set it falls through, else it takes the interrupt (R266). -/
def execItr (id : Byte) (s : State) : Result :=
  let t := s.advance 1
  if t.flag .di then .next t else takeInterrupt id t

/-- O5, RTI (R267). -/
def execRti (s : State) : Result := returnFromInterrupt (s.advance 1)

end Sys2Proof.Machine
end

