-- ==== Sys2Proof/Machine/Dispatch.lean ====
section
/-!
DEFINITION. What each instruction does: one arm per constructor of Instr, one direct call of its meaning.
-/

namespace Sys2Proof.Machine

/-- The outcome of an instruction in a state. -/
def exec (i : Instr) (s : State) : Host.Outcome State Fault Refusal :=
  match i with
  -- memory family
  | .movRegHi p q r1 r2 hh => Sys2Proof.Machine.execMovRegHi p q r1 r2 hh s
  | .movHiReg p q r1 r2 hh => Sys2Proof.Machine.execMovHiReg p q r1 r2 hh s
  | .movLitHi p q r2 hh lit => Sys2Proof.Machine.execMovLitHi p q r2 hh lit s
  | .movHiLit p r2 hh lit => Sys2Proof.Machine.execMovHiLit p r2 hh lit s
  | .movLargePair g rhi rlo => Sys2Proof.Machine.execMovLargePair g rhi rlo s
  | .movPairLarge g rhi rlo => Sys2Proof.Machine.execMovPairLarge g rhi rlo s
  | .movBytes p q r1 r2 hs hd => Sys2Proof.Machine.execMovBytes p q r1 r2 hs hd s
  | .movLoad24 r1 addr => Sys2Proof.Machine.execMovLoad24 r1 addr s
  | .movStore24 r1 addr => Sys2Proof.Machine.execMovStore24 r1 addr s
  | .movLit8 r1 lit => Sys2Proof.Machine.execMovLit8 r1 lit s
  | .pshReg r => Sys2Proof.Machine.execPshReg r s
  | .pshPair rhi rlo => Sys2Proof.Machine.execPshPair rhi rlo s
  | .pshLit16 lit => Sys2Proof.Machine.execPshLit16 lit s
  | .pshLit8 lit => Sys2Proof.Machine.execPshLit8 lit s
  | .popReg r => Sys2Proof.Machine.execPopReg r s
  | .popPair rhi rlo => Sys2Proof.Machine.execPopPair rhi rlo s
  -- branch family
  | .jmpReg r1 => Sys2Proof.Machine.execJmpReg r1 s
  | .jmpPair r1 r2 => Sys2Proof.Machine.execJmpPair r1 r2 s
  | .jmpRegLit r1 lit => Sys2Proof.Machine.execJmpRegLit r1 lit s
  | .jmpLitReg r1 lit => Sys2Proof.Machine.execJmpLitReg r1 lit s
  | .jmpLit24 addr => Sys2Proof.Machine.execJmpLit24 addr s
  | .jsrReg r1 => Sys2Proof.Machine.execJsrReg r1 s
  | .jsrPair r1 r2 => Sys2Proof.Machine.execJsrPair r1 r2 s
  | .jsrRegLit r1 lit => Sys2Proof.Machine.execJsrRegLit r1 lit s
  | .jsrLitReg r1 lit => Sys2Proof.Machine.execJsrLitReg r1 lit s
  | .jsrLit24 addr => Sys2Proof.Machine.execJsrLit24 addr s
  | .jcdReg cond r1 => Sys2Proof.Machine.execJcdReg cond r1 s
  | .jcdLit7 cond off => Sys2Proof.Machine.execJcdLit7 cond off s
  | .jcdMask m off => Sys2Proof.Machine.execJcdMask m off s
  | .jccReg fl r1 => Sys2Proof.Machine.execJccReg fl r1 s
  | .jccLit7 fl off => Sys2Proof.Machine.execJccLit7 fl off s
  | .jccMask m off => Sys2Proof.Machine.execJccMask m off s
  | .jcn off ms mc => Sys2Proof.Machine.execJcn off ms mc s
  -- arithmetic family
  | .addRegs r1 r2 r3 => Sys2Proof.Machine.execAddRegs r1 r2 r3 s
  | .adcRegs r1 r2 r3 => Sys2Proof.Machine.execAdcRegs r1 r2 r3 s
  | .subRegs r1 r2 r3 => Sys2Proof.Machine.execSubRegs r1 r2 r3 s
  | .sbcRegs r1 r2 r3 => Sys2Proof.Machine.execSbcRegs r1 r2 r3 s
  | .andRegs r1 r2 r3 => Sys2Proof.Machine.execAndRegs r1 r2 r3 s
  | .iorRegs r1 r2 r3 => Sys2Proof.Machine.execIorRegs r1 r2 r3 s
  | .xorRegs r1 r2 r3 => Sys2Proof.Machine.execXorRegs r1 r2 r3 s
  | .addLit r1 lit r3 => Sys2Proof.Machine.execAddLit r1 lit r3 s
  | .adcLit r1 lit r3 => Sys2Proof.Machine.execAdcLit r1 lit r3 s
  | .subLit r1 lit r3 => Sys2Proof.Machine.execSubLit r1 lit r3 s
  | .subLitRev r1 lit r3 => Sys2Proof.Machine.execSubLitRev r1 lit r3 s
  | .sbcLit r1 lit r3 => Sys2Proof.Machine.execSbcLit r1 lit r3 s
  | .sbcLitRev r1 lit r3 => Sys2Proof.Machine.execSbcLitRev r1 lit r3 s
  | .andLit r1 lit r3 => Sys2Proof.Machine.execAndLit r1 lit r3 s
  | .iorLit r1 lit r3 => Sys2Proof.Machine.execIorLit r1 lit r3 s
  | .xorLit r1 lit r3 => Sys2Proof.Machine.execXorLit r1 lit r3 s
  | .lsl r1 r3 => Sys2Proof.Machine.execLsl r1 r3 s
  | .rol r1 r3 => Sys2Proof.Machine.execRol r1 r3 s
  | .lsr r1 r3 => Sys2Proof.Machine.execLsr r1 r3 s
  | .ror r1 r3 => Sys2Proof.Machine.execRor r1 r3 s
  -- other family
  | .nop => Sys2Proof.Machine.execNop s
  | .sef m => Sys2Proof.Machine.execSef m s
  | .clf m => Sys2Proof.Machine.execClf m s
  | .itr id => Sys2Proof.Machine.execItr id s
  | .rti => Sys2Proof.Machine.execRti s
  -- second names
  | .rts => Sys2Proof.Machine.execRts s
  | .cmpRegs r1 r2 => Sys2Proof.Machine.execCmpRegs r1 r2 s
  | .cmpLit r1 lit => Sys2Proof.Machine.execCmpLit r1 lit s
  | .cmpLitRev r1 lit => Sys2Proof.Machine.execCmpLitRev r1 lit s
  | .jrlReg r1 => Sys2Proof.Machine.execJrlReg r1 s
  | .jrlLit7 off => Sys2Proof.Machine.execJrlLit7 off s
  | .jrlLit16 off => Sys2Proof.Machine.execJrlLit16 off s

end Sys2Proof.Machine
end

