-- ==== Sys2Proof/Machine/Load.lean ====
section
/-!
DEFINITION. Loading (spec/70_reset_and_hazards.md R313): the host places the program image in memory as words and starts the
processor at RESET_PC. The spec describes no image format, so an image here is words and where they go (log entry 11).
-/

namespace Sys2Proof.Machine

/-- A program image: blocks of words, each with the address of its first word (R313). -/
abbrev Image := List (Addr × List Word)

/-- Memory with a block of words at consecutive addresses, modulo 2^24 (R62, R313). -/
def Memory.placeWords (m : Memory) (addr : Addr) : List Word → Memory
  | [] => m
  | w :: ws => (m.putWord addr w).placeWords (addr + 1) ws

/-- `s` with a block of words placed in memory, and nothing else changed (R313). -/
def State.placeWords (s : State) (addr : Addr) (ws : List Word) : State := { s with mem := s.mem.placeWords addr ws }

/-- Memory with an image placed in it, a later block over an earlier one where they meet (R313). -/
def Memory.load (m : Memory) (image : Image) : Memory := image.foldl (fun m block => m.placeWords block.1 block.2) m

/-- `s` with an image placed in memory, and nothing else changed (R313). -/
def State.load (s : State) (image : Image) : State := { s with mem := s.mem.load image }

/-- The machine as the host starts it: the state after reset, where `pc` is RESET_PC, with the image in memory (R313). -/
def State.boot (image : Image) : State := State.reset.load image

/-- The words that are an instruction's: the second word only where the first asks for one (R90). -/
def instrWords (w1 w2 : Word) : List Word := if isLong w1 then [w1, w2] else [w1]

end Sys2Proof.Machine
end

