-- ==== Sys2Proof/Machine/Step.lean ====
section
/-!
DEFINITION. One step of the machine: fetch at `pc`, decode, execute (spec/00_scope.md R13, spec/60_exceptions.md R288).
-/

namespace Sys2Proof.Machine

/-- One step. A fetch fault comes first, then an encoding that is no instruction, then the instruction's own faults (R288). -/
def step (s : State) : Host.Outcome State Fault Refusal :=
  match fetch s with
  | .error e => .fault e
  | .ok (w1, w2) =>
    match decode w1 w2 with
    | .error _ => .fault .illegalInstruction
    | .ok i => exec i s

/-- `s` with the instruction of a table word placed where the next step fetches: its first word at `pc`, and its second word, if
it has one, at `pc + 1`. It is the load of R313 for a block of one instruction (log entry 11). -/
def State.withFetchWord (s : State) (nbits w : Nat) : State :=
  s.placeWords s.pc (instrWords (tableWords nbits w).1 (tableWords nbits w).2)

end Sys2Proof.Machine
end

