-- ==== Sys2Proof/Machine/Assembly.lean ====
section
/-!
DEFINITION. The assembler text of spec/30_encoding.md R125 to R128, which 00_scope.md R4 puts in scope: a line of text is read
into the instructions it may be encoded as, the preferred one first. R127 leaves the choice between a short and a long row to
the assembler ("may use"), so a line has a list of encodings and not one. Text is a list of characters.
-/

namespace Sys2Proof.Machine

/-! ### Tokens -/

/-- A token of a line. A number keeps whether it was written with `0x`. -/
inductive AsmToken where
  | name (letters : List Char)
  | number (value : Nat) (hex : Bool)
  | dollar | colon | comma | into | bang | minus
  deriving DecidableEq, Repr

/-- Why a line is no instruction. -/
inductive AsmError where
  /-- The line is not of the form R125 shows. -/
  | badText
  /-- The form is right but no row of the encoding tables has these operands (R126, R127, R24). -/
  | noRow
  /-- A `$` literal without `0x`, in a mnemonic other than JMP and JSR, whose decimal and hexadecimal readings differ: R125 does not
  say which is meant (log entry 26). -/
  | radixNotStated
  deriving DecidableEq, Repr

/-- The value of a hexadecimal digit. R125 shows capital digits only, and the spec has no rule of case
(spec/91_not_in_source.md N19): that `a` to `f` are read too is a DESIGN CHOICE, log entry 26. -/
def asmDigit (ch : Char) : Option Nat :=
  let n := ch.toNat
  if 48 ≤ n ∧ n ≤ 57 then some (n - 48)
  else if 65 ≤ n ∧ n ≤ 70 then some (n - 55)
  else if 97 ≤ n ∧ n ≤ 102 then some (n - 87)
  else none

/-- A run of digits in a base, most significant first. Leading zeros are read: DESIGN CHOICE, log entry 26. -/
def asmNumber (base : Nat) : List Char → Nat → Option Nat
  | [], acc => some acc
  | ch :: rest, acc =>
    match asmDigit ch with
    | none => none
    | some d => if d < base then asmNumber base rest (acc * base + d) else none

/-- Whether a character belongs to a name or a number. -/
def asmInRun (ch : Char) : Bool :=
  let n := ch.toNat
  (48 ≤ n && n ≤ 57) || (65 ≤ n && n ≤ 90) || (97 ≤ n && n ≤ 122)

/-- The token of a finished run of letters and digits; none for an empty run. Names are in capitals (R125). -/
def asmRun : List Char → Option (List AsmToken)
  | [] => some []
  | '0' :: 'x' :: ds =>
    match ds with
    | [] => none
    | _ => (asmNumber 16 ds 0).map fun n => [.number n true]
  | ch :: rest =>
    if 48 ≤ ch.toNat ∧ ch.toNat ≤ 57 then (asmNumber 10 (ch :: rest) 0).map fun n => [.number n false]
    else if (ch :: rest).all (fun x => 65 ≤ x.toNat && x.toNat ≤ 90) then some [.name (ch :: rest)]
    else none

/-- The token of a mark; none for a character that R125 does not show. A space is no token: it only ends a run of letters and
digits, so spaces may be left out or added between any two tokens and at either end of a line. The spec has no rule of spaces
(spec/91_not_in_source.md N19): DESIGN CHOICE, log entry 26. -/
def asmMark (ch : Char) : Option (List AsmToken) :=
  if ch = ' ' then some []
  else if ch = '$' then some [.dollar]
  else if ch = ':' then some [.colon]
  else if ch = ',' then some [.comma]
  else if ch = '>' then some [.into]
  else if ch = '!' then some [.bang]
  else if ch = '-' then some [.minus]
  else none

/-- The tokens of a line; `run` is the unfinished run of letters and digits. Where spaces may stand is a DESIGN CHOICE, log
entry 26 (`asmMark`). -/
def asmTokens : List Char → List Char → Option (List AsmToken)
  | [], run => asmRun run
  | ch :: rest, run =>
    if asmInRun ch then asmTokens rest (run ++ [ch])
    else
      match asmRun run, asmMark ch, asmTokens rest [] with
      | some before, some mark, some after => some (before ++ mark ++ after)
      | _, _, _ => none

/-! ### Operands -/

/-- What an operand is made of: a register, a large register or a literal (R125). -/
inductive AsmAtom where
  | reg (r : Reg)
  | large (g : LargeReg)
  | num (value : Int)
  deriving DecidableEq, Repr

/-- An operand: `$` or not, the part before `:` if there is one, and the other part (R125). -/
structure AsmOperand where
  deref : Bool
  hi : Option AsmAtom
  lo : AsmAtom
  deriving DecidableEq, Repr

/-- The names of the registers (R21). -/
def asmRegs : List (List Char × AsmAtom) :=
  [(['A'], .reg .a), (['B'], .reg .b), (['C'], .reg .c), (['S', 'P'], .reg .sp), (['R', 'L'], .reg .rl),
   (['R', 'H'], .reg .rh), (['I'], .reg .i), (['Z'], .reg .z), (['A', 'A'], .reg .aa), (['A', 'B'], .reg .ab),
   (['A', 'C'], .reg .ac), (['P', 'L'], .reg .pl), (['P', 'H'], .reg .ph), (['F'], .reg .f),
   (['R', 'T'], .large .rt), (['P', 'C'], .large .pc)]

/-- The names of the conditions (R30, R190). -/
def asmConds : List (List Char × Cond) :=
  [(['C', 'A'], .flag .ca), (['Z', 'E'], .flag .ze), (['O', 'V'], .flag .ov), (['N', 'E'], .flag .ne),
   (['D', 'I'], .flag .di), (['A', 'W'], .aw)]

/-- An atom at the head of the tokens. Where `shown` is asked for, a literal needs `0x`, or one reading in both radices, and has no
sign; elsewhere `-` may stand before any number (DESIGN CHOICE, log entry 26). -/
def asmAtom (shown : Bool) : List AsmToken → Except AsmError (AsmAtom × List AsmToken)
  | .name letters :: rest =>
    match asmRegs.lookup letters with
    | some x => .ok (x, rest)
    | none => .error .badText
  | .number n hex :: rest => if shown && !hex && 9 < n then .error .radixNotStated else .ok (.num n, rest)
  | .minus :: .number n _ :: rest => if shown then .error .badText else .ok (.num (-(n : Int)), rest)
  | _ => .error .badText

/-- An operand at the head of the tokens. Behind a `$` the radix of a literal must be shown (R125, log entry 26), but not where the
`$` is `implicit`, as in JMP and JSR: there it may be left out "with the same meaning", so a literal behind it is what it is
without it. -/
def asmOperand (implicit : Bool) (ts : List AsmToken) : Except AsmError (AsmOperand × List AsmToken) :=
  let (deref, ts) := match ts with
    | .dollar :: rest => (true, rest)
    | _ => (false, ts)
  match asmAtom (deref && !implicit) ts with
  | .error e => .error e
  | .ok (x, .colon :: rest) =>
    match asmAtom (deref && !implicit) rest with
    | .error e => .error e
    | .ok (y, rest) => .ok (⟨deref, some x, y⟩, rest)
  | .ok (x, rest) => .ok (⟨deref, none, x⟩, rest)

/-- The list of conditions at the head of the tokens, each with whether it is prefixed by `!` (R125). They may stand in any order
and more than once: DESIGN CHOICE, log entry 26. -/
def asmFlags : List AsmToken → Option (List (Bool × Cond) × List AsmToken)
  | .bang :: .name letters :: .comma :: rest =>
    match asmConds.lookup letters, asmFlags rest with
    | some x, some (xs, after) => some ((true, x) :: xs, after)
    | _, _ => none
  | .bang :: .name letters :: rest => (asmConds.lookup letters).map fun x => ([(true, x)], rest)
  | .name letters :: .comma :: rest =>
    match asmConds.lookup letters, asmFlags rest with
    | some x, some (xs, after) => some ((false, x) :: xs, after)
    | _, _ => none
  | .name letters :: rest => (asmConds.lookup letters).map fun x => ([(false, x)], rest)
  | _ => none

/-! ### Which field an operand fits -/

/-- The bankS register of a name, if it has one (R24). -/
def asmRegS : Reg → Option RegS
  | .a => some .a
  | .b => some .b
  | .c => some .c
  | .sp => some .sp
  | .rl => some .rl
  | .rh => some .rh
  | .i => some .i
  | .z => some .z
  | .aa | .ab | .ac | .pl | .ph | .f => none

/-- The bankA register of a name, if it has one (R24). -/
def asmRegA : Reg → Option RegA
  | .a => some .a
  | .b => some .b
  | .c => some .c
  | .sp => some .sp
  | .aa => some .aa
  | .ab => some .ab
  | .ac => some .ac
  | .z => some .z
  | .rl | .rh | .i | .pl | .ph | .f => none

/-- The RHI register of a name, if it has one (R23). -/
def asmRegHi : Reg → Option RegHi
  | .a => some .a
  | .b => some .b
  | .c => some .c
  | .z => some .z
  | .sp | .rl | .rh | .i | .aa | .ab | .ac | .pl | .ph | .f => none

/-- A literal that fits `n` bits unsigned (R95). -/
def asmLit (n : Nat) : Int → Option (BitVec n)
  | .ofNat v => if v < 2 ^ n then some (BitVec.ofNat n v) else none
  | .negSucc _ => none

/-- An offset that fits `n` bits signed (R95): -64 to 63, -128 to 127 or -32768 to 32767. -/
def asmOff (n : Nat) (v : Int) : Option (BitVec n) :=
  if -(2 ^ (n - 1)) ≤ v ∧ v < 2 ^ (n - 1) then some (BitVec.ofInt n v) else none

/-- An operand that is one bankS register, with or without `$`. -/
def asmOneS (x : AsmOperand) : Option RegS :=
  match x.hi, x.lo with
  | none, .reg r => asmRegS r
  | _, _ => none

/-- An operand of the `[RHI:]R2` slot: without a high register RHI is Z (R127). -/
def asmSlot (x : AsmOperand) : Option (RegHi × RegS) :=
  match x.hi, x.lo with
  | none, .reg r => (asmRegS r).map fun r2 => (.z, r2)
  | some (.reg h), .reg r =>
    match x.deref, asmRegHi h, asmRegS r with
    | true, some hh, some r2 => some (hh, r2)
    | _, _, _ => none
  | _, _ => none

/-- A pair of bankS registers, without `$`. -/
def asmPairS (x : AsmOperand) : Option (RegS × RegS) :=
  match x.deref, x.hi, x.lo with
  | false, some (.reg h), .reg l =>
    match asmRegS h, asmRegS l with
    | some rhi, some rlo => some (rhi, rlo)
    | _, _ => none
  | _, _, _ => none

/-- A lone literal of `n` bits. -/
def asmOneLit (n : Nat) (x : AsmOperand) : Option (BitVec n) :=
  match x.hi, x.lo with
  | none, .num v => asmLit n v
  | _, _ => none

/-- A lone bankA register. -/
def asmOneA (x : AsmOperand) : Option RegA :=
  match x.deref, x.hi, x.lo with
  | false, none, .reg r => asmRegA r
  | _, _, _ => none

/-- A lone offset of `n` bits. -/
def asmOneOff (n : Nat) (x : AsmOperand) : Option (BitVec n) :=
  match x.deref, x.hi, x.lo with
  | false, none, .num v => asmOff n v
  | _, _, _ => none

/-- An operand of row M7, `[$8L:]R` (R147): the `$` bit, the high byte and the register. Without `$` the byte, which is then
ignored, is 0 (DESIGN CHOICE, log entry 26). -/
def asmByteSlot (x : AsmOperand) : Option (Bool × Byte × RegS) :=
  match x.deref, x.hi, x.lo with
  | false, none, .reg r => (asmRegS r).map fun r => (false, 0#8, r)
  | true, some (.num v), .reg r =>
    match asmLit 8 v, asmRegS r with
    | some h, some r => some (true, h, r)
    | _, _ => none
  | _, _, _ => none

/-- The mask of a list of flags; none where AW is among them (R113, R193). -/
def asmMask : List Cond → Option Flags
  | [] => some 0#5
  | .aw :: _ => none
  | .flag fl :: rest => (asmMask rest).map fun m => m ||| (1#5 <<< fl.code.toNat)

/-! ### Rows -/

/-- The list of a choice that may fail. -/
def oneRow (x : Option Instr) : List Instr := x.toList

/-- Each row of MOV that has these operands (R127), shorter rows first. -/
def movRows (x d : AsmOperand) : List Instr :=
  -- M10
  oneRow (if x.deref || d.deref then none else
    match asmOneLit 8 x, asmOneS d with | some lit, some r => some (.movLit8 r lit) | _, _ => none)
  -- M1, M2
  ++ oneRow (match asmOneS x, asmSlot d with | some r1, some (hh, r2) => some (.movRegHi x.deref d.deref r1 r2 hh) | _, _ => none)
  ++ oneRow (match asmSlot x, asmOneS d with | some (hh, r2), some r1 => some (.movHiReg x.deref d.deref r1 r2 hh) | _, _ => none)
  -- M5, M6
  ++ oneRow (match x, asmPairS d with | ⟨false, none, .large g⟩, some (rhi, rlo) => some (.movLargePair g rhi rlo) | _, _ => none)
  ++ oneRow (match asmPairS x, d with | some (rhi, rlo), ⟨false, none, .large g⟩ => some (.movPairLarge g rhi rlo) | _, _ => none)
  -- M3, M4
  ++ oneRow (match asmOneLit 16 x, asmSlot d with | some lit, some (hh, r2) => some (.movLitHi x.deref d.deref r2 hh lit) | _, _ => none)
  ++ oneRow (match asmSlot x, d.deref, asmOneLit 16 d with | some (hh, r2), true, some lit => some (.movHiLit x.deref r2 hh lit) | _, _, _ => none)
  -- M7, which has a literal high byte on one side at least
  ++ oneRow (match asmByteSlot x, asmByteSlot d with
    | some (p, hs, r1), some (q, hd, r2) => if p || q then some (.movBytes p q r1 r2 hs hd) else none
    | _, _ => none)
  -- M8, M9
  ++ oneRow (match x.deref, asmOneLit 24 x, d.deref, asmOneS d with | true, some y, false, some r => some (.movLoad24 r y) | _, _, _, _ => none)
  ++ oneRow (match x.deref, asmOneS x, d.deref, asmOneLit 24 d with | false, some r, true, some y => some (.movStore24 r y) | _, _, _, _ => none)

/-- The two registers of a PSH or POP pair, or of a large register (R125, R161). -/
def asmStackPair : List AsmOperand → Option (Reg × Reg)
  | [⟨false, some (.reg h), .reg l⟩] => some (h, l)
  | [⟨false, none, .reg h⟩, ⟨false, none, .reg l⟩] => some (h, l)
  | [⟨false, none, .large .rt⟩] => some (.rh, .rl)
  | [⟨false, none, .large .pc⟩] => some (.ph, .pl)
  | _ => none

/-- Each row of PSH that has these operands. -/
def pshRows (xs : List AsmOperand) : List Instr :=
  oneRow (match xs with | [⟨false, none, .reg r⟩] => some (.pshReg r) | _ => none)
  ++ oneRow ((asmStackPair xs).map fun y => .pshPair y.1 y.2)
  ++ oneRow (match xs with | [⟨false, none, .num v⟩] => (asmLit 8 v).map .pshLit8 | _ => none)
  ++ oneRow (match xs with | [⟨false, none, .num v⟩] => (asmLit 16 v).map .pshLit16 | _ => none)

/-- Each row of POP that has these operands. -/
def popRows (xs : List AsmOperand) : List Instr :=
  oneRow (match xs with | [⟨false, none, .reg r⟩] => some (.popReg r) | _ => none)
  ++ oneRow ((asmStackPair xs).map fun y => .popPair y.1 y.2)

/-- The five address forms of JMP and JSR; the `$` may be left out and means nothing more (R125). -/
def jumpRows (x : AsmOperand) (one : RegS → Instr) (two : RegS → RegS → Instr) (regLit litReg : RegS → Word → Instr)
    (lit : Addr → Instr) : List Instr :=
  match x.hi, x.lo with
  | none, .reg r => oneRow ((asmRegS r).map one)
  | some (.reg h), .reg l => oneRow (match asmRegS h, asmRegS l with | some r1, some r2 => some (two r1 r2) | _, _ => none)
  | some (.reg h), .num v => oneRow (match asmRegS h, asmLit 16 v with | some r1, some y => some (regLit r1 y) | _, _ => none)
  | some (.num v), .reg l => oneRow (match asmLit 16 v, asmRegS l with | some y, some r1 => some (litReg r1 y) | _, _ => none)
  | none, .num v => oneRow ((asmLit 24 v).map lit)
  | _, _ => []

/-- Each row of JCD: the register and 7L forms take one condition, the 16L form any number of flags (R127). AW with a 16-bit
offset is the empty mask (R128). -/
def jcdRows (conds : List Cond) (x : AsmOperand) : List Instr :=
  oneRow (match conds, x.deref, asmOneS x with | [cond], false, some r => some (.jcdReg cond r) | _, _, _ => none)
  ++ oneRow (match conds, asmOneOff 7 x with | [cond], some off => some (.jcdLit7 cond off) | _, _ => none)
  ++ oneRow (match if conds = [.aw] then some 0#5 else asmMask conds, asmOneOff 16 x with
    | some m, some off => some (.jcdMask m off)
    | _, _ => none)

/-- Each row of JCC; AW is not valid (R106). -/
def jccRows (conds : List Cond) (x : AsmOperand) : List Instr :=
  oneRow (match conds, x.deref, asmOneS x with | [.flag fl], false, some r => some (.jccReg fl r) | _, _, _ => none)
  ++ oneRow (match conds, asmOneOff 7 x with | [.flag fl], some off => some (.jccLit7 fl off) | _, _ => none)
  ++ oneRow (match asmMask conds, asmOneOff 16 x with | some m, some off => some (.jccMask m off) | _, _ => none)

/-- The row of JCN: unmarked flags must be set, flags behind `!` clear (R197). -/
def jcnRows (flags : List (Bool × Cond)) (x : AsmOperand) : List Instr :=
  oneRow (match asmOneOff 8 x, asmMask ((flags.filter fun y => !y.1).map (·.2)), asmMask ((flags.filter (·.1)).map (·.2)) with
    | some off, some ms, some mc => some (.jcn off ms mc)
    | _, _, _ => none)

/-- The rows of a two-operand arithmetic instruction; `rev` is the literal-first row, where there is one (R220). -/
def arithRows (x y d : AsmOperand) (regs : RegA → RegA → RegA → Instr) (lit : RegA → Word → RegA → Instr)
    (rev : Option (RegA → Word → RegA → Instr)) : List Instr :=
  oneRow (match asmOneA x, asmOneA y, asmOneA d with | some r1, some r2, some r3 => some (regs r1 r2 r3) | _, _, _ => none)
  ++ oneRow (match asmOneA x, y.deref, asmOneLit 16 y, asmOneA d with | some r1, false, some w, some r3 => some (lit r1 w r3) | _, _, _, _ => none)
  ++ oneRow (match rev, x.deref, asmOneLit 16 x, asmOneA y, asmOneA d with
    | some mk, false, some w, some r1, some r3 => some (mk r1 w r3)
    | _, _, _, _, _ => none)

/-- The row of a shift or rotate. -/
def shiftRows (x d : AsmOperand) (mk : RegA → RegA → Instr) : List Instr :=
  oneRow (match asmOneA x, asmOneA d with | some r1, some r3 => some (mk r1 r3) | _, _ => none)

/-- The name under which an instruction's words are read (R128, log entry 9). -/
def secondName : Instr → Instr
  | .jmpPair .rh .rl => .rts
  | .sbcRegs r1 r2 .z => .cmpRegs r1 r2
  | .sbcLit r1 lit .z => .cmpLit r1 lit
  | .sbcLitRev r1 lit .z => .cmpLitRev r1 lit
  | .jcdReg .aw r1 => .jrlReg r1
  | .jcdLit7 .aw off => .jrlLit7 off
  | .jcdMask m off => if m = 0#5 then .jrlLit16 off else .jcdMask m off
  | i => i

/-- The sources and the destination of a line: at most two sources, and one destination behind `>` (R125). -/
def asmOperands (implicit : Bool) (ts : List AsmToken) : Except AsmError (List AsmOperand × Option AsmOperand) :=
  let finish (xs : List AsmOperand) (rest : List AsmToken) : Except AsmError (List AsmOperand × Option AsmOperand) :=
    match rest with
    | [] => .ok (xs, none)
    | .into :: rest =>
      match asmOperand implicit rest with
      | .ok (d, []) => .ok (xs, some d)
      | .ok _ => .error .badText
      | .error e => .error e
    | _ => .error .badText
  match ts with
  | [] => .ok ([], none)
  | _ =>
    match asmOperand implicit ts with
    | .error e => .error e
    | .ok (x, .comma :: rest) =>
      match asmOperand implicit rest with
      | .error e => .error e
      | .ok (y, rest) => finish [x, y] rest
    | .ok (x, rest) => finish [x] rest

/-- The rows of the mnemonics whose operands are registers, literals and addresses. -/
def operandRows (mnemonic : List Char) (xs : List AsmOperand) (d : Option AsmOperand) : List Instr :=
  match xs, d with
  | [], none =>
    if mnemonic = ['N', 'O', 'P'] then [.nop]
    else if mnemonic = ['R', 'T', 'I'] then [.rti]
    else if mnemonic = ['R', 'T', 'S'] then [.rts]
    else []
  | [x], none =>
    if mnemonic = ['P', 'S', 'H'] then pshRows xs
    else if mnemonic = ['P', 'O', 'P'] then popRows xs
    else if mnemonic = ['J', 'M', 'P'] then jumpRows x .jmpReg .jmpPair .jmpRegLit .jmpLitReg .jmpLit24
    else if mnemonic = ['J', 'S', 'R'] then jumpRows x .jsrReg .jsrPair .jsrRegLit .jsrLitReg .jsrLit24
    else if mnemonic = ['J', 'R', 'L'] then jcdRows [.aw] x
    else if mnemonic = ['I', 'T', 'R'] then (if x.deref then [] else oneRow ((asmOneLit 8 x).map .itr))
    else []
  | [x, y], none =>
    if mnemonic = ['P', 'S', 'H'] then pshRows xs
    else if mnemonic = ['P', 'O', 'P'] then popRows xs
    else if mnemonic = ['C', 'M', 'P'] then
      arithRows x y ⟨false, none, .reg .z⟩ .sbcRegs .sbcLit (some .sbcLitRev)
    else []
  | [x], some d =>
    if mnemonic = ['M', 'O', 'V'] then movRows x d
    else if mnemonic = ['L', 'S', 'L'] then shiftRows x d .lsl
    else if mnemonic = ['R', 'O', 'L'] then shiftRows x d .rol
    else if mnemonic = ['L', 'S', 'R'] then shiftRows x d .lsr
    else if mnemonic = ['R', 'O', 'R'] then shiftRows x d .ror
    else []
  | [x, y], some d =>
    if mnemonic = ['A', 'D', 'D'] then arithRows x y d .addRegs .addLit none
    else if mnemonic = ['A', 'D', 'C'] then arithRows x y d .adcRegs .adcLit none
    else if mnemonic = ['S', 'U', 'B'] then arithRows x y d .subRegs .subLit (some .subLitRev)
    else if mnemonic = ['S', 'B', 'C'] then arithRows x y d .sbcRegs .sbcLit (some .sbcLitRev)
    else if mnemonic = ['A', 'N', 'D'] then arithRows x y d .andRegs .andLit none
    else if mnemonic = ['I', 'O', 'R'] then arithRows x y d .iorRegs .iorLit none
    else if mnemonic = ['X', 'O', 'R'] then arithRows x y d .xorRegs .xorLit none
    else []
  | _, _ => []

/-- The rows of the mnemonics that begin with a list of flags: SEF and CLF end there, a conditional jump has its offset
behind it (R125). -/
def flagRows (mnemonic : List Char) (flags : List (Bool × Cond)) (x : Option AsmOperand) : List Instr :=
  let conds := flags.map (·.2)
  match x with
  | none =>
    if flags.any (·.1) then []
    else if mnemonic = ['S', 'E', 'F'] then oneRow ((asmMask conds).map .sef)
    else if mnemonic = ['C', 'L', 'F'] then oneRow ((asmMask conds).map .clf)
    else []
  | some x =>
    if mnemonic = ['J', 'C', 'N'] then jcnRows flags x
    else if flags.any (·.1) then []
    else if mnemonic = ['J', 'C', 'D'] then jcdRows conds x
    else if mnemonic = ['J', 'C', 'C'] then jccRows conds x
    else []

/-- The mnemonics whose operands begin with flags. -/
def flagMnemonics : List (List Char) :=
  [['S', 'E', 'F'], ['C', 'L', 'F'], ['J', 'C', 'D'], ['J', 'C', 'C'], ['J', 'C', 'N']]

/-- The mnemonics whose operand is an address with or without `$`: its use is implicit (R125). -/
def implicitDollar : List (List Char) := [['J', 'M', 'P'], ['J', 'S', 'R']]

/-- The rows of a mnemonic and the tokens behind it. -/
def lineRows (mnemonic : List Char) (ts : List AsmToken) : Except AsmError (List Instr) :=
  if flagMnemonics.contains mnemonic then
    match asmFlags ts with
    | none => .error .badText
    | some (flags, []) => .ok (flagRows mnemonic flags none)
    | some (flags, rest) =>
      match asmOperand false rest with
      | .ok (x, []) => .ok (flagRows mnemonic flags (some x))
      | .ok _ => .error .badText
      | .error e => .error e
  else
    match asmOperands (implicitDollar.contains mnemonic) ts with
    | .error e => .error e
    | .ok (xs, d) => .ok (operandRows mnemonic xs d)

/-- Rows under the names they are read by; no row is an error. -/
def namedRows : Except AsmError (List Instr) → Except AsmError (List Instr)
  | .error e => .error e
  | .ok [] => .error .noRow
  | .ok is => .ok (is.map secondName)

/-- The instructions the tokens of a line can be encoded as, the preferred one first. -/
def assembleTokens : List AsmToken → Except AsmError (List Instr)
  | .name mnemonic :: ts => namedRows (lineRows mnemonic ts)
  | _ => .error .badText

/-- The instructions a line of assembler text can be encoded as, the preferred one first (R125 to R128). -/
def assemble (line : List Char) : Except AsmError (List Instr) :=
  match asmTokens line [] with
  | none => .error .badText
  | some ts => assembleTokens ts

end Sys2Proof.Machine
end

