-- ==== Sys2Proof/Machine/AssemblyText.lean ====
section
/-!
DEFINITION. The text of an instruction: the line in the form of spec/30_encoding.md R125 that says it. The spec lets most
instructions be written in several ways; the line here is one of them (DESIGN CHOICE, log entry 26): literals in hexadecimal,
offsets in decimal, `$` before every address, no high register where RHI is Z, flags in the order of their bits.
-/

namespace Sys2Proof.Machine

/-! ### Names and numbers -/

/-- The name of a register (R21). -/
def regName : Reg → List Char
  | .a => ['A']
  | .b => ['B']
  | .c => ['C']
  | .sp => ['S', 'P']
  | .rl => ['R', 'L']
  | .rh => ['R', 'H']
  | .i => ['I']
  | .z => ['Z']
  | .aa => ['A', 'A']
  | .ab => ['A', 'B']
  | .ac => ['A', 'C']
  | .pl => ['P', 'L']
  | .ph => ['P', 'H']
  | .f => ['F']

/-- The name of a large register (R27). -/
def largeName : LargeReg → List Char
  | .rt => ['R', 'T']
  | .pc => ['P', 'C']

/-- The name of a flag (R30). -/
def flagName : Flag → List Char
  | .ca => ['C', 'A']
  | .ze => ['Z', 'E']
  | .ov => ['O', 'V']
  | .ne => ['N', 'E']
  | .di => ['D', 'I']

/-- The name of a JCD condition (R106). -/
def condName : Cond → List Char
  | .flag fl => flagName fl
  | .aw => ['A', 'W']

/-- A digit as R125 writes it: capitals above 9. -/
def digitChar (d : Nat) : Char := if d < 10 then Char.ofNat (48 + d) else Char.ofNat (55 + d)

/-- The digits of a number without leading zeros, at most `fuel` of them. -/
def numeral (base : Nat) : Nat → Nat → List Char
  | 0, _ => []
  | fuel + 1, n => if n < base then [digitChar n] else numeral base fuel (n / base) ++ [digitChar (n % base)]

/-! ### Operands -/

/-- A register operand, with its `$` if it has one. -/
def regTokens (deref : Bool) (r : Reg) : List AsmToken :=
  if deref then [.dollar, .name (regName r)] else [.name (regName r)]

/-- A pair `HIGH:LOW`. -/
def pairTokens (h l : Reg) : List AsmToken := [.name (regName h), .colon, .name (regName l)]

/-- The operand of a `[RHI:]R2` slot: the high register stands there behind a `$` only, and not where it is Z (R127). -/
def slotTokens (deref : Bool) (hh : RegHi) (r2 : RegS) : List AsmToken :=
  if deref then
    if hh = .z then regTokens true (regS r2) else .dollar :: pairTokens (regHi hh) (regS r2)
  else regTokens false (regS r2)

/-- A literal of any width, in hexadecimal. -/
def litToken {n : Nat} (lit : BitVec n) : AsmToken := .number lit.toNat true

/-- A literal with its `$` if it has one. -/
def litTokens (deref : Bool) {n : Nat} (lit : BitVec n) : List AsmToken :=
  if deref then [.dollar, litToken lit] else [litToken lit]

/-- A signed offset, in decimal. -/
def offTokens {n : Nat} (off : BitVec n) : List AsmToken :=
  if off.toInt < 0 then [.minus, .number off.toInt.natAbs false] else [.number off.toInt.natAbs false]

/-- An operand of row M7: its high byte stands there behind a `$` only. -/
def byteTokens (deref : Bool) (h : Byte) (r : RegS) : List AsmToken :=
  if deref then [.dollar, litToken h, .colon, .name (regName (regS r))] else regTokens false (regS r)

/-- The flags of a mask, in the order of their bits (R113). -/
def flagsOf (m : Flags) : List Flag := [Flag.ca, .ze, .ov, .ne, .di].filter fun fl => m.getLsbD fl.code.toNat

/-- A flag, behind `!` if it is tested for clear (R125). -/
def testTokens (x : Bool × Flag) : List AsmToken :=
  if x.1 then [.bang, .name (flagName x.2)] else [.name (flagName x.2)]

/-- A list of flags, separated by `,`. -/
def testsTokens : List (Bool × Flag) → List AsmToken
  | [] => []
  | [x] => testTokens x
  | x :: y :: rest => testTokens x ++ .comma :: testsTokens (y :: rest)

/-- The flags of a mask as a list, none behind `!`. -/
def maskTokens (m : Flags) : List AsmToken := testsTokens ((flagsOf m).map fun fl => (false, fl))

/-! ### Instructions -/

/-- Whether the text R125 describes can say the instruction. It cannot name a high register or a high byte of an operand
without `$`, which the instruction ignores (only RHI = Z and a zero byte, what is assembled where none is named, count as
said), nor row M7 without any `$`, nor an empty list of flags. DESIGN CHOICE, log entry 26. -/
def hasText : Instr → Bool
  | .movRegHi _ q _ _ hh => q || hh == .z
  | .movHiReg p _ _ _ hh => p || hh == .z
  | .movLitHi _ q _ hh _ => q || hh == .z
  | .movHiLit p _ hh _ => p || hh == .z
  | .movBytes p q _ _ hs hd => (p || q) && (p || hs == 0#8) && (q || hd == 0#8)
  | .jccMask m _ | .jcdMask m _ | .sef m | .clf m => m != 0#5
  | .jcn _ ms mc => ms != 0#5 || mc != 0#5
  | _ => true

/-- `MNEMONIC source > destination`. -/
def moveLine (src dst : List AsmToken) : List AsmToken := .name ['M', 'O', 'V'] :: src ++ .into :: dst

/-- `MNEMONIC R1,R2 > R3`, or with a literal in the place of one source. -/
def arithLine (mnemonic : List Char) (x y : AsmToken) (r3 : RegA) : List AsmToken :=
  [.name mnemonic, x, .comma, y, .into, .name (regName (regA r3))]

/-- `MNEMONIC R1 > R3`. -/
def shiftLine (mnemonic : List Char) (r1 r3 : RegA) : List AsmToken :=
  [.name mnemonic, .name (regName (regA r1)), .into, .name (regName (regA r3))]

/-- The name of a bankA register as a token. -/
def nameA (r : RegA) : AsmToken := .name (regName (regA r))

/-- The tokens of an instruction's line (R125, the ASSEMBLY column of opcode_table.json, R128). -/
def lineTokens : Instr → List AsmToken
  | .movRegHi p q r1 r2 hh => moveLine (regTokens p (regS r1)) (slotTokens q hh r2)
  | .movHiReg p q r1 r2 hh => moveLine (slotTokens p hh r2) (regTokens q (regS r1))
  | .movLitHi p q r2 hh lit => moveLine (litTokens p lit) (slotTokens q hh r2)
  | .movHiLit p r2 hh lit => moveLine (slotTokens p hh r2) (litTokens true lit)
  | .movLargePair g rhi rlo => moveLine [.name (largeName g)] (pairTokens (regS rhi) (regS rlo))
  | .movPairLarge g rhi rlo => moveLine (pairTokens (regS rhi) (regS rlo)) [.name (largeName g)]
  | .movBytes p q r1 r2 hs hd => moveLine (byteTokens p hs r1) (byteTokens q hd r2)
  | .movLoad24 r1 addr => moveLine (litTokens true addr) (regTokens false (regS r1))
  | .movStore24 r1 addr => moveLine (regTokens false (regS r1)) (litTokens true addr)
  | .movLit8 r1 lit => moveLine (litTokens false lit) (regTokens false (regS r1))
  | .pshReg r => [.name ['P', 'S', 'H'], .name (regName r)]
  | .pshPair rhi rlo => .name ['P', 'S', 'H'] :: pairTokens rhi rlo
  | .pshLit16 lit => [.name ['P', 'S', 'H'], litToken lit]
  | .pshLit8 lit => [.name ['P', 'S', 'H'], litToken lit]
  | .popReg r => [.name ['P', 'O', 'P'], .name (regName r)]
  | .popPair rhi rlo => [.name ['P', 'O', 'P'], .name (regName rhi), .comma, .name (regName rlo)]
  | .jmpReg r1 => .name ['J', 'M', 'P'] :: regTokens true (regS r1)
  | .jmpPair r1 r2 => .name ['J', 'M', 'P'] :: .dollar :: pairTokens (regS r1) (regS r2)
  | .jmpRegLit r1 lit => [.name ['J', 'M', 'P'], .dollar, .name (regName (regS r1)), .colon, litToken lit]
  | .jmpLitReg r1 lit => [.name ['J', 'M', 'P'], .dollar, litToken lit, .colon, .name (regName (regS r1))]
  | .jmpLit24 addr => .name ['J', 'M', 'P'] :: litTokens true addr
  | .jsrReg r1 => .name ['J', 'S', 'R'] :: regTokens true (regS r1)
  | .jsrPair r1 r2 => .name ['J', 'S', 'R'] :: .dollar :: pairTokens (regS r1) (regS r2)
  | .jsrRegLit r1 lit => [.name ['J', 'S', 'R'], .dollar, .name (regName (regS r1)), .colon, litToken lit]
  | .jsrLitReg r1 lit => [.name ['J', 'S', 'R'], .dollar, litToken lit, .colon, .name (regName (regS r1))]
  | .jsrLit24 addr => .name ['J', 'S', 'R'] :: litTokens true addr
  | .jcdReg cond r1 => [.name ['J', 'C', 'D'], .name (condName cond), .name (regName (regS r1))]
  | .jcdLit7 cond off => .name ['J', 'C', 'D'] :: .name (condName cond) :: offTokens off
  | .jcdMask m off => .name ['J', 'C', 'D'] :: (maskTokens m ++ offTokens off)
  | .jccReg fl r1 => [.name ['J', 'C', 'C'], .name (flagName fl), .name (regName (regS r1))]
  | .jccLit7 fl off => .name ['J', 'C', 'C'] :: .name (flagName fl) :: offTokens off
  | .jccMask m off => .name ['J', 'C', 'C'] :: (maskTokens m ++ offTokens off)
  | .jcn off ms mc =>
    .name ['J', 'C', 'N'] ::
      (testsTokens ((flagsOf ms).map (fun fl => (false, fl)) ++ (flagsOf mc).map (fun fl => (true, fl))) ++ offTokens off)
  | .addRegs r1 r2 r3 => arithLine ['A', 'D', 'D'] (nameA r1) (nameA r2) r3
  | .adcRegs r1 r2 r3 => arithLine ['A', 'D', 'C'] (nameA r1) (nameA r2) r3
  | .subRegs r1 r2 r3 => arithLine ['S', 'U', 'B'] (nameA r1) (nameA r2) r3
  | .sbcRegs r1 r2 r3 => arithLine ['S', 'B', 'C'] (nameA r1) (nameA r2) r3
  | .andRegs r1 r2 r3 => arithLine ['A', 'N', 'D'] (nameA r1) (nameA r2) r3
  | .iorRegs r1 r2 r3 => arithLine ['I', 'O', 'R'] (nameA r1) (nameA r2) r3
  | .xorRegs r1 r2 r3 => arithLine ['X', 'O', 'R'] (nameA r1) (nameA r2) r3
  | .addLit r1 lit r3 => arithLine ['A', 'D', 'D'] (nameA r1) (litToken lit) r3
  | .adcLit r1 lit r3 => arithLine ['A', 'D', 'C'] (nameA r1) (litToken lit) r3
  | .subLit r1 lit r3 => arithLine ['S', 'U', 'B'] (nameA r1) (litToken lit) r3
  | .subLitRev r1 lit r3 => arithLine ['S', 'U', 'B'] (litToken lit) (nameA r1) r3
  | .sbcLit r1 lit r3 => arithLine ['S', 'B', 'C'] (nameA r1) (litToken lit) r3
  | .sbcLitRev r1 lit r3 => arithLine ['S', 'B', 'C'] (litToken lit) (nameA r1) r3
  | .andLit r1 lit r3 => arithLine ['A', 'N', 'D'] (nameA r1) (litToken lit) r3
  | .iorLit r1 lit r3 => arithLine ['I', 'O', 'R'] (nameA r1) (litToken lit) r3
  | .xorLit r1 lit r3 => arithLine ['X', 'O', 'R'] (nameA r1) (litToken lit) r3
  | .lsl r1 r3 => shiftLine ['L', 'S', 'L'] r1 r3
  | .rol r1 r3 => shiftLine ['R', 'O', 'L'] r1 r3
  | .lsr r1 r3 => shiftLine ['L', 'S', 'R'] r1 r3
  | .ror r1 r3 => shiftLine ['R', 'O', 'R'] r1 r3
  | .nop => [.name ['N', 'O', 'P']]
  | .sef m => .name ['S', 'E', 'F'] :: maskTokens m
  | .clf m => .name ['C', 'L', 'F'] :: maskTokens m
  | .itr id => [.name ['I', 'T', 'R'], litToken id]
  | .rti => [.name ['R', 'T', 'I']]
  | .rts => [.name ['R', 'T', 'S']]
  | .cmpRegs r1 r2 => [.name ['C', 'M', 'P'], nameA r1, .comma, nameA r2]
  | .cmpLit r1 lit => [.name ['C', 'M', 'P'], nameA r1, .comma, litToken lit]
  | .cmpLitRev r1 lit => [.name ['C', 'M', 'P'], litToken lit, .comma, nameA r1]
  | .jrlReg r1 => [.name ['J', 'R', 'L'], .name (regName (regS r1))]
  | .jrlLit7 off => .name ['J', 'R', 'L'] :: offTokens off
  | .jrlLit16 off => .name ['J', 'R', 'L'] :: offTokens off

/-! ### Spelling -/

/-- A token as characters; no literal of the tables needs more than 24 digits. -/
def AsmToken.spell : AsmToken → List Char
  | .name letters => letters
  | .number n true => '0' :: 'x' :: numeral 16 24 n
  | .number n false => numeral 10 24 n
  | .dollar => ['$']
  | .colon => [':']
  | .comma => [',']
  | .into => ['>']
  | .bang => ['!']
  | .minus => ['-']

/-- Whether a token is made of letters and digits. -/
def AsmToken.isRun : AsmToken → Bool
  | .name _ | .number _ _ => true
  | .dollar | .colon | .comma | .into | .bang | .minus => false

/-- Whether an operand or a flag can begin with a token. -/
def AsmToken.begins : AsmToken → Bool
  | .name _ | .number _ _ | .dollar | .bang | .minus => true
  | .colon | .comma | .into => false

/-- Whether a space stands between two tokens, as in the examples of R125: on both sides of `>`, and between two operands that
no mark separates. -/
def spaced (t u : AsmToken) : Bool := t == .into || u == .into || (t.isRun && u.begins)

/-- Tokens as characters. -/
def spell : List AsmToken → List Char
  | [] => []
  | [t] => t.spell
  | t :: u :: rest => t.spell ++ (if spaced t u then [' '] else []) ++ spell (u :: rest)

/-- The line of assembler text that says an instruction, if there is one (`hasText`). -/
def asmLine (i : Instr) : List Char := spell (lineTokens i)

end Sys2Proof.Machine
end

