-- ==== Sys2Proof/Machine/Run.lean ====
section
/-!
DEFINITION. The end of a run (spec/70_reset_and_hazards.md R314, D29). The instruction set has no halt instruction, and the rule
leaves the end of a run to the model: here a run has ended when the instruction at `pc` is a jump to itself that leaves the
state as it is, the second of the rule's examples (DESIGN CHOICE, log entry 27).
-/

namespace Sys2Proof.Machine

/-- The run has ended in `s` (R314): the next step leaves everything as it is, so `pc` stands at a jump to itself, as at
`JRL -1` (BA7F) or at a JMP to its own address. DESIGN CHOICE, log entry 27. -/
def State.ended (s : State) : Bool :=
  match step s with
  | .next t => t == s
  | .fault _ | .refused _ => false

/-- What a run of at most some number of steps comes to, with the state it comes to. -/
inductive RunResult where
  /-- The run has ended (R314). -/
  | ended (s : State)
  /-- The run has not ended within the steps it was given. -/
  | unfinished (s : State)
  /-- The next step stops with a fault. -/
  | fault (e : Fault) (s : State)
  /-- The next step declines the instruction. No step does. -/
  | refused (e : Refusal) (s : State)
  deriving DecidableEq, Repr

/-- At most `n` steps from `s`, up to the end of the run (R314) or the first step that stops. -/
def run : Nat → State → RunResult
  | 0, s => if s.ended then .ended s else .unfinished s
  | n + 1, s =>
    if s.ended then .ended s
    else
      match step s with
      | .next t => run n t
      | .fault e => .fault e s
      | .refused e => .refused e s

end Sys2Proof.Machine
end

