-- ==== Sys2Proof/Safety.lean ====
section
/-!
DEFINITION. The terms in which claims speak of a run: the invariant of the machine, what it means that an instruction
completes with a given effect and nothing else, and which first words are unassigned.
-/

namespace Sys2Proof.Machine

/-! ### The invariant -/

/-- What every step keeps: memory stays in its canonical form, and the interrupt return-address stack stays within its
4 levels (R31). -/
structure Inv (s : State) : Prop where
  memCanonical : s.mem.wf
  stackDepth : s.istack.length ≤ Config.intStackDepth

/-! ### Frames -/

/-- Every register outside `ds` reads as before. PL, PH are said under `pc`, and F under the flags. -/
def KeepsRegs (s t : State) (ds : List Reg) : Prop :=
  ∀ r : Reg, r ∉ ds → r ≠ .pl → r ≠ .ph → r ≠ .f → t.readReg r = s.readReg r

/-- Every flag outside `fs` is as before. -/
def KeepsFlags (s t : State) (fs : List Flag) : Prop := ∀ fl : Flag, fl ∉ fs → t.flag fl = s.flag fl

/-- Every byte of memory outside the words at `xs` reads as before. -/
def KeepsBytes (s t : State) (xs : List Addr) : Prop :=
  ∀ key : Nat, (∀ x ∈ xs, key ≠ keyHi x ∧ key ≠ keyLo x) → t.readByte key = s.readByte key

/-- From `s` to `t`: `pc` is the given one, the given registers, flags and memory words hold the given values, the interrupt
stack is the given one, and everything else is as before. -/
structure Effect (s t : State) (pc : Addr) (regs : List (Reg × Word)) (flags : List (Flag × Bool))
    (stores : List (Addr × Word)) (stack : List Addr) : Prop where
  pcIs : t.pc = pc
  regsHold : ∀ x ∈ regs, t.readReg x.1 = x.2
  regsKept : KeepsRegs s t (regs.map (·.1))
  flagsHold : ∀ x ∈ flags, t.flag x.1 = x.2
  flagsKept : KeepsFlags s t (flags.map (·.1))
  storesHold : ∀ x ∈ stores, t.readWord x.1 = x.2
  bytesKept : KeepsBytes s t (stores.map (·.1))
  stackIs : t.istack = stack

/-- The outcome is a next state of which `P` holds. -/
def Completes (o : Result) (P : State → Prop) : Prop := ∃ t, o = .next t ∧ P t

/-- The instruction completes in a state reached from `s` by exactly this effect; the interrupt stack is kept. -/
def Does (o : Result) (s : State) (pc : Addr) (regs : List (Reg × Word)) (flags : List (Flag × Bool))
    (stores : List (Addr × Word)) : Prop :=
  Completes o fun t => Effect s t pc regs flags stores s.istack

/-- What a destination register receives: Z receives nothing (R25). -/
def into (r : Reg) (v : Word) : List (Reg × Word) := if r = .z then [] else [(r, v)]

/-- What an operand slot with a `$` bit gives (R96): memory at `addr` when set, else the plain value. -/
def slotValue (s : State) (deref : Bool) (addr : Addr) (plain : Word) : Word :=
  if deref then s.readWord addr else plain

/-- A 16-bit MOV of `n` words (R140): `v` goes to memory at `addr` when `q` is set, else to the register; ZE says whether it
is zero. -/
def Moves (o : Result) (s : State) (n : Nat) (v : Word) (q : Bool) (addr : Addr) (r : RegS) : Prop :=
  Does o s (s.pcNext n) (if q then [] else into (regS r) v) [(.ze, v == 0#16)] (if q then [(addr, v)] else [])

/-- An arithmetic instruction of `n` words: `v` goes to `d`, and the listed flags are written (R220, R221). -/
def Computes (o : Result) (s : State) (n : Nat) (d : RegA) (v : Word) (flags : List (Flag × Bool)) : Prop :=
  Does o s (s.pcNext n) (into (regA d) v) flags []

/-- ADC of `x` and `y` into `d`, over exact integers (R223). -/
def AddsWithCarry (o : Result) (s : State) (n : Nat) (x y : Word) (d : RegA) : Prop :=
  let sum : Nat := x.toNat + y.toNat + (s.flag .ca).toNat
  let t : Int := x.toInt + y.toInt + (s.flag .ca).toNat
  Computes o s n d (BitVec.ofNat 16 sum)
    [(.ca, decide (65536 ≤ sum)), (.ov, decide (t < -32768 ∨ 32767 < t)), (.ze, decide (sum % 65536 = 0))]

/-- SBC of `x` and `y` into `d`, over exact integers (R225). -/
def SubtractsWithBorrow (o : Result) (s : State) (n : Nat) (x y : Word) (d : RegA) : Prop :=
  let diff : Int := x.toNat - y.toNat - (s.flag .ca).toNat
  let t : Int := x.toInt - y.toInt - (s.flag .ca).toNat
  Computes o s n d (BitVec.ofInt 16 diff)
    [(.ca, decide (diff < 0)), (.ov, decide (t < -32768 ∨ 32767 < t)), (.ze, decide (diff % 65536 = 0))]

/-- CMP of `x` and `y`: the flags of SBC and no register; and what ZE and CA then say (R226). -/
def Compares (o : Result) (s : State) (n : Nat) (x y : Word) : Prop :=
  SubtractsWithBorrow o s n x y .z ∧
  Completes o fun t =>
    (s.flag .ca = false → (t.flag .ze = true ↔ x = y) ∧ (t.flag .ca = true ↔ x.toNat < y.toNat)) ∧
    (s.flag .ca = true → (t.flag .ze = true ↔ x - 1#16 = y) ∧ (t.flag .ca = true ↔ (x.toNat : Int) - 1 < y.toNat))

/-- A jump: `pc` is the given one and nothing else changes. -/
def OnlyJumps (o : Result) (s : State) (pc : Addr) : Prop := Does o s pc [] [] []

/-- Bits 23:16 of an address as a word: `zext_16(x[23:16])` (R28), so bits 15:8 are 0. -/
def upperHalf (x : Addr) : Word := BitVec.ofNat 16 (x.toNat / 65536)

/-- Bits 15:0 of an address (R28). -/
def lowerHalf (x : Addr) : Word := BitVec.ofNat 16 (x.toNat % 65536)

/-- A call from an instruction of `n` words (R186): RT receives the return address, its high half zero-extended. -/
def Calls (o : Result) (s : State) (n : Nat) (target : Addr) : Prop :=
  Does o s target [(.rh, upperHalf (s.pcNext n)), (.rl, lowerHalf (s.pcNext n))] [] []

/-- The word that PSH stores of a register (R160), register by register: PL and PH are the halves of `pcnext` (R28), F is its
five bits zero-extended (R30), Z is zero (R25), every other register is its field. -/
def pushedWord (s : State) : Reg → Word
  | .a => s.a
  | .b => s.b
  | .c => s.c
  | .sp => s.sp
  | .rl => s.rl
  | .rh => s.rh
  | .i => s.i
  | .z => 0x0000#16
  | .aa => s.aa
  | .ab => s.ab
  | .ac => s.ac
  | .pl => lowerHalf (s.pcNext 1)
  | .ph => upperHalf (s.pcNext 1)
  | .f => BitVec.ofNat 16 s.f.toNat

/-- The register an `RHI` field names, as a number (R23): A, B, C, or Z, which is 0. -/
def highPart (s : State) : RegHi → Nat
  | .a => s.a.toNat
  | .b => s.b.toNat
  | .c => s.c.toNat
  | .z => 0

/-- The register a bankS field names, as a number (R22). -/
def lowPart (s : State) : RegS → Nat
  | .a => s.a.toNat
  | .b => s.b.toNat
  | .c => s.c.toNat
  | .sp => s.sp.toNat
  | .rl => s.rl.toNat
  | .rh => s.rh.toNat
  | .i => s.i.toNat
  | .z => 0

/-- The addresses of R70 that take registers, as numbers: `$R` is `0x00 : x[R]`, and `$RHI:R2` is `x[RHI][7:0] : x[R2]`. -/
def AddressesOfRegisters (s : State) : Prop :=
  (∀ r : RegS, (s.addrReg r).toNat = lowPart s r) ∧
  ∀ (hh : RegHi) (r2 : RegS), (s.addr2 hh r2).toNat = highPart s hh % 256 * 65536 + lowPart s r2

/-- The addresses of R70 that take a word alone, a literal or SP, are `0x00 : v`. -/
def AddressesOfWords : Prop := ∀ v : Word, (shortAddr v).toNat = v.toNat ∧ (stackAddr v).toNat = v.toNat

/-- A property of all five flags (R30). -/
def everyFlag (p : Flag → Bool) : Bool := p .ca && p .ze && p .ov && p .ne && p .di

/-- Every flag of the mask is set (R190). -/
def maskSet (s : State) (m : Flags) : Bool := everyFlag fun fl => !m.getLsbD (flagBit fl) || s.flag fl

/-- Every flag of the mask is clear (R190). -/
def maskClear (s : State) (m : Flags) : Bool := everyFlag fun fl => !m.getLsbD (flagBit fl) || !s.flag fl

/-- Where a relative jump of `n` words goes: `pcnext + off` when taken, else `pcnext`, modulo 2^24 (R189). -/
def branchTo (s : State) (n : Nat) (taken : Bool) (off : Int) : Addr :=
  if taken then s.pcNext n + BitVec.ofInt 24 off else s.pcNext n

/-! ### Words -/

/-- The words read as the instruction. -/
abbrev Reads (ws : List Word) (i : Instr) : Prop := decodeWords ws = .ok i

/-- The B1 values of the memory family that match no row, as R100 lists them. -/
def unassignedMemory : List Byte :=
  [0x43, 0x4B, 0x53, 0x54, 0x55, 0x56, 0x57, 0x59, 0x5D, 0x5E, 0x5F, 0x62, 0x66, 0x6A, 0x6E, 0x72, 0x76, 0x7A, 0x7E]

/-- The B1 values of the branch family that match no row, as R105 lists them. -/
def unassignedBranch : List Byte :=
  [0x81, 0x82, 0x83, 0x85, 0x86, 0x87, 0x88, 0x8A, 0x8B, 0x8C, 0x8E, 0x8F, 0x91, 0x92, 0x93, 0x95, 0x96, 0x97, 0x98, 0x9A,
   0x9C, 0x9E]

/-- The B1 values of the arithmetic family that match no row: 0xD0 to 0xD3, `11ooo1a1`, `111oo1a0` (R110). -/
def unassignedArithmetic (b1 : Byte) : Bool :=
  (0xD0#8 ≤ b1 && b1 ≤ 0xD3#8) || b1 &&& 0b11000101#8 == 0b11000101#8 || b1 &&& 0b11100101#8 == 0b11100100#8

/-- The B1 values of the other family that match no row: `00xxxxx1`, `0000xxx0` and `0010xxx0` but for those assigned (R112). -/
def unassignedOther (b1 : Byte) : Bool :=
  b1 &&& 0b11000001#8 == 0b00000001#8 || (b1 &&& 0b11110001#8 == 0b00000000#8 && b1 != 0x00#8)
    || (b1 &&& 0b11110001#8 == 0b00100000#8 && b1 != 0x20#8 && b1 != 0x22#8)

/-- A first word that is no instruction (R120): B1 matches no row, or `ccc` is 110 or 111, or 101 in JCC (R106), or a PSH or POP
names 1011, or 1111 in the first position (R161). -/
def unassigned (w1 : Word) : Bool :=
  let b1 := byteHi w1
  let ccc := field b1 1 3
  let x := field (byteLo w1) 4 4
  let y := field (byteLo w1) 0 4
  unassignedMemory.contains b1 || unassignedBranch.contains b1 || unassignedArithmetic b1 || unassignedOther b1
    || (b1 &&& 0b11110001#8 == 0b10110000#8 && (ccc == 0b110#3 || ccc == 0b111#3))
    || (b1 &&& 0b11110001#8 == 0b10100000#8 && (ccc == 0b101#3 || ccc == 0b110#3 || ccc == 0b111#3))
    || ((b1 == 0x58#8 || b1 == 0x5C#8) && (x == 0b1011#4 || x == 0b1111#4 || y == 0b1011#4))

/-! ### Kinds of instruction -/

/-- The instructions of the memory family that can store: MOV with a memory destination and PSH (R69). -/
def mayStore : Instr → Bool
  | .movRegHi _ q .. | .movHiReg _ q .. | .movLitHi _ q .. | .movBytes _ q .. => q
  | .movHiLit .. | .movStore24 .. | .pshReg .. | .pshPair .. | .pshLit16 .. | .pshLit8 .. => true
  | _ => false

/-- The instructions that may change NE or DI: SEF, CLF and a POP into F (R33). -/
def mayWriteNeDi : Instr → Bool
  | .sef _ | .clf _ => true
  | .popReg r => r == .f
  | .popPair rhi rlo => rhi == .f || rlo == .f
  | _ => false

/-- The registers a POP names. -/
def popDests : Instr → List Reg
  | .popReg r => [r]
  | .popPair rhi rlo => [rhi, rlo]
  | _ => []

/-- The destination an arithmetic instruction names (R110). -/
def arithDests : Instr → List RegA
  | .addRegs _ _ d | .adcRegs _ _ d | .subRegs _ _ d | .sbcRegs _ _ d | .andRegs _ _ d | .iorRegs _ _ d | .xorRegs _ _ d
  | .addLit _ _ d | .adcLit _ _ d | .subLit _ _ d | .subLitRev _ _ d | .sbcLit _ _ d | .sbcLitRev _ _ d | .andLit _ _ d
  | .iorLit _ _ d | .xorLit _ _ d | .lsl _ d | .rol _ d | .lsr _ d | .ror _ d => [d]
  | _ => []

end Sys2Proof.Machine
end

