-- ==== Sys2Proof/Certificates/Slice0/Obligations.lean ====
section
/-!
DEFINITION. The statements for the provers. They speak of the machine in the terms of Safety.lean. A statement that rests on
a choice of the spec (a decision D<n> of spec/92_eei_decisions.md) or of this model (a log entry) says so.
-/

open Sys2Proof
open Sys2Proof.Machine

/-! ### Decoding and encoding -/

/-- Decoding the words of a well-formed instruction gives it back, whatever words follow (R90, R121). Which name a word is
read under is the model's choice, log entry 9. -/
def Obligations.DecodeEncodeRoundTrip : Prop :=
  ∀ (i : Instr) (rest : List Word), WellFormed i → decodeWords (encode i ++ rest) = .ok i

/-- Changing any don't-care bits of an instruction's words leaves it the same instruction (R97, R113; that don't-care bits are
ignored on decode is D20, that mask bits 7:5 are ignored is D12, which B2 bits M3 to M6 ignore is D8; log entries 14, 19). -/
def Obligations.DontCareBitsAreIgnored : Prop :=
  ∀ (i : Instr) (x y w2 : Word), WellFormed i →
    decode (encodeFirst i ^^^ (x &&& dontCareFirst i)) ((encodeSecond i).getD w2 ^^^ (y &&& dontCareSecond i)) = .ok i

/-- Words that decode to an instruction are its encoding but for don't-care bits, and the instruction is well formed: no bit
of an encoding is dropped, and no two instructions share a word (R121). Names as in log entry 9. -/
def Obligations.DecodedWordsMatchTheirInstruction : Prop :=
  ∀ (w1 w2 : Word) (i : Instr), decode w1 w2 = .ok i →
    WellFormed i ∧ (w1 ^^^ encodeFirst i) &&& ~~~dontCareFirst i = 0#16 ∧
      ∀ v, encodeSecond i = some v → (w2 ^^^ v) &&& ~~~dontCareSecond i = 0#16

/-- The decoder rejects exactly the first words that the spec lists as unassigned (R100, R105, R106, R110, R112, R120, R161).
With COND_AW at its default (D14, log entry 6). -/
def Obligations.RejectedWordsAreTheUnassignedOnes : Prop :=
  ∀ w1 w2 : Word, (∃ e, decode w1 w2 = .error e) ↔ unassigned w1 = true

/-- A step at an unassigned word stops with the illegal-instruction fault (R120, R281; the fault is the spec's decision D20,
log entry 14). -/
def Obligations.UnassignedWordFaults : Prop :=
  ∀ s : State, unassigned (s.readWord s.pc) = true → step s = .fault .illegalInstruction

/-- When the words at `pc` decode to an instruction, a step is that instruction in that state, and nothing besides (R13, R92).
That the fetch never faults is D27 (log entry 7). -/
def Obligations.StepRunsTheDecodedInstruction : Prop :=
  ∀ (s : State) (i : Instr), Reads [s.readWord s.pc, s.readWord (s.pc + 1)] i → step s = exec i s

/-- An instruction whose words have just been stored at `pc` is the one the next step runs: a store is seen by the next fetch
(R75, a decision of the spec, D22, log entry 21). And an instruction that begins a program image placed at RESET_PC is the first
one that runs after the start (R313, D21; what an image is, log entry 11; RESET_PC, log entry 2). -/
def Obligations.StoredInstructionRunsNext : Prop :=
  (∀ (s : State) (i : Instr), WellFormed i →
    let t := s.writeWord s.pc (encodeFirst i)
    let u := match encodeSecond i with
      | none => t
      | some w2 => t.writeWord (s.pc + 1) w2
    step u = exec i u) ∧
  (∀ (i : Instr) (rest : List Word), WellFormed i → (encode i ++ rest).length ≤ 2 ^ 24 →
    let s := State.boot [(Config.resetPC, encode i ++ rest)]
    step s = exec i s)

/-- Words written out from the encodings of the spec, one or more of each family, decode to the instructions they stand
for. -/
def Obligations.WordsOfTheSpecDecode : Prop :=
  Reads [0x4409] (.movRegHi false true .a .c .b) ∧ Reads [0x4A50] (.movHiReg true false .b .rl .a) ∧
  Reads [0x58DC] (.pshPair .ph .pl) ∧ Reads [0x5C0F] (.popReg .a) ∧ Reads [0x8DFF, 0x002A] (.jsrLit24 0xFF002A) ∧
  Reads [0xA102, 0x0018] (.jccMask 0b00010 0x0018) ∧ Reads [0xA5FC, 0x0201] (.jcn 0xFC 0b00010 0b00001) ∧
  Reads [0xFB12, 0x0010] (.sbcLit .b 0x0010 .ac) ∧ Reads [0xFA07] (.cmpRegs .a .b) ∧ Reads [0xCE10] (.rol .b .aa) ∧
  Reads [0x1016] (.sef 0b10110) ∧ Reads [0x2003] (.itr 3) ∧ Reads [0x90D0] .rts

/-- The rows M1 to M16 decode as R100 lays them out, for every value of their fields, and the unassigned B1 values of the family
match no row. Which bank bit goes with which field in M3 to M6 is D8 (log entry 14). -/
def Obligations.MemoryRowsDecode : Prop :=
  (∀ (p q s t : Bool) (r u h : BitVec 2) (w2 : Word),
    decode (wordOf (0b0100#4 ++ bit p ++ bit q ++ 0b00#2) (bit s ++ bit t ++ r ++ u ++ h)) w2
      = .ok (.movRegHi p q (bankS s r) (bankS t u) (hi8reg h)) ∧
    decode (wordOf (0b0100#4 ++ bit p ++ bit q ++ 0b10#2) (bit s ++ bit t ++ r ++ u ++ h)) w2
      = .ok (.movHiReg p q (bankS s r) (bankS t u) (hi8reg h))) ∧
  (∀ (p q s : Bool) (x : BitVec 3) (u h : BitVec 2) (lit : Word),
    decode (wordOf (0b0100#4 ++ bit p ++ bit q ++ 0b01#2) (bit s ++ x ++ u ++ h)) lit
      = .ok (.movLitHi p q (bankS s u) (hi8reg h) lit) ∧
    decode (wordOf (0b0100#4 ++ bit p ++ 0b111#3) (bit s ++ x ++ u ++ h)) lit
      = .ok (.movHiLit p (bankS s u) (hi8reg h) lit)) ∧
  (∀ (s t x g : Bool) (u h : BitVec 2) (w2 : Word),
    decode (wordOf 0b01010000#8 (bit s ++ bit t ++ bit x ++ bit g ++ u ++ h)) w2
      = .ok (.movLargePair (largeReg g) (bankS t h) (bankS s u)) ∧
    decode (wordOf 0b01010010#8 (bit s ++ bit t ++ bit x ++ bit g ++ u ++ h)) w2
      = .ok (.movPairLarge (largeReg g) (bankS t h) (bankS s u))) ∧
  (∀ (s t p q : Bool) (r u : BitVec 2) (hs hd : Byte),
    decode (wordOf 0b01010001#8 (bit s ++ bit t ++ r ++ u ++ bit p ++ bit q)) (wordOf hs hd)
      = .ok (.movBytes p q (bankS s r) (bankS t u) hs hd)) ∧
  (∀ (r : BitVec 2) (s : Bool) (b2 : Byte) (w2 : Word),
    decode (wordOf (0b011#3 ++ r ++ bit s ++ 0b01#2) b2) w2 = .ok (.movLoad24 (bankS s r) (addrOf b2 w2)) ∧
    decode (wordOf (0b011#3 ++ r ++ bit s ++ 0b11#2) b2) w2 = .ok (.movStore24 (bankS s r) (addrOf b2 w2)) ∧
    decode (wordOf (0b011#3 ++ r ++ bit s ++ 0b00#2) b2) w2 = .ok (.movLit8 (bankS s r) b2)) ∧
  (∀ (x y : BitVec 4) (r r' : Reg) (w2 : Word), reg4 x = some r → reg4 y = some r' →
    decode (wordOf 0b01011000#8 (x ++ 0b1111#4)) w2 = .ok (.pshReg r) ∧
    decode (wordOf 0b01011000#8 (x ++ y)) w2 = .ok (.pshPair r r') ∧
    decode (wordOf 0b01011100#8 (x ++ 0b1111#4)) w2 = .ok (.popReg r) ∧
    decode (wordOf 0b01011100#8 (x ++ y)) w2 = .ok (.popPair r r')) ∧
  (∀ (b2 : Byte) (w2 : Word),
    decode (wordOf 0b01011011#8 b2) w2 = .ok (.pshLit16 w2) ∧ decode (wordOf 0b01011010#8 b2) w2 = .ok (.pshLit8 b2)) ∧
  (∀ b1 ∈ unassignedMemory, ∀ (b2 : Byte) (w2 : Word), decode (wordOf b1 b2) w2 = .error .unassignedOpcode)

/-- The rows J1 to J17 decode as R105 lays them out, for every value of their fields, and the unassigned B1 values of the family
match no row. Words with a second name are read under it (R128, log entry 9). The codes of the conditions, and with them the
bits of F, are CA 0, ZE 1, OV 2, NE 3, DI 4 (R30, R106, R113). -/
def Obligations.BranchRowsDecode : Prop :=
  ([0, 1, 2, 3, 4, 5, 6, 7].map flagOfCode = [some .ca, some .ze, some .ov, some .ne, some .di, none, none, none]) ∧
  ([Flag.ca, .ze, .ov, .ne, .di].map Flag.code = [0, 1, 2, 3, 4]) ∧
  ([Flag.ca, .ze, .ov, .ne, .di].map flagBit = [0, 1, 2, 3, 4]) ∧
  (∀ (s : Bool) (r : BitVec 2) (x : Bool) (y : BitVec 4) (w2 : Word),
    decode (wordOf 0b10000000#8 (bit s ++ bit x ++ r ++ y)) w2 = .ok (.jmpReg (bankS s r)) ∧
    decode (wordOf 0b10011001#8 (bit s ++ bit x ++ r ++ y)) w2 = .ok (.jmpRegLit (bankS s r) w2) ∧
    decode (wordOf 0b10011011#8 (bit s ++ bit x ++ r ++ y)) w2 = .ok (.jmpLitReg (bankS s r) w2) ∧
    decode (wordOf 0b10000100#8 (bit s ++ bit x ++ r ++ y)) w2 = .ok (.jsrReg (bankS s r)) ∧
    decode (wordOf 0b10011101#8 (bit s ++ bit x ++ r ++ y)) w2 = .ok (.jsrRegLit (bankS s r) w2) ∧
    decode (wordOf 0b10011111#8 (bit s ++ bit x ++ r ++ y)) w2 = .ok (.jsrLitReg (bankS s r) w2)) ∧
  (∀ (s t : Bool) (r u x : BitVec 2) (w2 : Word),
    decode (wordOf 0b10010000#8 (bit s ++ bit t ++ r ++ u ++ x)) w2
      = .ok (if bankS s r = .rh ∧ bankS t u = .rl then .rts else .jmpPair (bankS s r) (bankS t u)) ∧
    decode (wordOf 0b10010100#8 (bit s ++ bit t ++ r ++ u ++ x)) w2 = .ok (.jsrPair (bankS s r) (bankS t u))) ∧
  (∀ (b2 : Byte) (w2 : Word),
    decode (wordOf 0b10001001#8 b2) w2 = .ok (.jmpLit24 (addrOf b2 w2)) ∧
    decode (wordOf 0b10001101#8 b2) w2 = .ok (.jsrLit24 (addrOf b2 w2))) ∧
  (∀ (fl : Flag) (s : Bool) (r : BitVec 2) (x : BitVec 4) (off : BitVec 7) (w2 : Word),
    decode (wordOf (0b1011#4 ++ fl.code ++ 0b0#1) (0b1#1 ++ bit s ++ r ++ x)) w2 = .ok (.jcdReg (.flag fl) (bankS s r)) ∧
    decode (wordOf (0b1011#4 ++ fl.code ++ 0b0#1) (0b0#1 ++ off)) w2 = .ok (.jcdLit7 (.flag fl) off) ∧
    decode (wordOf (0b1010#4 ++ fl.code ++ 0b0#1) (0b1#1 ++ bit s ++ r ++ x)) w2 = .ok (.jccReg fl (bankS s r)) ∧
    decode (wordOf (0b1010#4 ++ fl.code ++ 0b0#1) (0b0#1 ++ off)) w2 = .ok (.jccLit7 fl off) ∧
    decode (wordOf (0b1011#4 ++ Config.condAW ++ 0b0#1) (0b1#1 ++ bit s ++ r ++ x)) w2 = .ok (.jrlReg (bankS s r)) ∧
    decode (wordOf (0b1011#4 ++ Config.condAW ++ 0b0#1) (0b0#1 ++ off)) w2 = .ok (.jrlLit7 off)) ∧
  (∀ (x y : Bool) (z : BitVec 3) (m : Flags) (w2 : Word),
    decode (wordOf (0b1011#4 ++ bit x ++ 0b0#1 ++ bit y ++ 0b1#1) (z ++ m)) w2
      = .ok (if m = 0#5 then .jrlLit16 w2 else .jcdMask m w2) ∧
    decode (wordOf (0b1010#4 ++ bit x ++ 0b0#1 ++ bit y ++ 0b1#1) (z ++ m)) w2 = .ok (.jccMask m w2)) ∧
  (∀ (x y z : Bool) (off : Byte) (v w : BitVec 3) (ms mc : Flags),
    decode (wordOf (0b101#3 ++ bit x ++ bit y ++ 0b1#1 ++ bit z ++ 0b1#1) off) (wordOf (v ++ ms) (w ++ mc))
      = .ok (.jcn off ms mc)) ∧
  (∀ b1 ∈ unassignedBranch, ∀ (b2 : Byte) (w2 : Word), decode (wordOf b1 b2) w2 = .error .unassignedOpcode)

/-- The rows A1 to A20 decode as R110 lays them out, for every value of their fields, and the unassigned B1 values of the family
match no row. SBC into Z is read as CMP (R128, log entry 9); B2[6] is spare in the literal rows (D30, log entry 14). -/
def Obligations.ArithmeticRowsDecode : Prop :=
  (∀ (a s t : Bool) (r u d : BitVec 2) (w2 : Word),
    let b2 : Byte := bit s ++ bit t ++ r ++ u ++ d
    decode (wordOf (0b111000#6 ++ bit a ++ 0b0#1) b2) w2 = .ok (.addRegs (bankA s r) (bankA t u) (bankA a d)) ∧
    decode (wordOf (0b111010#6 ++ bit a ++ 0b0#1) b2) w2 = .ok (.adcRegs (bankA s r) (bankA t u) (bankA a d)) ∧
    decode (wordOf (0b111100#6 ++ bit a ++ 0b0#1) b2) w2 = .ok (.subRegs (bankA s r) (bankA t u) (bankA a d)) ∧
    decode (wordOf (0b111110#6 ++ bit a ++ 0b0#1) b2) w2
      = .ok (if bankA a d = .z then .cmpRegs (bankA s r) (bankA t u) else .sbcRegs (bankA s r) (bankA t u) (bankA a d)) ∧
    decode (wordOf (0b110000#6 ++ bit a ++ 0b0#1) b2) w2 = .ok (.andRegs (bankA s r) (bankA t u) (bankA a d)) ∧
    decode (wordOf (0b110010#6 ++ bit a ++ 0b0#1) b2) w2 = .ok (.iorRegs (bankA s r) (bankA t u) (bankA a d)) ∧
    decode (wordOf (0b110110#6 ++ bit a ++ 0b0#1) b2) w2 = .ok (.xorRegs (bankA s r) (bankA t u) (bankA a d))) ∧
  (∀ (a s x y z : Bool) (r d : BitVec 2) (w2 : Word),
    let b2 : Byte := bit s ++ bit x ++ r ++ bit y ++ bit z ++ d
    decode (wordOf (0b111000#6 ++ bit a ++ 0b1#1) b2) w2 = .ok (.addLit (bankA s r) w2 (bankA a d)) ∧
    decode (wordOf (0b111010#6 ++ bit a ++ 0b1#1) b2) w2 = .ok (.adcLit (bankA s r) w2 (bankA a d)) ∧
    decode (wordOf (0b111100#6 ++ bit a ++ 0b1#1) b2) w2
      = .ok (if z then .subLitRev (bankA s r) w2 (bankA a d) else .subLit (bankA s r) w2 (bankA a d)) ∧
    decode (wordOf (0b111110#6 ++ bit a ++ 0b1#1) b2) w2
      = .ok (if bankA a d = .z then (if z then .cmpLitRev (bankA s r) w2 else .cmpLit (bankA s r) w2)
        else (if z then .sbcLitRev (bankA s r) w2 (bankA a d) else .sbcLit (bankA s r) w2 (bankA a d))) ∧
    decode (wordOf (0b110000#6 ++ bit a ++ 0b1#1) b2) w2 = .ok (.andLit (bankA s r) w2 (bankA a d)) ∧
    decode (wordOf (0b110010#6 ++ bit a ++ 0b1#1) b2) w2 = .ok (.iorLit (bankA s r) w2 (bankA a d)) ∧
    decode (wordOf (0b110110#6 ++ bit a ++ 0b1#1) b2) w2 = .ok (.xorLit (bankA s r) w2 (bankA a d)) ∧
    decode (wordOf (0b110001#6 ++ bit a ++ 0b0#1) b2) w2 = .ok (.lsl (bankA s r) (bankA a d)) ∧
    decode (wordOf (0b110011#6 ++ bit a ++ 0b0#1) b2) w2 = .ok (.rol (bankA s r) (bankA a d)) ∧
    decode (wordOf (0b110101#6 ++ bit a ++ 0b0#1) b2) w2 = .ok (.lsr (bankA s r) (bankA a d)) ∧
    decode (wordOf (0b110111#6 ++ bit a ++ 0b0#1) b2) w2 = .ok (.ror (bankA s r) (bankA a d))) ∧
  (∀ b1 : Byte, unassignedArithmetic b1 = true →
    ∀ (b2 : Byte) (w2 : Word), decode (wordOf b1 b2) w2 = .error .unassignedOpcode)

/-- The rows O1 to O5 decode as R112 lays them out, for every value of their fields, and the unassigned B1 values of the family
match no row. -/
def Obligations.OtherRowsDecode : Prop :=
  (∀ (b2 : Byte) (w2 : Word),
    decode (wordOf 0b00000000#8 b2) w2 = .ok .nop ∧
    decode (wordOf 0b00100000#8 b2) w2 = .ok (.itr b2) ∧
    decode (wordOf 0b00100010#8 b2) w2 = .ok .rti) ∧
  (∀ (x y : BitVec 3) (m : Flags) (w2 : Word),
    decode (wordOf (0b0001#4 ++ x ++ 0b0#1) (y ++ m)) w2 = .ok (.sef m) ∧
    decode (wordOf (0b0011#4 ++ x ++ 0b0#1) (y ++ m)) w2 = .ok (.clf m)) ∧
  (∀ b1 : Byte, unassignedOther b1 = true →
    ∀ (b2 : Byte) (w2 : Word), decode (wordOf b1 b2) w2 = .error .unassignedOpcode)

/-- The register codes of R21 and R22: which register a 4-bit code, and a bank bit with a 2-bit code, names. -/
def Obligations.RegisterCodesNameRegisters : Prop :=
  ([0, 1, 2, 3, 4, 5, 6, 7, 8, 9, 10, 11, 12, 13, 14, 15].map reg4
    = [some .a, some .b, some .c, some .sp, some .rl, some .rh, some .i, some .z, some .aa, some .ab, some .ac, none, some .pl,
       some .ph, some .f, none]) ∧
  ([0, 1, 2, 3].map (fun x => regS (bankS false x)) = [.a, .b, .c, .sp]) ∧
  ([0, 1, 2, 3].map (fun x => regS (bankS true x)) = [.rl, .rh, .i, .z]) ∧
  ([0, 1, 2, 3].map (fun x => regA (bankA false x)) = [.a, .b, .c, .sp]) ∧
  ([0, 1, 2, 3].map (fun x => regA (bankA true x)) = [.aa, .ab, .ac, .z])

/-! ### Memory, the invariant, reset -/

/-- A store completes; the word stored reads back, and every other word and every byte of them reads as before (R63, R64, R67;
every address holds memory: D27, log entry 7). -/
def Obligations.StoredWordReadsBack : Prop :=
  ∀ (s : State) (x : Addr) (v : Word), ∃ t, memWrite s x v = .ok t ∧ memRead t x = .ok v ∧
    (∀ y, y ≠ x → memRead t y = memRead s y) ∧ KeepsBytes s t [x]

/-- Two canonical memories that read the same at every byte are the same data. The form is the model's choice, log entry 4. -/
def Obligations.CanonicalMemoriesAgreeingAreEqual : Prop :=
  ∀ m m' : Memory, m.wf → m'.wf → (∀ key, m.get key = m'.get key) → m = m'

/-- Every step keeps the invariant: memory canonical (log entry 4) and at most 4 entries on the interrupt stack (R31). -/
def Obligations.StepKeepsMachineInvariant : Prop :=
  ∀ s t : State, Inv s → step s = .next t → Inv t

/-- The state after reset meets the invariant. -/
def Obligations.ResetMeetsMachineInvariant : Prop := Inv State.reset

/-- After reset: `pc` is RESET_PC, the interrupt stack is empty, Z is 0 (R310, R38). The zeros of the registers, of the flags
and of memory are the model's choice (log entries 1, 3), and so is RESET_PC = 0 (log entry 2). Started with a program image, the
machine is in that state but for memory, which holds the words of the image at their addresses and is otherwise as after reset
(R313, D21; what an image is, log entry 11). -/
def Obligations.ResetStateValues : Prop :=
  State.reset.pc = Config.resetPC ∧ Config.resetPC = 0x000000#24 ∧ State.reset.istack = [] ∧
    (∀ r : Reg, State.reset.readReg r = 0#16) ∧ (∀ fl : Flag, State.reset.flag fl = false) ∧
    (∀ x : Addr, State.reset.readWord x = 0#16) ∧
    ∀ (x : Addr) (ws : List Word), ws.length ≤ 2 ^ 24 →
      let s := State.boot [(x, ws)]
      (∀ (k : Nat) (hk : k < ws.length), s.readWord (x + BitVec.ofNat 24 k) = ws[k]) ∧
      (∀ y : Addr, (∀ k < ws.length, y ≠ x + BitVec.ofNat 24 k) → s.readWord y = State.reset.readWord y) ∧
      { s with mem := State.reset.mem } = State.reset ∧ s.mem.wf

/-! ### MOV -/

/-- M1 and M2: what moves, where it goes, ZE, and nothing else (R140, R141, R142; D1, D5, D6, D7: log entries 12, 13). The
addresses are `0x00 : x[R]` and `x[RHI][7:0] : x[R2]`, with high byte 0 for RHI = Z (R70). -/
def Obligations.MovRegisterForms : Prop :=
  (∀ (p q : Bool) (r1 r2 : RegS) (hh : RegHi) (s : State),
    Moves (exec (.movRegHi p q r1 r2 hh) s) s 1 (slotValue s p (s.addrReg r1) (s.readS r1)) q (s.addr2 hh r2) r2 ∧
    Moves (exec (.movHiReg p q r1 r2 hh) s) s 1 (slotValue s p (s.addr2 hh r2) (s.readS r2)) q (s.addrReg r1) r1) ∧
  (∀ s : State, AddressesOfRegisters s) ∧
  Reads [0x4409] (.movRegHi false true .a .c .b) ∧ Reads [0x4A50] (.movHiReg true false .b .rl .a)

/-- M3 and M4 (R140, R143, R144; D5, D6, D7, D8: log entries 12, 13, 14). The addresses are `0x00 : lit` and
`x[RHI][7:0] : x[R2]`, with high byte 0 for RHI = Z (R70). -/
def Obligations.MovLiteralForms : Prop :=
  (∀ (p q : Bool) (r2 : RegS) (hh : RegHi) (lit : Word) (s : State),
    Moves (exec (.movLitHi p q r2 hh lit) s) s 2 (slotValue s p (shortAddr lit) lit) q (s.addr2 hh r2) r2 ∧
    Moves (exec (.movHiLit p r2 hh lit) s) s 2 (slotValue s p (s.addr2 hh r2) (s.readS r2)) true (shortAddr lit) r2) ∧
  (∀ s : State, AddressesOfRegisters s) ∧ AddressesOfWords ∧
  Reads [0x4504, 0x0210] (.movLitHi false true .b .a 0x0210) ∧ Reads [0x470B, 0x2004] (.movHiLit false .c .z 0x2004)

/-- M5: the pair receives the halves of RT or of `pcnext`, whose high half is zero-extended (R28); if both are one register it ends
with the high half; ZE is of the 32 bits (R148; D3, D8, D25: log entries 14, 15, 17). -/
def Obligations.MovLargeToPair : Prop :=
  (∀ (g : LargeReg) (rhi rlo : RegS) (s : State),
    let h := match g with | .rt => s.rh | .pc => upperHalf (s.pcNext 1)
    let l := match g with | .rt => s.rl | .pc => lowerHalf (s.pcNext 1)
    Does (exec (.movLargePair g rhi rlo) s) s (s.pcNext 1)
      (if rhi = rlo then into (regS rhi) h else into (regS rhi) h ++ into (regS rlo) l)
      [(.ze, decide (h = 0#16 ∧ l = 0#16))] []) ∧
  Reads [0x50D1] (.movLargePair .pc .rh .rl)

/-- M6: RT receives the pair, or `pc` receives its 24 bits, `h[7:0] : l`; ZE is of all 32 bits (R149; D4, D8, D24, D25: log
entries 14, 15, 17). -/
def Obligations.MovPairToLarge : Prop :=
  (∀ (rhi rlo : RegS) (s : State),
    let h := s.readS rhi
    let l := s.readS rlo
    Does (exec (.movPairLarge .rt rhi rlo) s) s (s.pcNext 1) [(.rh, h), (.rl, l)] [(.ze, decide (h = 0#16 ∧ l = 0#16))] [] ∧
    Does (exec (.movPairLarge .pc rhi rlo) s) s (pairAddr h l) [] [(.ze, decide (h = 0#16 ∧ l = 0#16))] []) ∧
  (∀ h l : Word, (pairAddr h l).toNat = h.toNat % 256 * 65536 + l.toNat) ∧
  Reads [0x5214] (.movPairLarge .pc .a .b)

/-- M7 (R147; D23: log entry 23). The addresses are `8L : x[R]` (R70). -/
def Obligations.MovWithHighBytes : Prop :=
  (∀ (p q : Bool) (r1 r2 : RegS) (hs hd : Byte) (s : State),
    Moves (exec (.movBytes p q r1 r2 hs hd) s) s 2 (slotValue s p (byteAddr hs (s.readS r1)) (s.readS r1)) q
      (byteAddr hd (s.readS r2)) r2) ∧
  (∀ (h : Byte) (v : Word), (byteAddr h v).toNat = h.toNat * 65536 + v.toNat) ∧
  Reads [0x5107, 0x1234] (.movBytes true true .a .b 0x12 0x34)

/-- M8 and M9: a word between a register and a 24-bit address (R145, R146). -/
def Obligations.MovWith24BitAddress : Prop :=
  (∀ (r1 : RegS) (x : Addr) (s : State),
    Moves (exec (.movLoad24 r1 x) s) s 2 (s.readWord x) false 0#24 r1 ∧
    Moves (exec (.movStore24 r1 x) s) s 2 (s.readS r1) true x r1) ∧
  Reads [0x7912, 0x3456] (.movLoad24 .sp 0x123456) ∧ Reads [0x67FF, 0x0000] (.movStore24 .rl 0xFF0000)

/-- M10: the register receives the literal with the upper 8 bits cleared (R150). -/
def Obligations.MovByteLiteral : Prop :=
  (∀ (r1 : RegS) (lit : Byte) (s : State),
    Moves (exec (.movLit8 r1 lit) s) s 1 (BitVec.ofNat 16 lit.toNat) false 0#24 r1) ∧
  Reads [0x68C8] (.movLit8 .b 200) ∧ Reads [0x6000] (.movLit8 .a 0)

/-! ### PSH and POP -/

/-- M11: the register's value (PL and PH: the halves of `pcnext`, PH zero-extended; F: its five bits zero-extended; SP and F: before
the instruction) goes to `0x00 : SP`, and SP is raised by 1 (R28, R30, R160; D3, D5, D9, D11, D12: log entries 13, 15, 16, 19). -/
def Obligations.PushRegister : Prop :=
  (∀ (r : Reg) (s : State),
    let v := pushedWord s r
    Does (exec (.pshReg r) s) s (s.pcNext 1) [(.sp, s.sp + 1)] [(.ze, v == 0#16)] [(stackAddr s.sp, v)]) ∧
  AddressesOfWords ∧ Reads [0x580F] (.pshReg .a) ∧ Reads [0x58EF] (.pshReg .f)

/-- M12: the high half goes to `0x00 : SP`, the low half to `0x00 : (SP + 1)`, SP is raised by 2 and ZE is of the 32 bits; the
halves are the words that M11 stores (R28, R30, R162; D3, D9, D10, D12, D25: log entries 15, 16, 17, 19). -/
def Obligations.PushPair : Prop :=
  (∀ (rhi rlo : Reg) (s : State),
    let h := pushedWord s rhi
    let l := pushedWord s rlo
    Does (exec (.pshPair rhi rlo) s) s (s.pcNext 1) [(.sp, s.sp + 2)] [(.ze, decide (h = 0#16 ∧ l = 0#16))]
      [(stackAddr s.sp, h), (stackAddr (s.sp + 1), l)]) ∧
  AddressesOfWords ∧ Reads [0x58DC] (.pshPair .ph .pl)

/-- M13 and M14: the literal goes to `0x00 : SP`, 8 bits zero-extended (R163; D9: log entry 16). -/
def Obligations.PushLiteral : Prop :=
  (∀ (lit : Word) (s : State),
    Does (exec (.pshLit16 lit) s) s (s.pcNext 2) [(.sp, s.sp + 1)] [(.ze, lit == 0#16)] [(stackAddr s.sp, lit)]) ∧
  (∀ (lit : Byte) (s : State),
    Does (exec (.pshLit8 lit) s) s (s.pcNext 1) [(.sp, s.sp + 1)] [(.ze, lit == 0#8)]
      [(stackAddr s.sp, BitVec.ofNat 16 lit.toNat)]) ∧
  AddressesOfWords ∧ Reads [0x5B00, 0x1234] (.pshLit16 0x1234) ∧ Reads [0x5A07] (.pshLit8 7)

/-- M15, for every register: the word below SP goes to the register and SP is lowered by 1; a popped SP, PL, PH or F wins over
what the instruction would leave there; ZE is not recomputed after a POP of F (R164, R166; D9, D11: log entry 16). -/
def Obligations.PopRegister : Prop :=
  (∀ (r : Reg) (s : State),
    let v := s.readWord (stackAddr (s.sp - 1))
    let n := s.pcNext 1
    Completes (exec (.popReg r) s) fun t =>
      (∀ x : Reg, x ≠ .z → x ≠ .pl → x ≠ .ph → x ≠ .f →
        t.readReg x = if x = r then v else if x = .sp then s.sp - 1 else s.readReg x) ∧
      t.pc = (if r = .pl then addrOf (litHi n) v else if r = .ph then addrOf (byteLo v) (litLo n) else n) ∧
      (∀ fl : Flag, t.flag fl =
        if r = .f then v.getLsbD (flagBit fl) else if fl = .ze then v == 0#16 else s.flag fl) ∧
      KeepsBytes s t [] ∧ t.istack = s.istack) ∧
  AddressesOfWords ∧ Reads [0x5C0F] (.popReg .a)

/-- M16, for every two registers: the two words below SP go to the pair, the high half from the lower address, and SP is lowered
by 2; where the two meet the high half wins (R165, R166; D9, D10, D11, D25: log entries 16, 17). That POP PL,PH leaves `pc` at
`l[7:0] : h` is the model's choice (log entry 28). -/
def Obligations.PopPair : Prop :=
  (∀ (rhi rlo : Reg) (s : State),
    let l := s.readWord (stackAddr (s.sp - 1))
    let h := s.readWord (stackAddr (s.sp - 2))
    let n := s.pcNext 1
    Completes (exec (.popPair rhi rlo) s) fun t =>
      (∀ x : Reg, x ≠ .z → x ≠ .pl → x ≠ .ph → x ≠ .f →
        t.readReg x = if x = rhi then h else if x = rlo then l else if x = .sp then s.sp - 2 else s.readReg x) ∧
      t.pc = addrOf (if rhi = .ph then byteLo h else if rlo = .ph then byteLo l else litHi n)
        (if rhi = .pl then h else if rlo = .pl then l else litLo n) ∧
      (∀ fl : Flag, t.flag fl =
        if rhi = .f then h.getLsbD (flagBit fl) else if rlo = .f then l.getLsbD (flagBit fl)
        else if fl = .ze then decide (h = 0#16 ∧ l = 0#16) else s.flag fl) ∧
      KeepsBytes s t [] ∧ t.istack = s.istack) ∧
  AddressesOfWords ∧ Reads [0x5CDC] (.popPair .ph .pl)

/-- "`POP R1,R2` exactly undoes `PSH R1:R2`" (R165): once SP and memory are again as the push left them, the pop brings back SP
and both registers, whatever happened to them between; and a pushed PH:PL is popped as a return to the instruction after the
push. The stack discipline is D9 and D10 (log entry 16). -/
def Obligations.PopUndoesPush : Prop :=
  (∀ (x y : Reg) (s t u : State), x ∉ [Reg.sp, .pl, .ph, .f] → y ∉ [Reg.sp, .pl, .ph, .f] →
    exec (.pshPair x y) s = .next t → u.sp = t.sp → u.mem = t.mem →
    Completes (exec (.popPair x y) u) fun v => v.sp = s.sp ∧ v.readReg x = s.readReg x ∧ v.readReg y = s.readReg y) ∧
  (∀ s t u : State, exec (.pshPair .ph .pl) s = .next t → u.sp = t.sp → u.mem = t.mem →
    Completes (exec (.popPair .ph .pl) u) fun v => v.sp = s.sp ∧ v.pc = s.pcNext 1)

/-- "so `PSH F` ... `POP F` restores the flags exactly" (R166): whatever the flags were between (D11: log entry 16). -/
def Obligations.PopFlagsUndoesPushFlags : Prop :=
  ∀ s t u : State, exec (.pshReg .f) s = .next t → u.sp = t.sp → u.mem = t.mem →
    Completes (exec (.popReg .f) u) fun v => v.sp = s.sp ∧ v.f = s.f

/-! ### Branches -/

/-- J1 to J5: the five address forms of JMP, and nothing but `pc` (R180 to R185; D5, D6: log entry 13). A JMP to its own address
ends a run, by the model's choice (R314, D29: log entry 27). -/
def Obligations.JmpGoesToAddress : Prop :=
  (∀ (r1 r2 : RegS) (lit : Word) (x : Addr) (s : State),
    OnlyJumps (exec (.jmpReg r1) s) s (addrOf 0x00#8 (s.readS r1)) ∧
    OnlyJumps (exec (.jmpPair r1 r2) s) s (addrOf (byteLo (s.readS r1)) (s.readS r2)) ∧
    OnlyJumps (exec (.jmpRegLit r1 lit) s) s (addrOf (byteLo (s.readS r1)) lit) ∧
    OnlyJumps (exec (.jmpLitReg r1 lit) s) s (addrOf (byteLo lit) (s.readS r1)) ∧
    OnlyJumps (exec (.jmpLit24 x) s) s x) ∧
  (∀ s : State, Reads [s.readWord s.pc, s.readWord (s.pc + 1)] (.jmpLit24 s.pc) → s.ended = true ∧ ∀ n, run n s = .ended s) ∧
  Reads [0x8000] (.jmpReg .a) ∧ Reads [0x9018] (.jmpPair .b .c) ∧ Reads [0x9910, 0x1000] (.jmpRegLit .b 0x1000) ∧
  Reads [0x9B10, 0x0002] (.jmpLitReg .b 0x0002) ∧ Reads [0x8912, 0x3456] (.jmpLit24 0x123456)

/-- J6 to J10: JSR goes where the JMP of the same operand goes, computed from the registers before, and RT receives the address
of the next instruction, its high half zero-extended (R28, R186; D3, D5, D6, D24: log entries 13, 15, 17). -/
def Obligations.JsrLinksAndGoes : Prop :=
  (∀ (r1 r2 : RegS) (lit : Word) (x : Addr) (s : State),
    Calls (exec (.jsrReg r1) s) s 1 (addrOf 0x00#8 (s.readS r1)) ∧
    Calls (exec (.jsrPair r1 r2) s) s 1 (addrOf (byteLo (s.readS r1)) (s.readS r2)) ∧
    Calls (exec (.jsrRegLit r1 lit) s) s 2 (addrOf (byteLo (s.readS r1)) lit) ∧
    Calls (exec (.jsrLitReg r1 lit) s) s 2 (addrOf (byteLo lit) (s.readS r1)) ∧
    Calls (exec (.jsrLit24 x) s) s 2 x) ∧
  Reads [0x8DFF, 0x002A] (.jsrLit24 0xFF002A)

/-- P1: RTS jumps to RH[7:0] : RL, and nothing else changes (R187). That only RH[7:0] counts is a decision of the spec, D6 (log
entry 13); that the word 90D0 is read as RTS is the model's choice (log entry 9). -/
def Obligations.RtsGoesToRT : Prop :=
  (∀ s : State, OnlyJumps (exec .rts s) s (addrOf (byteLo s.rh) s.rl)) ∧ Reads [0x90D0] .rts

/-- J11 to J13: JCD jumps when its flag is set (AW: always), or every flag of its mask; the offset is signed and counted from the
next instruction (R189 to R193; D3, D13, D14, D28: log entries 6, 15, 20). -/
def Obligations.JcdJumpsWhenSet : Prop :=
  (∀ (fl : Flag) (r1 : RegS) (off : BitVec 7) (m : Flags) (lit : Word) (s : State),
    OnlyJumps (exec (.jcdReg (.flag fl) r1) s) s (branchTo s 1 (s.flag fl) (s.readS r1).toInt) ∧
    OnlyJumps (exec (.jcdReg .aw r1) s) s (branchTo s 1 true (s.readS r1).toInt) ∧
    OnlyJumps (exec (.jcdLit7 (.flag fl) off) s) s (branchTo s 1 (s.flag fl) off.toInt) ∧
    OnlyJumps (exec (.jcdLit7 .aw off) s) s (branchTo s 1 true off.toInt) ∧
    OnlyJumps (exec (.jcdMask m lit) s) s (branchTo s 2 (maskSet s m) lit.toInt)) ∧
  Reads [0xB280] (.jcdReg (.flag .ze) .a) ∧ Reads [0xB27D] (.jcdLit7 (.flag .ze) (-3)) ∧
  Reads [0xB103, 0x0064] (.jcdMask 0b00011 100)

/-- J14 to J16: JCC jumps when its flag is clear, or every flag of its mask (R189, R190, R194 to R196; D3, D13, D28: log entries
15, 20). -/
def Obligations.JccJumpsWhenClear : Prop :=
  (∀ (fl : Flag) (r1 : RegS) (off : BitVec 7) (m : Flags) (lit : Word) (s : State),
    OnlyJumps (exec (.jccReg fl r1) s) s (branchTo s 1 (!s.flag fl) (s.readS r1).toInt) ∧
    OnlyJumps (exec (.jccLit7 fl off) s) s (branchTo s 1 (!s.flag fl) off.toInt) ∧
    OnlyJumps (exec (.jccMask m lit) s) s (branchTo s 2 (maskClear s m) lit.toInt)) ∧
  Reads [0xA090] (.jccReg .ca .b) ∧ Reads [0xA27C] (.jccLit7 .ze (-4)) ∧ Reads [0xA102, 0x0018] (.jccMask 0b00010 24)

/-- J17: JCN jumps when every flag of the first mask is set and every flag of the second is clear; a flag in both masks never
jumps (R189, R190, R197; D13, D15, D28: log entries 15, 20). -/
def Obligations.JcnTestsBothMasks : Prop :=
  (∀ (off : Byte) (ms mc : Flags) (s : State),
    OnlyJumps (exec (.jcn off ms mc) s) s (branchTo s 2 (maskSet s ms && maskClear s mc) off.toInt) ∧
    (ms &&& mc ≠ 0#5 → OnlyJumps (exec (.jcn off ms mc) s) s (s.pcNext 2))) ∧
  Reads [0xA5FC, 0x0201] (.jcn (-4) 0b00010 0b00001)

/-- P5 to P7: JRL always jumps (R198; D13, D14: log entries 6, 20). The end of a run is the model's choice (R314, D29: log entry
27): a run has ended where a step changes nothing, as at `JRL -1`, and until then it goes on step by step. -/
def Obligations.JrlAlwaysJumps : Prop :=
  (∀ (r1 : RegS) (off : BitVec 7) (lit : Word) (s : State),
    OnlyJumps (exec (.jrlReg r1) s) s (s.pcNext 1 + BitVec.ofInt 24 (s.readS r1).toInt) ∧
    OnlyJumps (exec (.jrlLit7 off) s) s (s.pcNext 1 + BitVec.ofInt 24 off.toInt) ∧
    OnlyJumps (exec (.jrlLit16 lit) s) s (s.pcNext 2 + BitVec.ofInt 24 lit.toInt)) ∧
  (∀ s : State, (s.ended = true ↔ step s = .next s) ∧
    (s.readWord s.pc = 0xBA7F#16 → s.ended = true ∧ ∀ n, run n s = .ended s) ∧
    ∀ (t : State) (n : Nat), s.ended = false → step s = .next t → run (n + 1) s = run n t) ∧
  Reads [0xBA80] (.jrlReg .a) ∧ Reads [0xBA7F] (.jrlLit7 (-1)) ∧ Reads [0xB100, 0x0100] (.jrlLit16 0x0100)

/-- P1 to P7: a second name means what the instruction it stands for means, and has its words (R128, R187, R198, R226; log
entry 9). -/
def Obligations.SecondNamesMeanCoreForms : Prop :=
  ∀ (r1 r2 : RegA) (r : RegS) (off : BitVec 7) (lit : Word) (s : State),
    (exec .rts s = exec (.jmpPair .rh .rl) s ∧ encode .rts = encode (.jmpPair .rh .rl)) ∧
    (exec (.cmpRegs r1 r2) s = exec (.sbcRegs r1 r2 .z) s ∧ encode (.cmpRegs r1 r2) = encode (.sbcRegs r1 r2 .z)) ∧
    (exec (.cmpLit r1 lit) s = exec (.sbcLit r1 lit .z) s ∧ encode (.cmpLit r1 lit) = encode (.sbcLit r1 lit .z)) ∧
    (exec (.cmpLitRev r1 lit) s = exec (.sbcLitRev r1 lit .z) s ∧ encode (.cmpLitRev r1 lit) = encode (.sbcLitRev r1 lit .z)) ∧
    (exec (.jrlReg r) s = exec (.jcdReg .aw r) s ∧ encode (.jrlReg r) = encode (.jcdReg .aw r)) ∧
    (exec (.jrlLit7 off) s = exec (.jcdLit7 .aw off) s ∧ encode (.jrlLit7 off) = encode (.jcdLit7 .aw off)) ∧
    (exec (.jrlLit16 lit) s = exec (.jcdMask 0 lit) s ∧ encode (.jrlLit16 lit) = encode (.jcdMask 0 lit))

/-- RTS returns to the instruction after the JSR, if RT is again as the JSR left it (R186, R187, R199; D3: log entry 15). -/
def Obligations.RtsReturnsFromJsr : Prop :=
  ∀ (r1 r2 : RegS) (lit : Word) (x : Addr) (s t u : State) (i : Instr) (n : Nat),
    (i, n) ∈ [(Instr.jsrReg r1, 1), (.jsrPair r1 r2, 1), (.jsrRegLit r1 lit, 2), (.jsrLitReg r1 lit, 2), (.jsrLit24 x, 2)] →
    exec i s = .next t → u.rh = t.rh → u.rl = t.rl → OnlyJumps (exec .rts u) u (s.pcNext n)

/-! ### Arithmetic -/

/-- A1 and A8: ADD is the sum modulo 2^16; ZE is the only flag it writes (R222; that ZE is cleared when the result is not zero is
D16: log entry 18). -/
def Obligations.AddWritesSumAndZE : Prop :=
  (∀ (r1 r2 r3 : RegA) (lit : Word) (s : State),
    Computes (exec (.addRegs r1 r2 r3) s) s 1 r3 (s.readA r1 + s.readA r2) [(.ze, s.readA r1 + s.readA r2 == 0#16)] ∧
    Computes (exec (.addLit r1 lit r3) s) s 2 r3 (s.readA r1 + lit) [(.ze, s.readA r1 + lit == 0#16)]) ∧
  Reads [0xE006] (.addRegs .a .b .c) ∧ Reads [0xE100, 0x0001] (.addLit .a 1 .a)

/-- A2 and A9: ADC over exact integers, with carry and signed overflow (R223; D16: log entry 18). -/
def Obligations.AdcWritesSumAndCarry : Prop :=
  (∀ (r1 r2 r3 : RegA) (lit : Word) (s : State),
    AddsWithCarry (exec (.adcRegs r1 r2 r3) s) s 1 (s.readA r1) (s.readA r2) r3 ∧
    AddsWithCarry (exec (.adcLit r1 lit r3) s) s 2 (s.readA r1) lit r3) ∧
  Reads [0xEAC6] (.adcRegs .aa .ab .ac)

/-- A3, A10, A11: SUB is the difference modulo 2^16, in both orders with a literal; ZE is the only flag it writes (R224; D16: log
entry 18). -/
def Obligations.SubWritesDifferenceAndZE : Prop :=
  (∀ (r1 r2 r3 : RegA) (lit : Word) (s : State),
    Computes (exec (.subRegs r1 r2 r3) s) s 1 r3 (s.readA r1 - s.readA r2) [(.ze, s.readA r1 - s.readA r2 == 0#16)] ∧
    Computes (exec (.subLit r1 lit r3) s) s 2 r3 (s.readA r1 - lit) [(.ze, s.readA r1 - lit == 0#16)] ∧
    Computes (exec (.subLitRev r1 lit r3) s) s 2 r3 (lit - s.readA r1) [(.ze, lit - s.readA r1 == 0#16)]) ∧
  Reads [0xF006] (.subRegs .a .b .c) ∧ Reads [0xF105, 0x000A] (.subLitRev .a 10 .b)

/-- A4, A12, A13: SBC over exact integers, with borrow and signed overflow (R225; D16: log entry 18). -/
def Obligations.SbcWritesDifferenceAndBorrow : Prop :=
  (∀ (r1 r2 r3 : RegA) (lit : Word) (s : State),
    SubtractsWithBorrow (exec (.sbcRegs r1 r2 r3) s) s 1 (s.readA r1) (s.readA r2) r3 ∧
    SubtractsWithBorrow (exec (.sbcLit r1 lit r3) s) s 2 (s.readA r1) lit r3 ∧
    SubtractsWithBorrow (exec (.sbcLitRev r1 lit r3) s) s 2 lit (s.readA r1) r3) ∧
  Reads [0xFB12, 0x0010] (.sbcLit .b 16 .ac)

/-- P2 to P4: CMP writes the flags of SBC and no register; with CA clear, ZE says equal and CA says below, unsigned; with CA set
the comparison is made on arg1 - 1 (R226). -/
def Obligations.CmpOrdersItsOperands : Prop :=
  (∀ (r1 r2 : RegA) (lit : Word) (s : State),
    Compares (exec (.cmpRegs r1 r2) s) s 1 (s.readA r1) (s.readA r2) ∧
    Compares (exec (.cmpLit r1 lit) s) s 2 (s.readA r1) lit ∧
    Compares (exec (.cmpLitRev r1 lit) s) s 2 lit (s.readA r1)) ∧
  Reads [0xFA07] (.cmpRegs .a .b) ∧ Reads [0xFB03, 0x0005] (.cmpLit .a 5) ∧ Reads [0xFB07, 0x0005] (.cmpLitRev .a 5)

/-- A5 to A7, A14 to A16: the bitwise operations; ZE is the only flag they write (R231, R232, R233). -/
def Obligations.LogicWritesResultAndZE : Prop :=
  (∀ (r1 r2 r3 : RegA) (lit : Word) (s : State),
    let x := s.readA r1
    let y := s.readA r2
    Computes (exec (.andRegs r1 r2 r3) s) s 1 r3 (x &&& y) [(.ze, x &&& y == 0#16)] ∧
    Computes (exec (.andLit r1 lit r3) s) s 2 r3 (x &&& lit) [(.ze, x &&& lit == 0#16)] ∧
    Computes (exec (.iorRegs r1 r2 r3) s) s 1 r3 (x ||| y) [(.ze, x ||| y == 0#16)] ∧
    Computes (exec (.iorLit r1 lit r3) s) s 2 r3 (x ||| lit) [(.ze, x ||| lit == 0#16)] ∧
    Computes (exec (.xorRegs r1 r2 r3) s) s 1 r3 (x ^^^ y) [(.ze, x ^^^ y == 0#16)] ∧
    Computes (exec (.xorLit r1 lit r3) s) s 2 r3 (x ^^^ lit) [(.ze, x ^^^ lit == 0#16)]) ∧
  Reads [0xC006] (.andRegs .a .b .c) ∧ Reads [0xC100, 0x00FF] (.andLit .a 0x00FF .a) ∧
  Reads [0xC8CC] (.iorRegs .aa .z .a) ∧ Reads [0xD800] (.xorRegs .a .a .a)

/-- A17 to A20: shifts and rotates by one bit; CA is the bit that leaves, and a rotate does not pass through CA (R227 to R230). -/
def Obligations.ShiftsWriteResultAndCarry : Prop :=
  (∀ (r1 r3 : RegA) (s : State),
    let x := s.readA r1
    Computes (exec (.lsl r1 r3) s) s 1 r3 (x <<< 1) [(.ca, x.getLsbD 15), (.ze, x <<< 1 == 0#16)] ∧
    Computes (exec (.rol r1 r3) s) s 1 r3 (x.rotateLeft 1) [(.ca, x.getLsbD 15), (.ze, x.rotateLeft 1 == 0#16)] ∧
    Computes (exec (.lsr r1 r3) s) s 1 r3 (x >>> 1) [(.ca, x.getLsbD 0), (.ze, x >>> 1 == 0#16)] ∧
    Computes (exec (.ror r1 r3) s) s 1 r3 (x.rotateRight 1) [(.ca, x.getLsbD 0), (.ze, x.rotateRight 1 == 0#16)]) ∧
  Reads [0xC400] (.lsl .a .a) ∧ Reads [0xCE10] (.rol .b .aa) ∧ Reads [0xD422] (.lsr .c .c) ∧ Reads [0xDC80] (.ror .aa .a)

/-- The equivalent bit formula for OV after ADC, and the like for SBC: over the sign bits of the operands and of the result (R223,
an inference the spec marks as derived). -/
def Obligations.OverflowBitFormula : Prop :=
  ∀ (x y : Word) (c : Bool),
    (let r := x + y + BitVec.ofNat 16 c.toNat
     addOverflows x y c = ((x.getLsbD 15 == y.getLsbD 15) && (r.getLsbD 15 != x.getLsbD 15))) ∧
    (let r := x - y - BitVec.ofNat 16 c.toNat
     subOverflows x y c = ((x.getLsbD 15 != y.getLsbD 15) && (r.getLsbD 15 != x.getLsbD 15)))

/-- A 32-bit addition is `CLF CA; ADC lo; ADC hi`, a 32-bit subtraction `CLF CA; SBC lo; SBC hi`: when the first result does not
overwrite an operand of the second, the pair of destinations holds the 32-bit result and CA its carry or borrow (R234, an
inference the spec marks as derived). -/
def Obligations.CarryChainIs32BitArithmetic : Prop :=
  ∀ (xh xl yh yl dh dl : RegA) (s : State),
    dl ≠ .z → dh ≠ .z → dl ≠ dh → dl ≠ xh → dl ≠ yh →
    let x : BitVec 32 := s.readA xh ++ s.readA xl
    let y : BitVec 32 := s.readA yh ++ s.readA yl
    Completes (exec (.clf 0b00001) s) fun s1 =>
      (Completes (exec (.adcRegs xl yl dl) s1) fun s2 => Completes (exec (.adcRegs xh yh dh) s2) fun s3 =>
        (s3.readA dh ++ s3.readA dl : BitVec 32) = x + y ∧ s3.flag .ca = decide (2 ^ 32 ≤ x.toNat + y.toNat)) ∧
      (Completes (exec (.sbcRegs xl yl dl) s1) fun s2 => Completes (exec (.sbcRegs xh yh dh) s2) fun s3 =>
        (s3.readA dh ++ s3.readA dl : BitVec 32) = x - y ∧ s3.flag .ca = decide (x.toNat < y.toNat))

/-! ### The other family -/

/-- O1: NOP only advances `pc`; B2 is ignored, and `0000xxx0` with `xxx` not 000 is not NOP but unassigned (R261). -/
def Obligations.NopOnlyAdvances : Prop :=
  (∀ s : State, OnlyJumps (exec .nop s) s (s.pcNext 1)) ∧
  (∀ (b2 : Byte) (w2 : Word), decode (wordOf 0b00000000#8 b2) w2 = .ok .nop) ∧
  (∀ (x : BitVec 3) (b2 : Byte) (w2 : Word), x ≠ 0#3 →
    decode (wordOf (0b0000#4 ++ x ++ 0b0#1) b2) w2 = .error .unassignedOpcode) ∧
  Reads [0x0000] .nop

/-- O2 and O3: SEF sets, and CLF clears, exactly the flags of the mask (R262, R263; D12: log entry 19). -/
def Obligations.SefSetsAndClfClears : Prop :=
  (∀ (m : Flags) (s : State),
    (Completes (exec (.sef m) s) fun t => Effect { s with f := t.f } t (s.pcNext 1) [] [] [] s.istack ∧
      ∀ fl : Flag, t.flag fl = if m.getLsbD (flagBit fl) then true else s.flag fl) ∧
    (Completes (exec (.clf m) s) fun t => Effect { s with f := t.f } t (s.pcNext 1) [] [] [] s.istack ∧
      ∀ fl : Flag, t.flag fl = if m.getLsbD (flagBit fl) then false else s.flag fl)) ∧
  Reads [0x1016] (.sef 0b10110) ∧ Reads [0x3001] (.clf 0b00001) ∧ Reads [0x301F] (.clf 0b11111)

/-- O4: ITR with DI set only advances; with DI clear and room on the stack it pushes the address of the next instruction, loads I
with the id and goes to the handler, whatever INT_VECTOR is; with DI clear and 4 entries it faults (R266, R284, R286; D17, D18:
log entries 5, 22). -/
def Obligations.ItrEntersTheHandler : Prop :=
  (∀ (id : Byte) (s : State),
    (s.flag .di = true → OnlyJumps (exec (.itr id) s) s (s.pcNext 1)) ∧
    (s.flag .di = false → s.istack.length ≠ 4 →
      Completes (exec (.itr id) s) fun t =>
        Effect s t (Config.intVector id) [(.i, BitVec.ofNat 16 id.toNat)] [] [] (s.pcNext 1 :: s.istack)) ∧
    (s.flag .di = false → s.istack.length = 4 → exec (.itr id) s = .fault .interruptStackOverflow)) ∧
  Reads [0x2003] (.itr 3)

/-- O5: RTI goes to the newest return address and removes it, and changes nothing else; with none it faults (R267, R287; D18: log
entry 22). -/
def Obligations.RtiReturnsToNewestAddress : Prop :=
  (∀ (s : State) (ra : Addr) (rest : List Addr), s.istack = ra :: rest →
    Completes (exec .rti s) fun t => Effect s t ra [] [] [] rest) ∧
  (∀ s : State, s.istack = [] → exec .rti s = .fault .interruptStackUnderflow) ∧
  Reads [0x2200] .rti

/-- An interrupt that is taken is returned from: after the handler, with the interrupt stack again as the entry left it, RTI goes
to the instruction after the ITR and the stack is as before it (R284, R287; D17, D18: log entry 22). -/
def Obligations.RtiReturnsFromItr : Prop :=
  ∀ (id : Byte) (s t u : State), s.flag .di = false → exec (.itr id) s = .next t → u.istack = t.istack →
    Completes (exec .rti u) fun v => v.pc = s.pcNext 1 ∧ v.istack = s.istack

/-! ### The whole machine -/

/-- "No instruction other than SEF, CLF and POP F ever changes NE or DI" (R33). -/
def Obligations.OnlySefClfPopFChangeNeDi : Prop :=
  ∀ (i : Instr) (s t : State), mayWriteNeDi i = false → exec i s = .next t →
    t.flag .ne = s.flag .ne ∧ t.flag .di = s.flag .di

/-- ITR pushes onto the interrupt stack, RTI pops from it, "no other instruction reads or writes it" (R31): every other instruction
leaves it as it is, and does the same to everything else whatever it holds. -/
def Obligations.OnlyItrRtiUseInterruptStack : Prop :=
  ∀ (i : Instr) (s : State) (stack : List Addr), (∀ id, i ≠ .itr id) → i ≠ .rti →
    Completes (exec i s) fun t => t.istack = s.istack ∧
      exec i { s with istack := stack } = .next { t with istack := stack }

/-- Only PSH and a MOV with a memory destination store: every other instruction leaves every byte of memory as it is (R69, and the
prefaces of the branch, arithmetic and other families). -/
def Obligations.OnlyMovAndPshStore : Prop :=
  ∀ (i : Instr) (s t : State), mayStore i = false → exec i s = .next t → KeepsBytes s t []

/-- AA, AB and AC are reachable by arithmetic instructions and by PSH and POP only (R24): an instruction that neither computes into
nor pops one of them leaves it as it is. -/
def Obligations.ArithmeticRegistersAreReachedByArithmeticAndPop : Prop :=
  ∀ (i : Instr) (s t : State) (d : RegA), d ∈ [RegA.aa, .ab, .ac] → d ∉ arithDests i → regA d ∉ popDests i →
    exec i s = .next t → t.readA d = s.readA d

/-- The line that says an instruction is assembled into it: the list that the line gives holds exactly the instructions that the
line says, each of them well formed. In JMP and JSR the `$` may be left out with the same meaning. Then lines of the spec, and of
its forms, and what they are (R125 to R128). The line itself, `asmLine`, the forms
that have none, `hasText`, and the order of the list are the model's choice (log entry 26), and so is that a line with a second name
gives that name (log entry 9). -/
def Obligations.LinesAssembleToWhatTheySay : Prop :=
  (∀ i : Instr, WellFormed i → hasText i = true →
    ∃ is, assemble (asmLine i) = .ok is ∧ ∀ j : Instr, j ∈ is ↔ WellFormed j ∧ hasText j = true ∧ asmLine j = asmLine i) ∧
  (∀ mnemonic ∈ ["JMP".toList, "JSR".toList], ∀ (t : AsmToken) (ts : List AsmToken), t ≠ .dollar →
    assembleTokens (.name mnemonic :: .dollar :: t :: ts) = assembleTokens (.name mnemonic :: t :: ts)) ∧
  assemble "MOV $A:RL > B".toList = .ok [.movHiReg true false .b .rl .a] ∧
  assemble "MOV 528 > $A:B".toList = .ok [.movLitHi false true .b .a 528] ∧
  assemble "MOV PC > RH:RL".toList = .ok [.movLargePair .pc .rh .rl] ∧
  assemble "MOV 200 > B".toList = .ok [.movLit8 .b 200, .movLitHi false false .b .z 200] ∧
  assemble "MOV $0010 > $2004".toList = .error .radixNotStated ∧
  assemble "MOV $0x0010 > $0x2004".toList = .error .noRow ∧
  assemble "PSH PH,PL".toList = .ok [.pshPair .ph .pl] ∧ assemble "PSH PC".toList = .ok [.pshPair .ph .pl] ∧
  assemble "POP RH:RL".toList = .ok [.popPair .rh .rl] ∧
  assemble "JCC ZE 24".toList = .ok [.jccLit7 .ze 24, .jccMask 0b00010 24] ∧
  assemble "JCN ZE,!CA -4".toList = .ok [.jcn (-4) 0b00010 0b00001] ∧
  assemble "JSR 0xFF002A".toList = .ok [.jsrLit24 0xFF002A] ∧ assemble "JMP $100".toList = .ok [.jmpLit24 100] ∧
  assemble "JMP 100".toList = .ok [.jmpLit24 100] ∧ assemble "JSR $A:4096".toList = .ok [.jsrRegLit .a 4096] ∧
  assemble "SBC B,16 > AC".toList = .ok [.sbcLit .b 16 .ac] ∧
  assemble "SEF ZE,OV,DI".toList = .ok [.sef 0b10110] ∧
  assemble "JMP $RH:RL".toList = .ok [.rts] ∧ assemble "RTS".toList = .ok [.rts] ∧
  assemble "SBC A,B > Z".toList = .ok [.cmpRegs .a .b] ∧ assemble "JCD AW -1".toList = .ok [.jrlLit7 (-1), .jrlLit16 (-1)] ∧
  asmLine (.movRegHi false true .a .c .b) = "MOV A > $B:C".toList ∧
  asmLine (.movBytes true true .a .b 0x12 0x34) = "MOV $0x12:A > $0x34:B".toList ∧
  asmLine (.jcn (-4) 0b00010 0b00001) = "JCN ZE,!CA -4".toList
end

