-- ==== Sys2Proof/Laws/Assembly.lean ====
section
/-!
SUPPORT. Reading back what was written: numerals, names, and the tokens of a spelled line (spec/30_encoding.md R125).
-/

namespace Sys2Proof.Machine

/-! ### Numerals -/

theorem asmDigit_digitChar {d : Nat} (h : d < 16) : asmDigit (digitChar d) = some d := by
  revert d; decide

theorem asmInRun_digitChar {d : Nat} (h : d < 16) : asmInRun (digitChar d) = true := by
  revert d; decide

theorem digitChar_decimal {d : Nat} (h : d < 10) : 48 ≤ (digitChar d).toNat ∧ (digitChar d).toNat ≤ 57 := by
  revert d; decide

theorem asmNumber_append (base : Nat) (xs ys : List Char) : ∀ acc,
    asmNumber base (xs ++ ys) acc = (asmNumber base xs acc).bind (asmNumber base ys) := by
  induction xs with
  | nil => intro acc; rfl
  | cons x xs ih =>
    intro acc
    rw [List.cons_append, asmNumber, asmNumber]
    split
    · rfl
    · split
      · exact ih _
      · rfl

theorem asmNumber_digit {base d : Nat} (hd : d < base) (hb : base ≤ 16) (acc : Nat) :
    asmNumber base [digitChar d] acc = some (acc * base + d) := by
  rw [asmNumber, asmDigit_digitChar (by omega)]
  simp [hd, asmNumber]

/-- A numeral reads back as its number. -/
theorem asmNumber_numeral {base : Nat} (h2 : 2 ≤ base) (hb : base ≤ 16) (fuel : Nat) : ∀ n < base ^ fuel,
    asmNumber base (numeral base fuel n) 0 = some n := by
  induction fuel with
  | zero => intro n hn; simp at hn; subst hn; rfl
  | succ fuel ih =>
    intro n hn
    rw [numeral]
    split
    · rename_i hlt; rw [asmNumber_digit hlt hb]; simp
    · rw [asmNumber_append, ih (n / base) (by rw [Nat.div_lt_iff_lt_mul (by omega)]; rwa [pow_succ] at hn), Option.bind_some,
        asmNumber_digit (Nat.mod_lt _ (by omega)) hb, Nat.div_add_mod']

/-- The characters of a numeral are digits. -/
theorem mem_numeral {base : Nat} (h2 : 2 ≤ base) (fuel : Nat) : ∀ n, ∀ ch ∈ numeral base fuel n, ∃ d < base, ch = digitChar d := by
  induction fuel with
  | zero => intro n ch h; simp [numeral] at h
  | succ fuel ih =>
    intro n ch h
    rw [numeral] at h
    split at h
    · rename_i hlt; exact ⟨n, hlt, by simpa using h⟩
    · rcases List.mem_append.1 h with h | h
      · exact ih _ ch h
      · exact ⟨n % base, Nat.mod_lt _ (by omega), by simpa using h⟩

theorem numeral_ne_nil (base fuel n : Nat) : numeral base (fuel + 1) n ≠ [] := by
  rw [numeral]; split <;> simp

/-! ### Tokens -/

/-- A token that can be spelled: a name of capitals, or a number of at most 24 bits. -/
def AsmToken.ok : AsmToken → Bool
  | .name letters => !letters.isEmpty && letters.all fun x => 65 ≤ x.toNat && x.toNat ≤ 90
  | .number n _ => n < 2 ^ 24
  | .dollar | .colon | .comma | .into | .bang | .minus => true

theorem asmRun_name {letters : List Char} (h : (AsmToken.name letters).ok = true) :
    asmRun letters = some [.name letters] ∧ letters.all asmInRun = true := by
  simp only [AsmToken.ok, Bool.and_eq_true, List.all_eq_true] at h
  obtain ⟨hne, hall⟩ := h
  cases letters with
  | nil => simp at hne
  | cons ch rest =>
    have hch := hall ch (by simp)
    simp only [decide_eq_true_eq] at hch
    refine ⟨?_, ?_⟩
    · unfold asmRun
      split
      · contradiction
      · rename_i heq
        rw [(List.cons.inj heq).1] at hch
        exact absurd hch.1 (by decide)
      · rename_i heq
        obtain ⟨rfl, rfl⟩ := List.cons.inj heq
        rw [if_neg (by omega), if_pos (by simpa [List.all_eq_true] using hall)]
    · rw [List.all_eq_true]
      intro x hx
      have := hall x hx
      simp only [decide_eq_true_eq] at this
      simp [asmInRun, this]

theorem asmRun_hex {n : Nat} (h : n < 2 ^ 24) :
    asmRun ('0' :: 'x' :: numeral 16 24 n) = some [.number n true] ∧
      ('0' :: 'x' :: numeral 16 24 n).all asmInRun = true := by
  constructor
  · rw [asmRun]
    · rw [asmNumber_numeral (by decide) (by decide) 24 n (lt_trans h (by decide))]; rfl
    · exact numeral_ne_nil 16 23 n
  · rw [List.all_cons, List.all_cons, show asmInRun '0' = true from rfl, show asmInRun 'x' = true from rfl,
      Bool.true_and, Bool.true_and, List.all_eq_true]
    intro ch hch
    obtain ⟨d, hd, rfl⟩ := mem_numeral (by decide) 24 n ch hch
    exact asmInRun_digitChar hd

theorem asmRun_decimal {n : Nat} (h : n < 2 ^ 24) :
    asmRun (numeral 10 24 n) = some [.number n false] ∧ (numeral 10 24 n).all asmInRun = true := by
  have hmem := mem_numeral (base := 10) (by decide) 24 n
  have hnum := asmNumber_numeral (base := 10) (by decide) (by decide) 24 n (lt_trans h (by decide))
  constructor
  · generalize hds : numeral 10 24 n = ds at *
    unfold asmRun
    split
    · exact absurd hds (numeral_ne_nil 10 23 n)
    · obtain ⟨d, hd, he⟩ := hmem 'x' (by simp)
      have := digitChar_decimal hd
      rw [← he] at this
      exact absurd this (by decide)
    · rename_i ch rest _
      obtain ⟨d, hd, he⟩ := hmem ch (by simp)
      have := digitChar_decimal hd
      rw [← he] at this
      rw [if_pos this, hnum]; rfl
  · rw [List.all_eq_true]
    intro ch hch
    obtain ⟨d, hd, rfl⟩ := hmem ch hch
    exact asmInRun_digitChar (by omega)

/-- The spelling of a name or a number is one run, which reads back as it. -/
theorem AsmToken.spell_run {t : AsmToken} (hr : t.isRun = true) (ht : t.ok = true) :
    asmRun t.spell = some [t] ∧ t.spell.all asmInRun = true := by
  cases t with
  | name letters => exact asmRun_name ht
  | number n hex =>
    have hn : n < 2 ^ 24 := by simpa [AsmToken.ok] using ht
    cases hex
    · exact asmRun_decimal hn
    · exact asmRun_hex hn
  | _ => cases hr

/-- The spelling of a mark is one character, which reads back as it. -/
theorem AsmToken.spell_mark {t : AsmToken} (hr : t.isRun = false) :
    ∃ ch, t.spell = [ch] ∧ asmInRun ch = false ∧ asmMark ch = some [t] := by
  cases t <;> first | exact ⟨_, rfl, rfl, rfl⟩ | cases hr

theorem asmTokens_run (r rest : List Char) : ∀ acc, r.all asmInRun = true →
    asmTokens (r ++ rest) acc = asmTokens rest (acc ++ r) := by
  induction r with
  | nil => intro acc _; simp
  | cons ch r ih =>
    intro acc h
    simp only [List.all_cons, Bool.and_eq_true] at h
    rw [List.cons_append, asmTokens, if_pos h.1, ih _ h.2]; simp

theorem asmTokens_mark {ch : Char} (rest acc : List Char) {before mark after : List AsmToken} (hch : asmInRun ch = false)
    (hb : asmRun acc = some before) (hm : asmMark ch = some mark) (ha : asmTokens rest [] = some after) :
    asmTokens (ch :: rest) acc = some (before ++ mark ++ after) := by
  rw [asmTokens, if_neg (by simp [hch]), hb, hm, ha]

/-- A spelled line reads back as its tokens. -/
theorem asmTokens_spell (ts : List AsmToken) : (∀ t ∈ ts, t.ok = true) → asmTokens (spell ts) [] = some ts := by
  induction ts with
  | nil => intro _; rfl
  | cons t ts ih =>
    intro h
    have ht := h t (by simp)
    have ih := ih fun u hu => h u (by simp [hu])
    cases ts with
    | nil =>
      rw [spell]
      cases hr : t.isRun
      · obtain ⟨ch, hs, hch, hm⟩ := AsmToken.spell_mark hr
        rw [hs, asmTokens_mark [] [] hch rfl hm rfl]; rfl
      · obtain ⟨hs, hall⟩ := AsmToken.spell_run hr ht
        rw [← List.append_nil t.spell, asmTokens_run _ _ _ hall, asmTokens]; exact hs
    | cons u ts =>
      rw [spell]
      cases hr : t.isRun
      · obtain ⟨ch, hs, hch, hm⟩ := AsmToken.spell_mark hr
        rw [hs]
        cases hsp : spaced t u
        · exact asmTokens_mark _ [] hch rfl hm ih
        · exact asmTokens_mark _ [] hch rfl hm (asmTokens_mark (ch := ' ') _ [] rfl rfl rfl ih)
      · obtain ⟨hs, hall⟩ := AsmToken.spell_run hr ht
        rw [List.append_assoc, asmTokens_run _ _ _ hall, List.nil_append]
        cases hsp : spaced t u
        · have hu : u.isRun = false := by
            revert hsp; unfold spaced; rw [hr]; cases u <;> simp [AsmToken.begins, AsmToken.isRun]
          obtain ⟨ch, hcs, hch, hm⟩ := AsmToken.spell_mark hu
          have hcons : ∃ rest, spell (u :: ts) = ch :: rest := by
            cases ts <;> simp [spell, hcs]
          obtain ⟨rest, hrest⟩ := hcons
          rw [if_neg (by simp), List.nil_append, hrest]
          rw [hrest, asmTokens, if_neg (by simp [hch]), hm] at ih
          rw [asmTokens, if_neg (by simp [hch]), hs, hm]
          revert ih
          cases asmTokens rest [] with
          | none => simp [asmRun]
          | some after => simp [asmRun]
        · exact asmTokens_mark (ch := ' ') _ _ rfl hs rfl ih

/-! ### Names, literals, offsets, flags -/

@[simp] theorem asmRegs_regName (r : Reg) : asmRegs.lookup (regName r) = some (.reg r) := by cases r <;> decide

@[simp] theorem asmRegs_largeName (g : LargeReg) : asmRegs.lookup (largeName g) = some (.large g) := by cases g <;> decide

@[simp] theorem asmConds_flagName (fl : Flag) : asmConds.lookup (flagName fl) = some (.flag fl) := by cases fl <;> decide

@[simp] theorem asmConds_condName (cond : Cond) : asmConds.lookup (condName cond) = some cond := by
  cases cond with
  | flag fl => cases fl <;> decide
  | aw => decide

@[simp] theorem asmRegS_regS (r : RegS) : asmRegS (regS r) = some r := by cases r <;> rfl

@[simp] theorem asmRegA_regA (r : RegA) : asmRegA (regA r) = some r := by cases r <;> rfl

@[simp] theorem asmRegHi_regHi (r : RegHi) : asmRegHi (regHi r) = some r := by cases r <;> rfl

/-- Which literals fit a field of `m` bits. -/
theorem asmLit_toNat {n m : Nat} (x : BitVec n) :
    asmLit m (x.toNat : Int) = if x.toNat < 2 ^ m then some (x.setWidth m) else none := by
  show (if x.toNat < 2 ^ m then some (BitVec.ofNat m x.toNat) else none) = _
  rw [BitVec.ofNat_toNat]

/-- A literal fits its own width. -/
@[simp] theorem asmLit_self {n : Nat} (x : BitVec n) : asmLit n (x.toNat : Int) = some x := by
  rw [asmLit_toNat, if_pos x.isLt, BitVec.setWidth_eq]

/-- An offset fits its own width. -/
theorem asmOff_self {n : Nat} (x : BitVec (n + 1)) : asmOff (n + 1) x.toInt = some x := by
  have h1 := x.toInt_lt
  have h2 := x.le_toInt
  unfold asmOff
  rw [if_pos ⟨h2, h1⟩, BitVec.ofInt_toInt]

/-- An offset reads back as its value. -/
theorem asmOperand_offTokens {n : Nat} (off : BitVec n) :
    asmOperand false (offTokens off) = .ok (⟨false, none, .num off.toInt⟩, []) := by
  unfold offTokens
  split
  · rename_i h; simp [asmOperand, asmAtom, abs_of_neg h]
  · rename_i h; simp [asmOperand, asmAtom, abs_of_nonneg (not_lt.1 h)]

/-- The flags of a mask are that mask. -/
theorem asmMask_flagsOf (m : Flags) : asmMask ((flagsOf m).map .flag) = some m := by revert m; decide

/-- A list of flags reads back, up to what is no comma. -/
theorem asmFlags_testsTokens (xs : List (Bool × Flag)) : xs ≠ [] → ∀ rest, (∀ ts, rest ≠ .comma :: ts) →
    asmFlags (testsTokens xs ++ rest) = some (xs.map fun y => (y.1, .flag y.2), rest) := by
  induction xs with
  | nil => intro h; exact absurd rfl h
  | cons x xs ih =>
    intro _ rest hr
    obtain ⟨b, fl⟩ := x
    cases xs with
    | nil =>
      cases rest with
      | nil => cases b <;> simp [testsTokens, testTokens, asmFlags]
      | cons t rest => cases t <;> cases b <;> first | exact absurd rfl (hr _) | simp [testsTokens, testTokens, asmFlags]
    | cons y ys =>
      have := ih (by simp) rest hr
      cases b <;> simp [testsTokens, testTokens, asmFlags, this]

/-! ### The line of an instruction can be spelled -/

theorem ok_regName (r : Reg) : (AsmToken.name (regName r)).ok = true := by cases r <;> decide

theorem ok_largeName (g : LargeReg) : (AsmToken.name (largeName g)).ok = true := by cases g <;> decide

theorem ok_flagName (fl : Flag) : (AsmToken.name (flagName fl)).ok = true := by cases fl <;> decide

theorem ok_condName (cond : Cond) : (AsmToken.name (condName cond)).ok = true := by
  cases cond with
  | flag fl => exact ok_flagName fl
  | aw => decide

theorem ok_litToken {n : Nat} (h : n ≤ 24) (x : BitVec n) : (litToken x).ok = true := by
  simp only [litToken, AsmToken.ok, decide_eq_true_eq]
  exact lt_of_lt_of_le x.isLt (Nat.pow_le_pow_right (by decide) h)

theorem ok_offTokens {n : Nat} (h : n ≤ 16) (x : BitVec n) : (offTokens x).all AsmToken.ok = true := by
  have h1 := x.toInt_lt
  have h2 := x.le_toInt
  have h3 : (2 : Int) ^ (n - 1) ≤ 2 ^ 16 := by
    exact_mod_cast Nat.pow_le_pow_right (n := 2) (by decide) (show n - 1 ≤ 16 by omega)
  have hb : x.toInt.natAbs < 2 ^ 24 := by omega
  unfold offTokens
  split <;> simp [AsmToken.ok] <;> simpa using hb

theorem ok_testsTokens (xs : List (Bool × Flag)) : (testsTokens xs).all AsmToken.ok = true := by
  induction xs with
  | nil => rfl
  | cons x xs ih =>
    obtain ⟨b, fl⟩ := x
    have h1 : (testTokens (b, fl)).all AsmToken.ok = true := by cases b <;> simp [testTokens, ok_flagName] <;> decide
    cases xs with
    | nil => exact h1
    | cons y ys => simp only [testsTokens, List.all_append, h1, List.all_cons, ih]; decide

/-- Every token of an instruction's line can be spelled. -/
theorem ok_lineTokens (i : Instr) : (lineTokens i).all AsmToken.ok = true := by
  have h8 := fun x : Byte => ok_litToken (by decide) x
  have h16 := fun x : Word => ok_litToken (by decide) x
  have h24 := fun x : Addr => ok_litToken (by decide) x
  have o7 := fun x : BitVec 7 => ok_offTokens (by decide) x
  have o8 := fun x : Byte => ok_offTokens (by decide) x
  have o16 := fun x : Word => ok_offTokens (by decide) x
  cases i <;>
    simp [lineTokens, moveLine, regTokens, slotTokens, pairTokens, byteTokens, litTokens, arithLine, shiftLine, nameA, maskTokens,
      h8, h16, h24, o7, o8, o16, ok_regName, ok_flagName, ok_condName, ok_largeName, ok_testsTokens, -List.all_eq_true] <;>
    (try decide)
  all_goals (split_ifs <;> simp [h8, h16, ok_regName, -List.all_eq_true] <;> decide)

/-- The line of an instruction reads back as its tokens. -/
theorem asmTokens_asmLine (i : Instr) : asmTokens (asmLine i) [] = some (lineTokens i) :=
  asmTokens_spell _ (List.all_eq_true.1 (ok_lineTokens i))

/-- Assembling the line of an instruction is assembling its tokens. -/
theorem assemble_asmLine (i : Instr) : assemble (asmLine i) = assembleTokens (lineTokens i) := by
  rw [assemble, asmTokens_asmLine]

/-- Two instructions with one line have the same tokens. -/
theorem lineTokens_of_asmLine {i j : Instr} (h : asmLine i = asmLine j) : lineTokens i = lineTokens j := by
  have hi := asmTokens_asmLine i
  rw [h, asmTokens_asmLine j] at hi
  exact (Option.some.inj hi).symm

end Sys2Proof.Machine
end

