-- ==== Sys2Proof/Laws/Fields.lean ====
section
/-!
SUPPORT. The small lemmas of the field operations of Decode.lean: taking apart what was put together, and the register, flag
and condition codes read back.
-/

namespace Sys2Proof

/-- The high part of a concatenation. -/
theorem extract_append_hi {n m : Nat} (x : BitVec n) (y : BitVec m) : (x ++ y).extractLsb' m n = x := by
  ext i h; simp [BitVec.getLsbD_append, BitVec.getLsbD_eq_getElem h]

/-- The low part of a concatenation. -/
theorem extract_append_lo {n m : Nat} (x : BitVec n) (y : BitVec m) : (x ++ y).extractLsb' 0 m = y := by
  ext i h; simp [BitVec.getLsbD_append, h]

/-- A value is the concatenation of its parts. -/
theorem append_extract {n m : Nat} (x : BitVec (n + m)) : x.extractLsb' m n ++ x.extractLsb' 0 m = x := by
  ext i h
  rw [BitVec.getElem_append]
  split
  · simp [BitVec.getLsbD_eq_getElem h]
  · rw [BitVec.getElem_extractLsb', show m + (i - m) = i by omega, BitVec.getLsbD_eq_getElem h]

@[simp] theorem byteHi_wordOf (x y : Byte) : byteHi (wordOf x y) = x := extract_append_hi x y

@[simp] theorem byteLo_wordOf (x y : Byte) : byteLo (wordOf x y) = y := extract_append_lo x y

@[simp] theorem wordOf_bytes (w : Word) : wordOf (byteHi w) (byteLo w) = w := append_extract (n := 8) (m := 8) w

@[simp] theorem litHi_addrOf (x : Byte) (y : Word) : litHi (addrOf x y) = x := extract_append_hi x y

@[simp] theorem litLo_addrOf (x : Byte) (y : Word) : litLo (addrOf x y) = y := extract_append_lo x y

@[simp] theorem addrOf_parts (x : Addr) : addrOf (litHi x) (litLo x) = x := append_extract (n := 8) (m := 16) x

theorem bankS_bank_code (r : RegS) : bankS r.bank r.code = r := by cases r <;> rfl

theorem bankA_bank_code (r : RegA) : bankA r.bank r.code = r := by cases r <;> rfl

theorem hi8reg_code (r : RegHi) : hi8reg r.code = r := by cases r <;> rfl

theorem reg4_code (r : Reg) : reg4 r.code = some r := by cases r <;> rfl

theorem largeReg_id (g : LargeReg) : largeReg g.id = g := by cases g <;> rfl

theorem flagOfCode_code (fl : Flag) : flagOfCode fl.code = some fl := by cases fl <;> rfl

theorem condOfCode_code (cond : Cond) : condOfCode cond.code = some cond := by
  cases cond with
  | flag fl => cases fl <;> rfl
  | aw => rfl

theorem maskOf_maskByte (m : Flags) : maskOf (maskByte m) = m :=
  extract_append_lo (0b000#3) m

theorem bankS_code_bank (v : Bool) (x : BitVec 2) : (bankS v x).bank = v ∧ (bankS v x).code = x := by
  revert v x; decide

theorem bankA_code_bank (v : Bool) (x : BitVec 2) : (bankA v x).bank = v ∧ (bankA v x).code = x := by
  revert v x; decide

theorem reg4_eq_some (x : BitVec 4) (r : Reg) : reg4 x = some r ↔ r.code = x := by
  revert x r; intro x r; cases r <;> revert x <;> decide

end Sys2Proof
end

