-- ==== Sys2Proof/Laws/Memory.lean ====
section
/-!
SUPPORT. The laws of memory as bytes: a byte written reads back, every other byte is left alone, and the canonical form is
kept. They hold of every memory, canonical or not, but for the last, which is about the form itself.
-/

namespace Sys2Proof.Machine

theorem Memory.get_erase_same (m : Memory) (key : Nat) : (m.erase key).get key = Config.unwrittenByte := by
  induction m with
  | nil => rfl
  | cons x rest ih =>
    by_cases h : x.1 = key
    · simpa [Memory.erase, h] using ih
    · simpa [Memory.erase, Memory.get, h] using ih

theorem Memory.get_erase_other (m : Memory) {key other : Nat} (hne : other ≠ key) :
    (m.erase key).get other = m.get other := by
  induction m with
  | nil => rfl
  | cons x rest ih =>
    by_cases h : x.1 = key
    · have h' : x.1 ≠ other := fun e => hne (e ▸ h)
      simpa [Memory.erase, Memory.get, h, h'] using (by simpa [h, Ne.symm hne] using ih)
    · simp only [Memory.erase, h, if_false, Memory.get, ih]

theorem Memory.get_insert_same (m : Memory) (key : Nat) (v : Byte) (h : ∀ x ∈ m, x.1 ≠ key) :
    (m.insert key v).get key = v := by
  induction m with
  | nil => simp [Memory.insert, Memory.get]
  | cons x rest ih =>
    have hx : x.1 ≠ key := h x (by simp)
    have ih' := ih fun y hy => h y (by simp [hy])
    by_cases hlt : key < x.1
    · simp [Memory.insert, Memory.get, hlt]
    · simpa [Memory.insert, Memory.get, hlt, hx] using ih'

theorem Memory.get_insert_other (m : Memory) {key other : Nat} (v : Byte) (hne : other ≠ key) :
    (m.insert key v).get other = m.get other := by
  induction m with
  | nil => simp [Memory.insert, Memory.get, Ne.symm hne]
  | cons x rest ih =>
    by_cases hlt : key < x.1
    · simp [Memory.insert, Memory.get, hlt, Ne.symm hne]
    · simp only [Memory.insert, hlt, if_false, Memory.get, ih]

theorem Memory.mem_erase (m : Memory) (key : Nat) (x : Host.Cell) :
    x ∈ m.erase key ↔ x ∈ m ∧ x.1 ≠ key := by
  induction m with
  | nil => simp [Memory.erase]
  | cons y rest ih =>
    by_cases h : y.1 = key
    · simp only [Memory.erase, h, if_true, ih, List.mem_cons]
      constructor
      · rintro ⟨hm, hk⟩; exact ⟨.inr hm, hk⟩
      · rintro ⟨rfl | hm, hk⟩
        · exact absurd h hk
        · exact ⟨hm, hk⟩
    · simp only [Memory.erase, h, if_false, ih, List.mem_cons]
      constructor
      · rintro (rfl | ⟨hm, hk⟩)
        · exact ⟨.inl rfl, h⟩
        · exact ⟨.inr hm, hk⟩
      · rintro ⟨rfl | hm, hk⟩
        · exact .inl rfl
        · exact .inr ⟨hm, hk⟩

theorem Memory.mem_insert (m : Memory) (key : Nat) (v : Byte) (x : Host.Cell) :
    x ∈ m.insert key v ↔ x = (key, v) ∨ x ∈ m := by
  induction m with
  | nil => simp [Memory.insert]
  | cons y rest ih =>
    by_cases h : key < y.1
    · simp [Memory.insert, h]
    · simp only [Memory.insert, h, if_false, List.mem_cons, ih]
      tauto

/-- A byte written reads back. -/
theorem Memory.get_put_same (m : Memory) (key : Nat) (v : Byte) : (m.put key v).get key = v := by
  unfold Memory.put
  split
  · rename_i h; rw [h]; exact m.get_erase_same key
  · exact Memory.get_insert_same _ _ _ fun x hx => ((m.mem_erase key x).1 hx).2

/-- A byte written leaves every other byte alone. -/
theorem Memory.get_put_other (m : Memory) {key other : Nat} (v : Byte) (hne : other ≠ key) :
    (m.put key v).get other = m.get other := by
  unfold Memory.put
  split
  · exact m.get_erase_other hne
  · rw [Memory.get_insert_other _ _ hne, m.get_erase_other hne]

theorem Memory.erase_wf {m : Memory} (h : m.wf) (key : Nat) : (m.erase key).wf := by
  obtain ⟨hp, hv⟩ := h
  refine ⟨?_, fun x hx => hv x ((m.mem_erase key x).1 hx).1⟩
  clear hv
  induction m with
  | nil => exact .nil
  | cons y rest ih =>
    obtain ⟨hy, hr⟩ := List.pairwise_cons.1 hp
    by_cases hk : y.1 = key
    · simpa [Memory.erase, hk] using ih hr
    · simp only [Memory.erase, hk, if_false]
      exact List.pairwise_cons.2 ⟨fun z hz => hy z ((Memory.mem_erase rest key z).1 hz).1, ih hr⟩

theorem Memory.insert_wf {m : Memory} (h : m.wf) {key : Nat} {v : Byte} (hk : key < 2 ^ 25)
    (hv : v ≠ Config.unwrittenByte) (hfresh : ∀ x ∈ m, x.1 ≠ key) : (m.insert key v).wf := by
  obtain ⟨hp, ha⟩ := h
  refine ⟨?_, fun x hx => ?_⟩
  · clear ha
    induction m with
    | nil => exact List.pairwise_singleton _ _
    | cons y rest ih =>
      obtain ⟨hy, hr⟩ := List.pairwise_cons.1 hp
      by_cases hlt : key < y.1
      · simp only [Memory.insert, hlt, if_true]
        refine List.pairwise_cons.2 ⟨fun z hz => ?_, hp⟩
        rcases List.mem_cons.1 hz with rfl | hz
        · exact hlt
        · exact hlt.trans (hy z hz)
      · simp only [Memory.insert, hlt, if_false]
        refine List.pairwise_cons.2 ⟨fun z hz => ?_, ih (fun x hx => hfresh x (by simp [hx])) hr⟩
        have hne : y.1 ≠ key := hfresh y (by simp)
        rcases (Memory.mem_insert rest key v z).1 hz with rfl | hz
        · show y.1 < key; omega
        · exact hy z hz
  · rcases (Memory.mem_insert m key v x).1 hx with rfl | hx
    · exact ⟨hv, hk⟩
    · exact ha x hx

/-- Writing a byte of the address space keeps the canonical form. -/
theorem Memory.put_wf {m : Memory} (h : m.wf) {key : Nat} (hk : key < 2 ^ 25) (v : Byte) : (m.put key v).wf := by
  unfold Memory.put
  split
  · exact Memory.erase_wf h key
  · rename_i hv
    exact Memory.insert_wf (Memory.erase_wf h key) hk hv fun x hx => ((m.mem_erase key x).1 hx).2

theorem keyHi_lt (addr : Addr) : keyHi addr < 2 ^ 25 := by
  have h := addr.isLt; unfold keyHi; omega

theorem keyLo_lt (addr : Addr) : keyLo addr < 2 ^ 25 := by
  have h := addr.isLt; unfold keyLo; omega

/-- Every write of a word keeps the canonical form. -/
theorem State.writeWord_mem_wf {s : State} (h : s.mem.wf) (addr : Addr) (v : Word) :
    (s.writeWord addr v).mem.wf :=
  Memory.put_wf (Memory.put_wf h (keyHi_lt addr) _) (keyLo_lt addr) _

/-- The memory after reset is canonical. -/
theorem reset_mem_wf : State.reset.mem.wf := by decide

end Sys2Proof.Machine
end

