-- ==== Sys2Proof/Laws/State.lean ====
section
/-!
SUPPORT. What each update of the state leaves in each field, in each register, in each flag and in memory: the lemmas later
proofs cite instead of unfolding an update.
-/

namespace Sys2Proof.Machine

variable (s : State)

/-! ### Field by field -/

@[simp] theorem State.jump_a (x : Addr) : (s.jump x).a = s.a := rfl
@[simp] theorem State.jump_b (x : Addr) : (s.jump x).b = s.b := rfl
@[simp] theorem State.jump_c (x : Addr) : (s.jump x).c = s.c := rfl
@[simp] theorem State.jump_sp (x : Addr) : (s.jump x).sp = s.sp := rfl
@[simp] theorem State.jump_rl (x : Addr) : (s.jump x).rl = s.rl := rfl
@[simp] theorem State.jump_rh (x : Addr) : (s.jump x).rh = s.rh := rfl
@[simp] theorem State.jump_i (x : Addr) : (s.jump x).i = s.i := rfl
@[simp] theorem State.jump_aa (x : Addr) : (s.jump x).aa = s.aa := rfl
@[simp] theorem State.jump_ab (x : Addr) : (s.jump x).ab = s.ab := rfl
@[simp] theorem State.jump_ac (x : Addr) : (s.jump x).ac = s.ac := rfl
@[simp] theorem State.jump_pc (x : Addr) : (s.jump x).pc = x := rfl
@[simp] theorem State.jump_f (x : Addr) : (s.jump x).f = s.f := rfl
@[simp] theorem State.jump_istack (x : Addr) : (s.jump x).istack = s.istack := rfl
@[simp] theorem State.jump_mem (x : Addr) : (s.jump x).mem = s.mem := rfl

@[simp] theorem State.advance_a (n : Nat) : (s.advance n).a = s.a := rfl
@[simp] theorem State.advance_b (n : Nat) : (s.advance n).b = s.b := rfl
@[simp] theorem State.advance_c (n : Nat) : (s.advance n).c = s.c := rfl
@[simp] theorem State.advance_sp (n : Nat) : (s.advance n).sp = s.sp := rfl
@[simp] theorem State.advance_rl (n : Nat) : (s.advance n).rl = s.rl := rfl
@[simp] theorem State.advance_rh (n : Nat) : (s.advance n).rh = s.rh := rfl
@[simp] theorem State.advance_i (n : Nat) : (s.advance n).i = s.i := rfl
@[simp] theorem State.advance_aa (n : Nat) : (s.advance n).aa = s.aa := rfl
@[simp] theorem State.advance_ab (n : Nat) : (s.advance n).ab = s.ab := rfl
@[simp] theorem State.advance_ac (n : Nat) : (s.advance n).ac = s.ac := rfl
@[simp] theorem State.advance_pc (n : Nat) : (s.advance n).pc = s.pcNext n := rfl
@[simp] theorem State.advance_f (n : Nat) : (s.advance n).f = s.f := rfl
@[simp] theorem State.advance_istack (n : Nat) : (s.advance n).istack = s.istack := rfl
@[simp] theorem State.advance_mem (n : Nat) : (s.advance n).mem = s.mem := rfl

@[simp] theorem State.setFlag_a (fl : Flag) (v : Bool) : (s.setFlag fl v).a = s.a := rfl
@[simp] theorem State.setFlag_b (fl : Flag) (v : Bool) : (s.setFlag fl v).b = s.b := rfl
@[simp] theorem State.setFlag_c (fl : Flag) (v : Bool) : (s.setFlag fl v).c = s.c := rfl
@[simp] theorem State.setFlag_sp (fl : Flag) (v : Bool) : (s.setFlag fl v).sp = s.sp := rfl
@[simp] theorem State.setFlag_rl (fl : Flag) (v : Bool) : (s.setFlag fl v).rl = s.rl := rfl
@[simp] theorem State.setFlag_rh (fl : Flag) (v : Bool) : (s.setFlag fl v).rh = s.rh := rfl
@[simp] theorem State.setFlag_i (fl : Flag) (v : Bool) : (s.setFlag fl v).i = s.i := rfl
@[simp] theorem State.setFlag_aa (fl : Flag) (v : Bool) : (s.setFlag fl v).aa = s.aa := rfl
@[simp] theorem State.setFlag_ab (fl : Flag) (v : Bool) : (s.setFlag fl v).ab = s.ab := rfl
@[simp] theorem State.setFlag_ac (fl : Flag) (v : Bool) : (s.setFlag fl v).ac = s.ac := rfl
@[simp] theorem State.setFlag_pc (fl : Flag) (v : Bool) : (s.setFlag fl v).pc = s.pc := rfl
@[simp] theorem State.setFlag_f (fl : Flag) (v : Bool) : (s.setFlag fl v).f = putFlag s.f fl v := rfl
@[simp] theorem State.setFlag_istack (fl : Flag) (v : Bool) : (s.setFlag fl v).istack = s.istack := rfl
@[simp] theorem State.setFlag_mem (fl : Flag) (v : Bool) : (s.setFlag fl v).mem = s.mem := rfl

@[simp] theorem State.writeWord_a (x : Addr) (v : Word) : (s.writeWord x v).a = s.a := rfl
@[simp] theorem State.writeWord_b (x : Addr) (v : Word) : (s.writeWord x v).b = s.b := rfl
@[simp] theorem State.writeWord_c (x : Addr) (v : Word) : (s.writeWord x v).c = s.c := rfl
@[simp] theorem State.writeWord_sp (x : Addr) (v : Word) : (s.writeWord x v).sp = s.sp := rfl
@[simp] theorem State.writeWord_rl (x : Addr) (v : Word) : (s.writeWord x v).rl = s.rl := rfl
@[simp] theorem State.writeWord_rh (x : Addr) (v : Word) : (s.writeWord x v).rh = s.rh := rfl
@[simp] theorem State.writeWord_i (x : Addr) (v : Word) : (s.writeWord x v).i = s.i := rfl
@[simp] theorem State.writeWord_aa (x : Addr) (v : Word) : (s.writeWord x v).aa = s.aa := rfl
@[simp] theorem State.writeWord_ab (x : Addr) (v : Word) : (s.writeWord x v).ab = s.ab := rfl
@[simp] theorem State.writeWord_ac (x : Addr) (v : Word) : (s.writeWord x v).ac = s.ac := rfl
@[simp] theorem State.writeWord_pc (x : Addr) (v : Word) : (s.writeWord x v).pc = s.pc := rfl
@[simp] theorem State.writeWord_f (x : Addr) (v : Word) : (s.writeWord x v).f = s.f := rfl
@[simp] theorem State.writeWord_istack (x : Addr) (v : Word) : (s.writeWord x v).istack = s.istack := rfl
@[simp] theorem State.writeWord_mem (x : Addr) (v : Word) : (s.writeWord x v).mem = (s.mem.put (keyHi x) (byteHi v)).put (keyLo x) (byteLo v) := rfl

@[simp] theorem State.writeReg_istack (r : Reg) (v : Word) : (s.writeReg r v).istack = s.istack := by cases r <;> rfl
@[simp] theorem State.writeReg_mem (r : Reg) (v : Word) : (s.writeReg r v).mem = s.mem := by cases r <;> rfl
@[simp] theorem State.writeReg_z (v : Word) : s.writeReg .z v = s := rfl

theorem State.writeReg_f_of_ne {r : Reg} (h : r ≠ .f) (v : Word) : (s.writeReg r v).f = s.f := by
  cases r <;> first | rfl | exact absurd rfl h

theorem State.writeReg_pc_of_ne {r : Reg} (hl : r ≠ .pl) (hh : r ≠ .ph) (v : Word) :
    (s.writeReg r v).pc = s.pc := by
  cases r <;> first | rfl | exact absurd rfl hl | exact absurd rfl hh

/-! ### Register by register -/

@[simp] theorem addrLo_addrOf (h : Byte) (l : Word) : addrLo (addrOf h l) = l := litLo_addrOf h l

@[simp] theorem addrHi_addrOf (h : Byte) (l : Word) : addrHi (addrOf h l) = h.setWidth 16 := by
  unfold addrHi; rw [litHi_addrOf]

@[simp] theorem State.readReg_z : s.readReg .z = 0#16 := rfl

/-- A register other than the one written reads as before (PL and PH are apart, R28). -/
theorem State.readReg_writeReg_of_ne {r d : Reg} (h : r ≠ d) (v : Word) :
    (s.writeReg d v).readReg r = s.readReg r := by
  cases d <;> cases r <;> first
    | rfl
    | exact absurd rfl h
    | exact (addrHi_addrOf _ _)
    | exact (addrLo_addrOf _ _)

/-- A register that keeps 16 bits reads back what was written. -/
theorem State.readReg_writeReg_self {r : Reg} (hz : r ≠ .z) (hh : r ≠ .ph) (hf : r ≠ .f) (v : Word) :
    (s.writeReg r v).readReg r = v := by
  cases r <;> first
    | rfl
    | exact absurd rfl hz
    | exact absurd rfl hh
    | exact absurd rfl hf
    | exact (addrLo_addrOf _ _)

theorem State.readReg_jump {r : Reg} (hl : r ≠ .pl) (hh : r ≠ .ph) (x : Addr) :
    (s.jump x).readReg r = s.readReg r := by
  cases r <;> first | rfl | exact absurd rfl hl | exact absurd rfl hh

theorem State.readReg_advance {r : Reg} (hl : r ≠ .pl) (hh : r ≠ .ph) (n : Nat) :
    (s.advance n).readReg r = s.readReg r := s.readReg_jump hl hh _

theorem State.readReg_setFlag {r : Reg} (hf : r ≠ .f) (fl : Flag) (v : Bool) :
    (s.setFlag fl v).readReg r = s.readReg r := by
  cases r <;> first | rfl | exact absurd rfl hf

@[simp] theorem State.readReg_writeWord (r : Reg) (x : Addr) (v : Word) :
    (s.writeWord x v).readReg r = s.readReg r := by cases r <;> rfl

theorem regS_plain (r : RegS) : regS r ≠ .pl ∧ regS r ≠ .ph ∧ regS r ≠ .f := by cases r <;> decide

theorem regA_plain (r : RegA) : regA r ≠ .pl ∧ regA r ≠ .ph ∧ regA r ≠ .f := by cases r <;> decide

theorem regHi_plain (r : RegHi) : regHi r ≠ .pl ∧ regHi r ≠ .ph ∧ regHi r ≠ .f := by cases r <;> decide

@[simp] theorem State.readS_advance (r : RegS) (n : Nat) : (s.advance n).readS r = s.readS r :=
  s.readReg_advance (regS_plain r).1 (regS_plain r).2.1 n

@[simp] theorem State.readA_advance (r : RegA) (n : Nat) : (s.advance n).readA r = s.readA r :=
  s.readReg_advance (regA_plain r).1 (regA_plain r).2.1 n

/-! ### Flag by flag -/

theorem putFlag_bit (f : Flags) (fl other : Flag) (v : Bool) :
    (putFlag f fl v).getLsbD (flagBit other) = if other = fl then v else f.getLsbD (flagBit other) := by
  revert f; cases fl <;> cases other <;> cases v <;> decide

@[simp] theorem State.flag_setFlag_self (fl : Flag) (v : Bool) : (s.setFlag fl v).flag fl = v := by
  show (putFlag s.f fl v).getLsbD _ = v; simp [putFlag_bit]

theorem State.flag_setFlag_of_ne {fl other : Flag} (h : other ≠ fl) (v : Bool) :
    (s.setFlag fl v).flag other = s.flag other := by
  show (putFlag s.f fl v).getLsbD _ = s.f.getLsbD _; simp [putFlag_bit, h]

theorem State.flag_writeReg {r : Reg} (h : r ≠ .f) (v : Word) (fl : Flag) :
    (s.writeReg r v).flag fl = s.flag fl := by
  unfold State.flag; rw [s.writeReg_f_of_ne h]

@[simp] theorem State.flag_jump (x : Addr) (fl : Flag) : (s.jump x).flag fl = s.flag fl := rfl
@[simp] theorem State.flag_advance (n : Nat) (fl : Flag) : (s.advance n).flag fl = s.flag fl := rfl
@[simp] theorem State.flag_writeWord (x : Addr) (v : Word) (fl : Flag) : (s.writeWord x v).flag fl = s.flag fl := rfl

/-! ### Byte by byte, word by word -/

@[simp] theorem State.readByte_jump (x : Addr) (k : Nat) : (s.jump x).readByte k = s.readByte k := rfl
@[simp] theorem State.readByte_advance (n k : Nat) : (s.advance n).readByte k = s.readByte k := rfl
@[simp] theorem State.readByte_setFlag (fl : Flag) (v : Bool) (k : Nat) : (s.setFlag fl v).readByte k = s.readByte k := rfl
@[simp] theorem State.readByte_writeReg (r : Reg) (v : Word) (k : Nat) : (s.writeReg r v).readByte k = s.readByte k := by
  unfold State.readByte; rw [s.writeReg_mem]

@[simp] theorem State.readWord_jump (x y : Addr) : (s.jump x).readWord y = s.readWord y := rfl
@[simp] theorem State.readWord_advance (n : Nat) (y : Addr) : (s.advance n).readWord y = s.readWord y := rfl
@[simp] theorem State.readWord_setFlag (fl : Flag) (v : Bool) (y : Addr) : (s.setFlag fl v).readWord y = s.readWord y := rfl
@[simp] theorem State.readWord_writeReg (r : Reg) (v : Word) (y : Addr) : (s.writeReg r v).readWord y = s.readWord y := by
  simp [State.readWord]

theorem State.readByte_writeWord_of_ne (x : Addr) (v : Word) {k : Nat} (hh : k ≠ keyHi x) (hl : k ≠ keyLo x) :
    (s.writeWord x v).readByte k = s.readByte k := by
  show Memory.get _ _ = Memory.get _ _
  simp only [State.writeWord_mem]
  rw [Memory.get_put_other _ _ hl, Memory.get_put_other _ _ hh]

/-- A word written reads back. -/
@[simp] theorem State.readWord_writeWord_self (x : Addr) (v : Word) : (s.writeWord x v).readWord x = v := by
  have hne : keyHi x ≠ keyLo x := by unfold keyHi keyLo; omega
  have h1 : (s.writeWord x v).readByte (keyHi x) = byteHi v := by
    show Memory.get _ _ = _
    simp only [State.writeWord_mem]
    rw [Memory.get_put_other _ _ hne, Memory.get_put_same]
  have h2 : (s.writeWord x v).readByte (keyLo x) = byteLo v := Memory.get_put_same _ _ _
  unfold State.readWord
  rw [h1, h2, wordOf_bytes]

/-- A word written leaves every other word alone. -/
theorem State.readWord_writeWord_of_ne {x y : Addr} (h : y ≠ x) (v : Word) :
    (s.writeWord x v).readWord y = s.readWord y := by
  have hn : y.toNat ≠ x.toNat := fun e => h (BitVec.eq_of_toNat_eq e)
  unfold State.readWord
  rw [s.readByte_writeWord_of_ne, s.readByte_writeWord_of_ne] <;> simp only [keyHi, keyLo] <;> omega

end Sys2Proof.Machine
end

