-- ==== Sys2Proof/Laws/Load.lean ====
section
/-!
SUPPORT. What loading leaves: every field but memory, the words placed at their addresses, every other word as before, and the
canonical form of memory (spec/70_reset_and_hazards.md R313).
-/

namespace Sys2Proof.Machine

variable (s : State)

@[simp] theorem State.placeWords_a (x : Addr) (ws : List Word) : (s.placeWords x ws).a = s.a := rfl
@[simp] theorem State.placeWords_b (x : Addr) (ws : List Word) : (s.placeWords x ws).b = s.b := rfl
@[simp] theorem State.placeWords_c (x : Addr) (ws : List Word) : (s.placeWords x ws).c = s.c := rfl
@[simp] theorem State.placeWords_sp (x : Addr) (ws : List Word) : (s.placeWords x ws).sp = s.sp := rfl
@[simp] theorem State.placeWords_rl (x : Addr) (ws : List Word) : (s.placeWords x ws).rl = s.rl := rfl
@[simp] theorem State.placeWords_rh (x : Addr) (ws : List Word) : (s.placeWords x ws).rh = s.rh := rfl
@[simp] theorem State.placeWords_i (x : Addr) (ws : List Word) : (s.placeWords x ws).i = s.i := rfl
@[simp] theorem State.placeWords_aa (x : Addr) (ws : List Word) : (s.placeWords x ws).aa = s.aa := rfl
@[simp] theorem State.placeWords_ab (x : Addr) (ws : List Word) : (s.placeWords x ws).ab = s.ab := rfl
@[simp] theorem State.placeWords_ac (x : Addr) (ws : List Word) : (s.placeWords x ws).ac = s.ac := rfl
@[simp] theorem State.placeWords_pc (x : Addr) (ws : List Word) : (s.placeWords x ws).pc = s.pc := rfl
@[simp] theorem State.placeWords_f (x : Addr) (ws : List Word) : (s.placeWords x ws).f = s.f := rfl
@[simp] theorem State.placeWords_istack (x : Addr) (ws : List Word) : (s.placeWords x ws).istack = s.istack := rfl

@[simp] theorem State.load_a (image : Image) : (s.load image).a = s.a := rfl
@[simp] theorem State.load_b (image : Image) : (s.load image).b = s.b := rfl
@[simp] theorem State.load_c (image : Image) : (s.load image).c = s.c := rfl
@[simp] theorem State.load_sp (image : Image) : (s.load image).sp = s.sp := rfl
@[simp] theorem State.load_rl (image : Image) : (s.load image).rl = s.rl := rfl
@[simp] theorem State.load_rh (image : Image) : (s.load image).rh = s.rh := rfl
@[simp] theorem State.load_i (image : Image) : (s.load image).i = s.i := rfl
@[simp] theorem State.load_aa (image : Image) : (s.load image).aa = s.aa := rfl
@[simp] theorem State.load_ab (image : Image) : (s.load image).ab = s.ab := rfl
@[simp] theorem State.load_ac (image : Image) : (s.load image).ac = s.ac := rfl
@[simp] theorem State.load_pc (image : Image) : (s.load image).pc = s.pc := rfl
@[simp] theorem State.load_f (image : Image) : (s.load image).f = s.f := rfl
@[simp] theorem State.load_istack (image : Image) : (s.load image).istack = s.istack := rfl

@[simp] theorem State.placeWords_nil (x : Addr) : s.placeWords x [] = s := rfl

@[simp] theorem State.placeWords_cons (x : Addr) (w : Word) (ws : List Word) :
    s.placeWords x (w :: ws) = (s.writeWord x w).placeWords (x + 1) ws := rfl

@[simp] theorem State.load_nil : s.load [] = s := rfl

@[simp] theorem State.load_cons (x : Addr) (ws : List Word) (image : Image) :
    s.load ((x, ws) :: image) = (s.placeWords x ws).load image := rfl

/-- Loading changes no register. -/
@[simp] theorem State.readReg_load (image : Image) (r : Reg) : (s.load image).readReg r = s.readReg r := by cases r <;> rfl

/-- The address after the `k`-th of a block that begins at the next address. -/
theorem addr_succ_add (x : Addr) (k : Nat) : x + 1 + BitVec.ofNat 24 k = x + BitVec.ofNat 24 (k + 1) := by
  rw [BitVec.add_assoc]; congr 1
  apply BitVec.eq_of_toNat_eq
  simp [BitVec.toNat_add, Nat.add_comm]

/-- A block leaves every word outside its addresses as it was. -/
theorem State.readWord_placeWords_of_ne (ws : List Word) : ∀ (s : State) (x y : Addr),
    (∀ k < ws.length, y ≠ x + BitVec.ofNat 24 k) → (s.placeWords x ws).readWord y = s.readWord y := by
  induction ws with
  | nil => intros; rfl
  | cons w ws ih =>
    intro s x y h
    rw [s.placeWords_cons, ih]
    · exact s.readWord_writeWord_of_ne (by simpa using h 0 (by simp)) w
    · intro k hk
      rw [addr_succ_add]
      exact h (k + 1) (by simpa using hk)

/-- Each word of a block reads back at its address, if the block is no longer than the address space. -/
theorem State.readWord_placeWords (ws : List Word) : ∀ (s : State) (x : Addr) (k : Nat) (hk : k < ws.length),
    ws.length ≤ 2 ^ 24 → (s.placeWords x ws).readWord (x + BitVec.ofNat 24 k) = ws[k] := by
  induction ws with
  | nil => intro s x k hk; simp at hk
  | cons w ws ih =>
    intro s x k hk hlen
    simp only [List.length_cons] at hk hlen
    rw [s.placeWords_cons]
    cases k with
    | zero =>
      rw [State.readWord_placeWords_of_ne]
      · simp
      · intro j hj he
        rw [addr_succ_add] at he
        have := congrArg BitVec.toNat he
        simp only [BitVec.toNat_add, BitVec.toNat_ofNat] at this
        have hx := x.isLt
        omega
    | succ k =>
      rw [← addr_succ_add]
      simpa using ih (s.writeWord x w) (x + 1) k (by omega) (by omega)

/-- Placing a block keeps the canonical form of memory. -/
theorem State.placeWords_mem_wf (ws : List Word) : ∀ (s : State) (x : Addr), s.mem.wf → (s.placeWords x ws).mem.wf := by
  induction ws with
  | nil => intro s x h; exact h
  | cons w ws ih => intro s x h; exact ih (s.writeWord x w) (x + 1) (s.writeWord_mem_wf h x w)

/-- Loading keeps the canonical form of memory. -/
theorem State.load_mem_wf (image : Image) : ∀ s : State, s.mem.wf → (s.load image).mem.wf := by
  induction image with
  | nil => intro s h; exact h
  | cons block rest ih => intro s h; exact ih (s.placeWords block.1 block.2) (State.placeWords_mem_wf _ _ _ h)

/-- The machine as the host starts it has a canonical memory. -/
theorem State.boot_mem_wf (image : Image) : (State.boot image).mem.wf := State.load_mem_wf image _ reset_mem_wf

end Sys2Proof.Machine
end

