-- ==== Sys2Proof/Laws/Ops.lean ====
section
/-!
SUPPORT. What each shared operation can do, said once: memory access, MOV, the stack, jumps, arithmetic results, the
interrupt. A proof about an instruction cites these instead of unfolding the operation.
-/

namespace Sys2Proof.Machine

/-- Every address holds memory, with the default MEM_VALID. -/
@[simp] theorem memValid_all (x : Addr) : Config.memValid x = true := rfl

@[simp] theorem memRead_eq (s : State) (x : Addr) : memRead s x = .ok (s.readWord x) := rfl

@[simp] theorem memWrite_eq (s : State) (x : Addr) (v : Word) : memWrite s x v = .ok (s.writeWord x v) := rfl

/-- The fetch never faults, and gives the two words at `pc`, the second only when the first asks for it. -/
theorem fetch_eq (s : State) :
    fetch s = .ok (s.readWord s.pc, if isLong (s.readWord s.pc) then s.readWord (s.pc + 1) else 0#16) := by
  unfold fetch; simp only [memRead_eq]; split <;> rfl

/-- The value a source gives. -/
def Source.value (src : Source) (s : State) : Word :=
  match src with
  | .reg r => s.readReg r
  | .lit v => v
  | .mem x => s.readWord x

/-- The state after a destination has received a value. -/
def Dest.put (d : Dest) (s : State) (v : Word) : State :=
  match d with
  | .reg r => s.writeReg r v
  | .mem x => s.writeWord x v

theorem readSource_eq (s : State) (src : Source) : readSource s src = .ok (src.value s) := by cases src <;> rfl

theorem writeDest_eq (s : State) (d : Dest) (v : Word) : writeDest s d v = .ok (d.put s v) := by cases d <;> rfl

/-- A MOV always completes: the destination receives the source's value, and ZE says whether it is zero. -/
theorem move_eq (src : Source) (d : Dest) (s : State) :
    move src d s = .next ((d.put s (src.value s)).setFlag .ze (isZero (src.value s))) := by
  simp only [move, readSource_eq, writeDest_eq]

/-- A push always completes. -/
theorem push_eq (v : Word) (s : State) :
    push v s = .next (((s.writeWord (stackAddr s.sp) v).writeReg .sp (s.sp + 1)).setFlag .ze (isZero v)) := rfl

/-- A push of a pair always completes. -/
theorem pushPair_eq (h l : Word) (s : State) :
    pushPair h l s = .next ((((s.writeWord (stackAddr s.sp) h).writeWord (stackAddr (s.sp + 1)) l).writeReg .sp
      (s.sp + 2)).setFlag .ze (isZero32 h l)) := rfl

/-- A pop always completes. -/
theorem pop_eq (r : Reg) (s : State) :
    pop r s = .next (if r = .f then (s.writeReg .sp (s.sp - 1)).writeReg r (s.readWord (stackAddr (s.sp - 1)))
      else ((s.writeReg .sp (s.sp - 1)).writeReg r (s.readWord (stackAddr (s.sp - 1)))).setFlag .ze
        (isZero (s.readWord (stackAddr (s.sp - 1))))) := rfl

/-- A pop of a pair always completes. -/
theorem popPair_eq (rhi rlo : Reg) (s : State) :
    popPair rhi rlo s = .next
      (let l := s.readWord (stackAddr (s.sp - 1))
       let h := s.readWord (stackAddr (s.sp - 2))
       let t := ((s.writeReg .sp (s.sp - 2)).writeReg rlo l).writeReg rhi h
       if rhi = .f ∨ rlo = .f then t else t.setFlag .ze (isZero32 h l)) := rfl

/-- An interrupt that is taken found room on the stack, and changed `istack`, I and `pc` only. -/
theorem takeInterrupt_next {id : Byte} {s t : State} (h : takeInterrupt id s = .next t) :
    s.istack.length ≠ Config.intStackDepth ∧
      t = { s with istack := s.pc :: s.istack, i := id.setWidth 16, pc := Config.intVector id } := by
  unfold takeInterrupt at h
  split at h
  · cases h
  · rename_i hd; cases h; exact ⟨hd, rfl⟩

/-- A return from interrupt that completes popped the newest entry into `pc`, and changed nothing else. -/
theorem returnFromInterrupt_next {s t : State} (h : returnFromInterrupt s = .next t) :
    ∃ ra rest, s.istack = ra :: rest ∧ t = { s with istack := rest, pc := ra } := by
  unfold returnFromInterrupt at h
  split at h
  · cases h
  · rename_i ra rest he; cases h; exact ⟨ra, rest, he, rfl⟩

/-! ### Canonical memory is kept -/

@[simp] theorem State.writeReg_mem_wf (s : State) (r : Reg) (v : Word) : (s.writeReg r v).mem.wf ↔ s.mem.wf := by
  rw [s.writeReg_mem]

theorem Dest.put_mem_wf {s : State} (hw : s.mem.wf) (d : Dest) (v : Word) : (d.put s v).mem.wf := by
  cases d with
  | reg r => exact (s.writeReg_mem_wf r v).2 hw
  | mem x => exact s.writeWord_mem_wf hw x v

/-- A MOV keeps the canonical form and the interrupt stack. -/
theorem move_keeps {src : Source} {d : Dest} {s t : State} (h : move src d s = .next t) :
    (s.mem.wf → t.mem.wf) ∧ t.istack = s.istack := by
  rw [move_eq] at h; cases h
  exact ⟨fun hw => d.put_mem_wf hw _, by cases d <;> simp [Dest.put]⟩

/-- A push keeps the canonical form and the interrupt stack. -/
theorem push_keeps {v : Word} {s t : State} (h : push v s = .next t) :
    (s.mem.wf → t.mem.wf) ∧ t.istack = s.istack := by
  rw [push_eq] at h; cases h
  exact ⟨fun hw => by simpa [- State.writeWord_mem] using s.writeWord_mem_wf hw _ v, by simp⟩

/-- A push of a pair keeps the canonical form and the interrupt stack. -/
theorem pushPair_keeps {x y : Word} {s t : State} (h : pushPair x y s = .next t) :
    (s.mem.wf → t.mem.wf) ∧ t.istack = s.istack := by
  rw [pushPair_eq] at h; cases h
  exact ⟨fun hw => by simpa [- State.writeWord_mem] using State.writeWord_mem_wf (s.writeWord_mem_wf hw _ x) _ y, by simp⟩

/-- A pop changes neither memory nor the interrupt stack. -/
theorem pop_keeps {r : Reg} {s t : State} (h : pop r s = .next t) : t.mem = s.mem ∧ t.istack = s.istack := by
  rw [pop_eq] at h; cases h
  split <;> simp

/-- A pop of a pair changes neither memory nor the interrupt stack. -/
theorem popPair_keeps {rhi rlo : Reg} {s t : State} (h : popPair rhi rlo s = .next t) :
    t.mem = s.mem ∧ t.istack = s.istack := by
  rw [popPair_eq] at h; cases h
  dsimp only; split <;> simp

end Sys2Proof.Machine
end

