-- ==== Sys2Proof/Laws/PerInstr.lean ====
section
/-!
SUPPORT. Families of lemmas with one lemma per constructor of Instr. `EncodedLength`: an instruction is encoded in as many
words as bit 0 of its opcode byte says (spec/30_encoding.md R90).
-/

namespace Sys2Proof.Laws

theorem isLong_wordOf (x y : Byte) : isLong (wordOf x y) = x.getLsbD 0 := by
  unfold isLong bitAt; rw [byteHi_wordOf]

/-- The encoded length is the one B1[0] announces (R90). -/
def EncodedLength.Statement (i : Instr) : Prop :=
  (encode i).length = if isLong (encodeFirst i) then 2 else 1

theorem EncodedLength.short {i : Instr} {x y : Byte} (h1 : encodeFirst i = wordOf x y) (h2 : encodeSecond i = none)
    (h : x.getLsbD 0 = false) : EncodedLength.Statement i := by
  unfold EncodedLength.Statement encode
  rw [h1, h2, isLong_wordOf, h]; rfl

theorem EncodedLength.long {i : Instr} {x y : Byte} {w : Word} (h1 : encodeFirst i = wordOf x y)
    (h2 : encodeSecond i = some w) (h : x.getLsbD 0 = true) : EncodedLength.Statement i := by
  unfold EncodedLength.Statement encode
  rw [h1, h2, isLong_wordOf, h]; rfl

theorem EncodedLength.movRegHi (p q : Bool) (r1 r2 : RegS) (hh : RegHi) : EncodedLength.Statement (.movRegHi p q r1 r2 hh) :=
  EncodedLength.short rfl rfl (by cases p <;> cases q <;> rfl)

theorem EncodedLength.movHiReg (p q : Bool) (r1 r2 : RegS) (hh : RegHi) : EncodedLength.Statement (.movHiReg p q r1 r2 hh) :=
  EncodedLength.short rfl rfl (by cases p <;> cases q <;> rfl)

theorem EncodedLength.movLitHi (p q : Bool) (r2 : RegS) (hh : RegHi) (lit : Word) : EncodedLength.Statement (.movLitHi p q r2 hh lit) :=
  EncodedLength.long rfl rfl (by cases p <;> cases q <;> rfl)

theorem EncodedLength.movHiLit (p : Bool) (r2 : RegS) (hh : RegHi) (lit : Word) : EncodedLength.Statement (.movHiLit p r2 hh lit) :=
  EncodedLength.long rfl rfl (by cases p <;> rfl)

theorem EncodedLength.movLargePair (g : LargeReg) (rhi rlo : RegS) : EncodedLength.Statement (.movLargePair g rhi rlo) :=
  EncodedLength.short rfl rfl rfl

theorem EncodedLength.movPairLarge (g : LargeReg) (rhi rlo : RegS) : EncodedLength.Statement (.movPairLarge g rhi rlo) :=
  EncodedLength.short rfl rfl rfl

theorem EncodedLength.movBytes (p q : Bool) (r1 r2 : RegS) (hs hd : Byte) : EncodedLength.Statement (.movBytes p q r1 r2 hs hd) :=
  EncodedLength.long rfl rfl rfl

theorem EncodedLength.movLoad24 (r1 : RegS) (addr : Addr) : EncodedLength.Statement (.movLoad24 r1 addr) :=
  EncodedLength.long rfl rfl (by cases r1 <;> rfl)

theorem EncodedLength.movStore24 (r1 : RegS) (addr : Addr) : EncodedLength.Statement (.movStore24 r1 addr) :=
  EncodedLength.long rfl rfl (by cases r1 <;> rfl)

theorem EncodedLength.movLit8 (r1 : RegS) (lit : Byte) : EncodedLength.Statement (.movLit8 r1 lit) :=
  EncodedLength.short rfl rfl (by cases r1 <;> rfl)

theorem EncodedLength.pshReg (r : Reg) : EncodedLength.Statement (.pshReg r) :=
  EncodedLength.short rfl rfl rfl

theorem EncodedLength.pshPair (rhi rlo : Reg) : EncodedLength.Statement (.pshPair rhi rlo) :=
  EncodedLength.short rfl rfl rfl

theorem EncodedLength.pshLit16 (lit : Word) : EncodedLength.Statement (.pshLit16 lit) :=
  EncodedLength.long rfl rfl rfl

theorem EncodedLength.pshLit8 (lit : Byte) : EncodedLength.Statement (.pshLit8 lit) :=
  EncodedLength.short rfl rfl rfl

theorem EncodedLength.popReg (r : Reg) : EncodedLength.Statement (.popReg r) :=
  EncodedLength.short rfl rfl rfl

theorem EncodedLength.popPair (rhi rlo : Reg) : EncodedLength.Statement (.popPair rhi rlo) :=
  EncodedLength.short rfl rfl rfl

theorem EncodedLength.jmpReg (r1 : RegS) : EncodedLength.Statement (.jmpReg r1) :=
  EncodedLength.short rfl rfl rfl

theorem EncodedLength.jmpPair (r1 r2 : RegS) : EncodedLength.Statement (.jmpPair r1 r2) :=
  EncodedLength.short rfl rfl rfl

theorem EncodedLength.jmpRegLit (r1 : RegS) (lit : Word) : EncodedLength.Statement (.jmpRegLit r1 lit) :=
  EncodedLength.long rfl rfl rfl

theorem EncodedLength.jmpLitReg (r1 : RegS) (lit : Word) : EncodedLength.Statement (.jmpLitReg r1 lit) :=
  EncodedLength.long rfl rfl rfl

theorem EncodedLength.jmpLit24 (addr : Addr) : EncodedLength.Statement (.jmpLit24 addr) :=
  EncodedLength.long rfl rfl rfl

theorem EncodedLength.jsrReg (r1 : RegS) : EncodedLength.Statement (.jsrReg r1) :=
  EncodedLength.short rfl rfl rfl

theorem EncodedLength.jsrPair (r1 r2 : RegS) : EncodedLength.Statement (.jsrPair r1 r2) :=
  EncodedLength.short rfl rfl rfl

theorem EncodedLength.jsrRegLit (r1 : RegS) (lit : Word) : EncodedLength.Statement (.jsrRegLit r1 lit) :=
  EncodedLength.long rfl rfl rfl

theorem EncodedLength.jsrLitReg (r1 : RegS) (lit : Word) : EncodedLength.Statement (.jsrLitReg r1 lit) :=
  EncodedLength.long rfl rfl rfl

theorem EncodedLength.jsrLit24 (addr : Addr) : EncodedLength.Statement (.jsrLit24 addr) :=
  EncodedLength.long rfl rfl rfl

theorem EncodedLength.jcdReg (cond : Cond) (r1 : RegS) : EncodedLength.Statement (.jcdReg cond r1) :=
  EncodedLength.short rfl rfl (by rcases cond with fl | _ <;> first | rfl | (cases fl <;> rfl))

theorem EncodedLength.jcdLit7 (cond : Cond) (off : BitVec 7) : EncodedLength.Statement (.jcdLit7 cond off) :=
  EncodedLength.short rfl rfl (by rcases cond with fl | _ <;> first | rfl | (cases fl <;> rfl))

theorem EncodedLength.jcdMask (m : Flags) (off : Word) : EncodedLength.Statement (.jcdMask m off) :=
  EncodedLength.long rfl rfl rfl

theorem EncodedLength.jccReg (fl : Flag) (r1 : RegS) : EncodedLength.Statement (.jccReg fl r1) :=
  EncodedLength.short rfl rfl (by cases fl <;> rfl)

theorem EncodedLength.jccLit7 (fl : Flag) (off : BitVec 7) : EncodedLength.Statement (.jccLit7 fl off) :=
  EncodedLength.short rfl rfl (by cases fl <;> rfl)

theorem EncodedLength.jccMask (m : Flags) (off : Word) : EncodedLength.Statement (.jccMask m off) :=
  EncodedLength.long rfl rfl rfl

theorem EncodedLength.jcn (off : Byte) (ms mc : Flags) : EncodedLength.Statement (.jcn off ms mc) :=
  EncodedLength.long rfl rfl rfl

theorem EncodedLength.addRegs (r1 r2 r3 : RegA) : EncodedLength.Statement (.addRegs r1 r2 r3) :=
  EncodedLength.short rfl rfl (by cases r3 <;> rfl)

theorem EncodedLength.adcRegs (r1 r2 r3 : RegA) : EncodedLength.Statement (.adcRegs r1 r2 r3) :=
  EncodedLength.short rfl rfl (by cases r3 <;> rfl)

theorem EncodedLength.subRegs (r1 r2 r3 : RegA) : EncodedLength.Statement (.subRegs r1 r2 r3) :=
  EncodedLength.short rfl rfl (by cases r3 <;> rfl)

theorem EncodedLength.sbcRegs (r1 r2 r3 : RegA) : EncodedLength.Statement (.sbcRegs r1 r2 r3) :=
  EncodedLength.short rfl rfl (by cases r3 <;> rfl)

theorem EncodedLength.andRegs (r1 r2 r3 : RegA) : EncodedLength.Statement (.andRegs r1 r2 r3) :=
  EncodedLength.short rfl rfl (by cases r3 <;> rfl)

theorem EncodedLength.iorRegs (r1 r2 r3 : RegA) : EncodedLength.Statement (.iorRegs r1 r2 r3) :=
  EncodedLength.short rfl rfl (by cases r3 <;> rfl)

theorem EncodedLength.xorRegs (r1 r2 r3 : RegA) : EncodedLength.Statement (.xorRegs r1 r2 r3) :=
  EncodedLength.short rfl rfl (by cases r3 <;> rfl)

theorem EncodedLength.addLit (r1 : RegA) (lit : Word) (r3 : RegA) : EncodedLength.Statement (.addLit r1 lit r3) :=
  EncodedLength.long rfl rfl (by cases r3 <;> rfl)

theorem EncodedLength.adcLit (r1 : RegA) (lit : Word) (r3 : RegA) : EncodedLength.Statement (.adcLit r1 lit r3) :=
  EncodedLength.long rfl rfl (by cases r3 <;> rfl)

theorem EncodedLength.subLit (r1 : RegA) (lit : Word) (r3 : RegA) : EncodedLength.Statement (.subLit r1 lit r3) :=
  EncodedLength.long rfl rfl (by cases r3 <;> rfl)

theorem EncodedLength.subLitRev (r1 : RegA) (lit : Word) (r3 : RegA) : EncodedLength.Statement (.subLitRev r1 lit r3) :=
  EncodedLength.long rfl rfl (by cases r3 <;> rfl)

theorem EncodedLength.sbcLit (r1 : RegA) (lit : Word) (r3 : RegA) : EncodedLength.Statement (.sbcLit r1 lit r3) :=
  EncodedLength.long rfl rfl (by cases r3 <;> rfl)

theorem EncodedLength.sbcLitRev (r1 : RegA) (lit : Word) (r3 : RegA) : EncodedLength.Statement (.sbcLitRev r1 lit r3) :=
  EncodedLength.long rfl rfl (by cases r3 <;> rfl)

theorem EncodedLength.andLit (r1 : RegA) (lit : Word) (r3 : RegA) : EncodedLength.Statement (.andLit r1 lit r3) :=
  EncodedLength.long rfl rfl (by cases r3 <;> rfl)

theorem EncodedLength.iorLit (r1 : RegA) (lit : Word) (r3 : RegA) : EncodedLength.Statement (.iorLit r1 lit r3) :=
  EncodedLength.long rfl rfl (by cases r3 <;> rfl)

theorem EncodedLength.xorLit (r1 : RegA) (lit : Word) (r3 : RegA) : EncodedLength.Statement (.xorLit r1 lit r3) :=
  EncodedLength.long rfl rfl (by cases r3 <;> rfl)

theorem EncodedLength.lsl (r1 r3 : RegA) : EncodedLength.Statement (.lsl r1 r3) :=
  EncodedLength.short rfl rfl (by cases r3 <;> rfl)

theorem EncodedLength.rol (r1 r3 : RegA) : EncodedLength.Statement (.rol r1 r3) :=
  EncodedLength.short rfl rfl (by cases r3 <;> rfl)

theorem EncodedLength.lsr (r1 r3 : RegA) : EncodedLength.Statement (.lsr r1 r3) :=
  EncodedLength.short rfl rfl (by cases r3 <;> rfl)

theorem EncodedLength.ror (r1 r3 : RegA) : EncodedLength.Statement (.ror r1 r3) :=
  EncodedLength.short rfl rfl (by cases r3 <;> rfl)

theorem EncodedLength.nop : EncodedLength.Statement (.nop) :=
  EncodedLength.short rfl rfl rfl

theorem EncodedLength.sef (m : Flags) : EncodedLength.Statement (.sef m) :=
  EncodedLength.short rfl rfl rfl

theorem EncodedLength.clf (m : Flags) : EncodedLength.Statement (.clf m) :=
  EncodedLength.short rfl rfl rfl

theorem EncodedLength.itr (id : Byte) : EncodedLength.Statement (.itr id) :=
  EncodedLength.short rfl rfl rfl

theorem EncodedLength.rti : EncodedLength.Statement (.rti) :=
  EncodedLength.short rfl rfl rfl

theorem EncodedLength.rts : EncodedLength.Statement (.rts) :=
  EncodedLength.short rfl rfl rfl

theorem EncodedLength.cmpRegs (r1 r2 : RegA) : EncodedLength.Statement (.cmpRegs r1 r2) :=
  EncodedLength.short rfl rfl rfl

theorem EncodedLength.cmpLit (r1 : RegA) (lit : Word) : EncodedLength.Statement (.cmpLit r1 lit) :=
  EncodedLength.long rfl rfl rfl

theorem EncodedLength.cmpLitRev (r1 : RegA) (lit : Word) : EncodedLength.Statement (.cmpLitRev r1 lit) :=
  EncodedLength.long rfl rfl rfl

theorem EncodedLength.jrlReg (r1 : RegS) : EncodedLength.Statement (.jrlReg r1) :=
  EncodedLength.short rfl rfl rfl

theorem EncodedLength.jrlLit7 (off : BitVec 7) : EncodedLength.Statement (.jrlLit7 off) :=
  EncodedLength.short rfl rfl rfl

theorem EncodedLength.jrlLit16 (off : Word) : EncodedLength.Statement (.jrlLit16 off) :=
  EncodedLength.long rfl rfl rfl

end Sys2Proof.Laws
end

