-- ==== Sys2Proof/Laws/Step.lean ====
section
/-!
SUPPORT. What a step can do, said once.
-/

namespace Sys2Proof.Machine

/-- A step is the decoding of the words at `pc` and then the instruction, or the illegal-instruction fault. -/
theorem step_eq (s : State) :
    step s = match decode (s.readWord s.pc) (if isLong (s.readWord s.pc) then s.readWord (s.pc + 1) else 0#16) with
      | .error _ => .fault .illegalInstruction
      | .ok i => exec i s := by
  unfold step; rw [fetch_eq] <;> rfl

/-- A step that answers a next state ran the instruction the words at `pc` decode to. -/
theorem step_next {s t : State} (h : step s = .next t) :
    ∃ i, decode (s.readWord s.pc) (if isLong (s.readWord s.pc) then s.readWord (s.pc + 1) else 0#16) = .ok i ∧
      exec i s = .next t := by
  rw [step_eq] at h
  split at h
  · cases h
  · rename_i i hi; exact ⟨i, hi, h⟩

end Sys2Proof.Machine
end

