-- ==== Sys2Proof/Laws/Run.lean ====
section
/-!
SUPPORT. What a run can do: where it ends, and how it goes on (spec/70_reset_and_hazards.md R314).
-/

namespace Sys2Proof.Machine

/-- A run has ended exactly where a step changes nothing. -/
theorem State.ended_iff (s : State) : s.ended = true ↔ step s = .next s := by
  unfold State.ended
  split
  · rename_i t h; rw [h]; simp
  all_goals rename_i h; rw [h]; simp

/-- A run that has ended stays where it is, however many steps it is given. -/
theorem run_of_ended {s : State} (h : s.ended = true) (n : Nat) : run n s = .ended s := by
  cases n <;> simp [run, h]

/-- A run that has not ended goes on with the next step. -/
theorem run_of_next {s t : State} (h : s.ended = false) (hs : step s = .next t) (n : Nat) : run (n + 1) s = run n t := by
  simp [run, h, hs]

end Sys2Proof.Machine
end

