-- ==== Sys2Proof/Tests/Slice0.lean ====
section
/-!
SUPPORT. Tests of the model: what WellFormed refuses, the decoding of one written-out word for every constructor, single steps
taken from the vectors of spec/95_test_vectors.md, the assembler on the lines of the spec, and for every obligation with
hypotheses a witness that meets them. Every expected value comes from the spec.
-/

namespace Sys2Proof.Tests

open Sys2Proof Sys2Proof.Machine

/-! ### Helpers -/

/-- The state after reset with `pc`, F, the given registers, memory words and interrupt stack, and an instruction's words at
`pc`. -/
def start (pc : Addr) (f : Flags) (regs : List (Reg × Word)) (cells : List (Addr × Word)) (words : List Word)
    (stack : List Addr) : State :=
  let s : State := { State.reset with pc := pc, f := f, istack := stack }
  let s := regs.foldl (fun t x => t.writeReg x.1 x.2) s
  let s := cells.foldl (fun t x => t.writeWord x.1 x.2) s
  match words with
  | [] => s
  | [w1] => s.writeWord pc w1
  | w1 :: w2 :: _ => (s.writeWord pc w1).writeWord (pc + 1) w2

/-- A step answers a next state with this `pc`, F, registers, memory words and interrupt stack. -/
def gives (s : State) (pc : Addr) (f : Flags) (regs : List (Reg × Word)) (cells : List (Addr × Word))
    (stack : List Addr) : Bool :=
  match step s with
  | .next t => t.pc == pc && t.f == f && regs.all (fun x => t.readReg x.1 == x.2)
      && cells.all (fun x => t.readWord x.1 == x.2) && t.istack == stack
  | _ => false

/-- A step stops with this fault. -/
def faults (s : State) (e : Fault) : Bool :=
  match step s with
  | .fault e' => e' == e
  | _ => false

/-! ### Well-formedness: one ill-formed term for each check (R128, log entry 9) -/

theorem test_wellFormed_refuses_rts_as_jmp : wellFormed (.jmpPair .rh .rl) = false := by decide
theorem test_wellFormed_refuses_cmp_as_sbc : wellFormed (.sbcRegs .a .b .z) = false := by decide
theorem test_wellFormed_refuses_cmp_literal : wellFormed (.sbcLit .a 5 .z) = false := by decide
theorem test_wellFormed_refuses_cmp_literal_first : wellFormed (.sbcLitRev .a 5 .z) = false := by decide
theorem test_wellFormed_refuses_jrl_register : wellFormed (.jcdReg .aw .a) = false := by decide
theorem test_wellFormed_refuses_jrl_short : wellFormed (.jcdLit7 .aw 5) = false := by decide
theorem test_wellFormed_refuses_jrl_long : wellFormed (.jcdMask 0 5) = false := by decide

/-! ### One word for every constructor, bit by bit -/

/-- `MOV A > $B:C`, words `4409`. -/
theorem test_decode_movRegHi : decodeWords [0b0100010000001001] = .ok (.movRegHi false true .a .c .b) := by decide

/-- `MOV $A:RL > B`, words `4A50`. -/
theorem test_decode_movHiReg : decodeWords [0b0100101001010000] = .ok (.movHiReg true false .b .rl .a) := by decide

/-- `MOV 528 > $A:B`, words `4504 0210`. -/
theorem test_decode_movLitHi : decodeWords [0b0100010100000100, 0b0000001000010000] = .ok (.movLitHi false true .b .a 0x0210#16) := by decide

/-- `MOV C > $0x2004`, words `470B 2004`. -/
theorem test_decode_movHiLit : decodeWords [0b0100011100001011, 0b0010000000000100] = .ok (.movHiLit false .c .z 0x2004#16) := by decide

/-- `MOV PC > RH:RL`, words `50D1`. -/
theorem test_decode_movLargePair : decodeWords [0b0101000011010001] = .ok (.movLargePair .pc .rh .rl) := by decide

/-- `MOV A:B > PC`, words `5214`. -/
theorem test_decode_movPairLarge : decodeWords [0b0101001000010100] = .ok (.movPairLarge .pc .a .b) := by decide

/-- `MOV $0x12:A > $0x34:B`, words `5107 1234`. -/
theorem test_decode_movBytes : decodeWords [0b0101000100000111, 0b0001001000110100] = .ok (.movBytes true true .a .b 0x12#8 0x34#8) := by decide

/-- `MOV $0x123456 > SP`, words `7912 3456`. -/
theorem test_decode_movLoad24 : decodeWords [0b0111100100010010, 0b0011010001010110] = .ok (.movLoad24 .sp 0x123456#24) := by decide

/-- `MOV RL > $0xFF0000`, words `67FF 0000`. -/
theorem test_decode_movStore24 : decodeWords [0b0110011111111111, 0b0000000000000000] = .ok (.movStore24 .rl 0xff0000#24) := by decide

/-- `MOV 200 > B`, words `68C8`. -/
theorem test_decode_movLit8 : decodeWords [0b0110100011001000] = .ok (.movLit8 .b 0xc8#8) := by decide

/-- `PSH A`, words `580F`. -/
theorem test_decode_pshReg : decodeWords [0b0101100000001111] = .ok (.pshReg .a) := by decide

/-- `PSH PH:PL`, words `58DC`. -/
theorem test_decode_pshPair : decodeWords [0b0101100011011100] = .ok (.pshPair .ph .pl) := by decide

/-- `PSH 0x1234`, words `5B00 1234`. -/
theorem test_decode_pshLit16 : decodeWords [0b0101101100000000, 0b0001001000110100] = .ok (.pshLit16 0x1234#16) := by decide

/-- `PSH 7`, words `5A07`. -/
theorem test_decode_pshLit8 : decodeWords [0b0101101000000111] = .ok (.pshLit8 0x07#8) := by decide

/-- `POP A`, words `5C0F`. -/
theorem test_decode_popReg : decodeWords [0b0101110000001111] = .ok (.popReg .a) := by decide

/-- `POP PH,PL`, words `5CDC`. -/
theorem test_decode_popPair : decodeWords [0b0101110011011100] = .ok (.popPair .ph .pl) := by decide

/-- `JMP $A`, words `8000`. -/
theorem test_decode_jmpReg : decodeWords [0b1000000000000000] = .ok (.jmpReg .a) := by decide

/-- `JMP $B:C`, words `9018`. -/
theorem test_decode_jmpPair : decodeWords [0b1001000000011000] = .ok (.jmpPair .b .c) := by decide

/-- `JMP $B:0x1000`, words `9910 1000`. -/
theorem test_decode_jmpRegLit : decodeWords [0b1001100100010000, 0b0001000000000000] = .ok (.jmpRegLit .b 0x1000#16) := by decide

/-- `JMP $0x0002:B`, words `9B10 0002`. -/
theorem test_decode_jmpLitReg : decodeWords [0b1001101100010000, 0b0000000000000010] = .ok (.jmpLitReg .b 0x0002#16) := by decide

/-- `JMP $0x123456`, words `8912 3456`. -/
theorem test_decode_jmpLit24 : decodeWords [0b1000100100010010, 0b0011010001010110] = .ok (.jmpLit24 0x123456#24) := by decide

/-- `JSR $A`, words `8400`. -/
theorem test_decode_jsrReg : decodeWords [0b1000010000000000] = .ok (.jsrReg .a) := by decide

/-- `JSR $RH:RL`, words `94D0`. -/
theorem test_decode_jsrPair : decodeWords [0b1001010011010000] = .ok (.jsrPair .rh .rl) := by decide

/-- `JSR $B:0x1000`, words `9D10 1000`. -/
theorem test_decode_jsrRegLit : decodeWords [0b1001110100010000, 0b0001000000000000] = .ok (.jsrRegLit .b 0x1000#16) := by decide

/-- `JSR $0x0002:B`, words `9F10 0002`. -/
theorem test_decode_jsrLitReg : decodeWords [0b1001111100010000, 0b0000000000000010] = .ok (.jsrLitReg .b 0x0002#16) := by decide

/-- `JSR $0xFF002A`, words `8DFF 002A`. -/
theorem test_decode_jsrLit24 : decodeWords [0b1000110111111111, 0b0000000000101010] = .ok (.jsrLit24 0xff002a#24) := by decide

/-- `JCD ZE A`, words `B280`. -/
theorem test_decode_jcdReg : decodeWords [0b1011001010000000] = .ok (.jcdReg (.flag .ze) .a) := by decide

/-- `JCD ZE 5`, words `B205`. -/
theorem test_decode_jcdLit7 : decodeWords [0b1011001000000101] = .ok (.jcdLit7 (.flag .ze) 0x05#7) := by decide

/-- `JCD CA,ZE 100`, words `B103 0064`. -/
theorem test_decode_jcdMask : decodeWords [0b1011000100000011, 0b0000000001100100] = .ok (.jcdMask 0x03#5 0x0064#16) := by decide

/-- `JCC CA B`, words `A090`. -/
theorem test_decode_jccReg : decodeWords [0b1010000010010000] = .ok (.jccReg .ca .b) := by decide

/-- `JCC ZE -4`, words `A27C`. -/
theorem test_decode_jccLit7 : decodeWords [0b1010001001111100] = .ok (.jccLit7 .ze 0x7c#7) := by decide

/-- `JCC ZE 24`, words `A102 0018`. -/
theorem test_decode_jccMask : decodeWords [0b1010000100000010, 0b0000000000011000] = .ok (.jccMask 0x02#5 0x0018#16) := by decide

/-- `JCN ZE,!CA -4`, words `A5FC 0201`. -/
theorem test_decode_jcn : decodeWords [0b1010010111111100, 0b0000001000000001] = .ok (.jcn 0xfc#8 0x02#5 0x01#5) := by decide

/-- `ADD A,B > C`, words `E006`. -/
theorem test_decode_addRegs : decodeWords [0b1110000000000110] = .ok (.addRegs .a .b .c) := by decide

/-- `ADC AA,AB > AC`, words `EAC6`. -/
theorem test_decode_adcRegs : decodeWords [0b1110101011000110] = .ok (.adcRegs .aa .ab .ac) := by decide

/-- `SUB A,B > C`, words `F006`. -/
theorem test_decode_subRegs : decodeWords [0b1111000000000110] = .ok (.subRegs .a .b .c) := by decide

/-- `SBC A,B > C`, words `F806`. -/
theorem test_decode_sbcRegs : decodeWords [0b1111100000000110] = .ok (.sbcRegs .a .b .c) := by decide

/-- `AND A,B > C`, words `C006`. -/
theorem test_decode_andRegs : decodeWords [0b1100000000000110] = .ok (.andRegs .a .b .c) := by decide

/-- `IOR AA,Z > A`, words `C8CC`. -/
theorem test_decode_iorRegs : decodeWords [0b1100100011001100] = .ok (.iorRegs .aa .z .a) := by decide

/-- `XOR A,A > A`, words `D800`. -/
theorem test_decode_xorRegs : decodeWords [0b1101100000000000] = .ok (.xorRegs .a .a .a) := by decide

/-- `ADD A,1 > A`, words `E100 0001`. -/
theorem test_decode_addLit : decodeWords [0b1110000100000000, 0b0000000000000001] = .ok (.addLit .a 0x0001#16 .a) := by decide

/-- `ADC A,0 > A`, words `E900 0000`. -/
theorem test_decode_adcLit : decodeWords [0b1110100100000000, 0b0000000000000000] = .ok (.adcLit .a 0x0000#16 .a) := by decide

/-- `SUB A,10 > B`, words `F101 000A`. -/
theorem test_decode_subLit : decodeWords [0b1111000100000001, 0b0000000000001010] = .ok (.subLit .a 0x000a#16 .b) := by decide

/-- `SUB 10,A > B`, words `F105 000A`. -/
theorem test_decode_subLitRev : decodeWords [0b1111000100000101, 0b0000000000001010] = .ok (.subLitRev .a 0x000a#16 .b) := by decide

/-- `SBC B,16 > AC`, words `FB12 0010`. -/
theorem test_decode_sbcLit : decodeWords [0b1111101100010010, 0b0000000000010000] = .ok (.sbcLit .b 0x0010#16 .ac) := by decide

/-- `SBC 16,B > AC`, words `FB16 0010`. -/
theorem test_decode_sbcLitRev : decodeWords [0b1111101100010110, 0b0000000000010000] = .ok (.sbcLitRev .b 0x0010#16 .ac) := by decide

/-- `AND A,0x00FF > A`, words `C100 00FF`. -/
theorem test_decode_andLit : decodeWords [0b1100000100000000, 0b0000000011111111] = .ok (.andLit .a 0x00ff#16 .a) := by decide

/-- `IOR A,0x8000 > AB`, words `CB01 8000`. -/
theorem test_decode_iorLit : decodeWords [0b1100101100000001, 0b1000000000000000] = .ok (.iorLit .a 0x8000#16 .ab) := by decide

/-- `XOR A,0xFFFF > A`, words `D900 FFFF`. -/
theorem test_decode_xorLit : decodeWords [0b1101100100000000, 0b1111111111111111] = .ok (.xorLit .a 0xffff#16 .a) := by decide

/-- `LSL A > A`, words `C400`. -/
theorem test_decode_lsl : decodeWords [0b1100010000000000] = .ok (.lsl .a .a) := by decide

/-- `ROL B > AA`, words `CE10`. -/
theorem test_decode_rol : decodeWords [0b1100111000010000] = .ok (.rol .b .aa) := by decide

/-- `LSR C > C`, words `D422`. -/
theorem test_decode_lsr : decodeWords [0b1101010000100010] = .ok (.lsr .c .c) := by decide

/-- `ROR AA > A`, words `DC80`. -/
theorem test_decode_ror : decodeWords [0b1101110010000000] = .ok (.ror .aa .a) := by decide

/-- `NOP`, words `0000`. -/
theorem test_decode_nop : decodeWords [0b0000000000000000] = .ok (.nop) := by decide

/-- `SEF ZE,OV,DI`, words `1016`. -/
theorem test_decode_sef : decodeWords [0b0001000000010110] = .ok (.sef 0x16#5) := by decide

/-- `CLF CA`, words `3001`. -/
theorem test_decode_clf : decodeWords [0b0011000000000001] = .ok (.clf 0x01#5) := by decide

/-- `ITR 3`, words `2003`. -/
theorem test_decode_itr : decodeWords [0b0010000000000011] = .ok (.itr 0x03#8) := by decide

/-- `RTI`, words `2200`. -/
theorem test_decode_rti : decodeWords [0b0010001000000000] = .ok (.rti) := by decide

/-- `RTS`, words `90D0`. -/
theorem test_decode_rts : decodeWords [0b1001000011010000] = .ok (.rts) := by decide

/-- `CMP A,B`, words `FA07`. -/
theorem test_decode_cmpRegs : decodeWords [0b1111101000000111] = .ok (.cmpRegs .a .b) := by decide

/-- `CMP A,5`, words `FB03 0005`. -/
theorem test_decode_cmpLit : decodeWords [0b1111101100000011, 0b0000000000000101] = .ok (.cmpLit .a 0x0005#16) := by decide

/-- `CMP 5,A`, words `FB07 0005`. -/
theorem test_decode_cmpLitRev : decodeWords [0b1111101100000111, 0b0000000000000101] = .ok (.cmpLitRev .a 0x0005#16) := by decide

/-- `JRL A`, words `BA80`. -/
theorem test_decode_jrlReg : decodeWords [0b1011101010000000] = .ok (.jrlReg .a) := by decide

/-- `JRL -1`, words `BA7F`. -/
theorem test_decode_jrlLit7 : decodeWords [0b1011101001111111] = .ok (.jrlLit7 0x7f#7) := by decide

/-- `JCD`, words `B100 8000`. -/
theorem test_decode_jrlLit16 : decodeWords [0b1011000100000000, 0b1000000000000000] = .ok (.jrlLit16 0x8000#16) := by decide

/-! ### Single steps, from the vectors of spec/95_test_vectors.md -/

/-- Vector VM1: `MOV A > $B:C`. -/
theorem test_movRegHi_first :
    gives (start 0x000100 0 [(.a, 0x1234), (.b, 0x0012), (.c, 0x3456)] [] [0x4409] [])
      0x000101 0 [] [(0x123456, 0x1234)] [] = true := by decide

/-- Vector VM19: `MOV A > $C:B (only C bits 7:0 used)`. -/
theorem test_movRegHi_corner :
    gives (start 0x000100 0 [(.a, 0x5555), (.b, 0x1000), (.c, 0xAB02)] [] [0x4406] [])
      0x000101 0 [] [(0x021000, 0x5555)] [] = true := by decide

/-- Vector VM2: `MOV $A:RL > B`. -/
theorem test_movHiReg_first :
    gives (start 0x000100 0 [(.a, 0x0001), (.rl, 0x0020)] [(0x010020, 0x0000)] [0x4A50] [])
      0x000101 2 [(.b, 0x0000)] [] [] = true := by decide

/-- Vector VM21: `MOV $Z:A > B`, whose high address byte is 00. -/
theorem test_movHiReg_corner :
    gives (start 0x000100 0 [(.a, 0x0030)] [(0x000030, 0x7777)] [0x4A13] [])
      0x000101 0 [(.b, 0x7777)] [] [] = true := by decide

/-- Vector VM3: `MOV 528 > $A:B`. -/
theorem test_movLitHi_first :
    gives (start 0x000100 0 [(.a, 0x0002), (.b, 0x1000)] [] [0x4504, 0x0210] [])
      0x000102 0 [] [(0x021000, 0x0210)] [] = true := by decide

/-- Vector VM4: `MOV C > $0x2004`. -/
theorem test_movHiLit_first :
    gives (start 0x000100 0 [(.c, 0x0000)] [] [0x470B, 0x2004] [])
      0x000102 2 [] [(0x002004, 0x0000)] [] = true := by decide

/-- Vector VM8: `MOV PC > RH:RL`. -/
theorem test_movLargePair_first :
    gives (start 0x000100 0 [] [] [0x50D1] [])
      0x000101 0 [(.rl, 0x0101), (.rh, 0x0000)] [] [] = true := by decide

/-- Vector VM18: `MOV PC > A:A (same register twice: high half wins)`. -/
theorem test_movLargePair_corner :
    gives (start 0x000100 0 [] [] [0x5010] [])
      0x000101 0 [(.a, 0x0000)] [] [] = true := by decide

/-- Vector VM9: `MOV A:B > PC`. -/
theorem test_movPairLarge_first :
    gives (start 0x000100 0 [(.a, 0x0001), (.b, 0x2000)] [] [0x5214] [])
      0x012000 0 [] [] [] = true := by decide

/-- Vector VM10: `MOV A:B > PC (A bits 15:8 dropped, ZE on 32 bits)`. -/
theorem test_movPairLarge_corner :
    gives (start 0x000100 0 [(.a, 0xFF01), (.b, 0x2000)] [] [0x5214] [])
      0x012000 0 [] [] [] = true := by decide

/-- Vector VM7: `MOV $0x12:A > $0x34:B`. -/
theorem test_movBytes_first :
    gives (start 0x000100 0 [(.a, 0x0010), (.b, 0x0020)] [(0x120010, 0x00FF)] [0x5107, 0x1234] [])
      0x000102 0 [] [(0x340020, 0x00FF)] [] = true := by decide

/-- Vector VM5: `MOV $0x123456 > SP`. -/
theorem test_movLoad24_first :
    gives (start 0x000100 0 [] [(0x123456, 0x0100)] [0x7912, 0x3456] [])
      0x000102 0 [(.sp, 0x0100)] [] [] = true := by decide

/-- Vector VM6: `MOV RL > $0xFF0000`. -/
theorem test_movStore24_first :
    gives (start 0x000100 0 [(.rl, 0xBEEF)] [] [0x67FF, 0x0000] [])
      0x000102 0 [] [(0xFF0000, 0xBEEF)] [] = true := by decide

/-- Vector VM11: `MOV 200 > B`. -/
theorem test_movLit8_first :
    gives (start 0x000100 0 [] [] [0x68C8] [])
      0x000101 0 [(.b, 0x00C8)] [] [] = true := by decide

/-- Vector VM13: `MOV 255 > Z (write discarded)`. -/
theorem test_movLit8_corner :
    gives (start 0x000100 0 [] [] [0x7CFF] [])
      0x000101 0 [] [] [] = true := by decide

/-- Vectors VS5 and VS6: `PSH F`, the word stored being the five bits zero-extended. -/
theorem test_pshReg_first :
    gives (start 0x000100 0b00010 [(.sp, 0x0200)] [] [0x58EF] [])
        0x000101 0b00000 [(.sp, 0x0201)] [(0x000200, 0x0002)] [] = true ∧
      gives (start 0x000100 0b10011 [(.sp, 0x0200)] [] [0x58EF] [])
        0x000101 0b10001 [(.sp, 0x0201)] [(0x000200, 0x0013)] [] = true := by decide

/-- Vector VS10: `PSH A (SP wraps)`. -/
theorem test_pshReg_corner :
    gives (start 0x000100 0 [(.a, 0x0001), (.sp, 0xFFFF)] [] [0x580F] [])
      0x000101 0 [(.sp, 0x0000)] [(0x00FFFF, 0x0001)] [] = true := by decide

/-- Vector VS4: `PSH PH:PL`. -/
theorem test_pshPair_first :
    gives (start 0x000300 0 [(.sp, 0x0200)] [] [0x58DC] [])
      0x000301 0 [(.sp, 0x0202)] [(0x000200, 0x0000), (0x000201, 0x0301)] [] = true := by decide

/-- Vector VS12: `PSH A:B (SP wraps between halves)`. -/
theorem test_pshPair_corner :
    gives (start 0x000100 0 [(.a, 0x0001), (.b, 0x0000), (.sp, 0xFFFF)] [] [0x5801] [])
      0x000101 0 [(.sp, 0x0001)] [(0x000000, 0x0000), (0x00FFFF, 0x0001)] [] = true := by decide

/-- Vector VS7: `PSH 0x1234`. -/
theorem test_pshLit16_first :
    gives (start 0x000100 0 [(.sp, 0x0200)] [] [0x5B00, 0x1234] [])
      0x000102 0 [(.sp, 0x0201)] [(0x000200, 0x1234)] [] = true := by decide

/-- Vector VS8: `PSH 7`. -/
theorem test_pshLit8_first :
    gives (start 0x000100 0 [(.sp, 0x0200)] [] [0x5A07] [])
      0x000101 0 [(.sp, 0x0201)] [(0x000200, 0x0007)] [] = true := by decide

/-- Vector VS13: `POP A`. -/
theorem test_popReg_first :
    gives (start 0x000100 0 [(.sp, 0x0201)] [(0x000200, 0x00AA)] [0x5C0F] [])
      0x000101 0 [(.a, 0x00AA), (.sp, 0x0200)] [] [] = true := by decide

/-- Vector VS17: `POP F (value 0: ZE stays as popped, 0)`. -/
theorem test_popReg_corner :
    gives (start 0x000100 31 [(.sp, 0x0201)] [(0x000200, 0x0000)] [0x5CEF] [])
      0x000101 0 [(.sp, 0x0200)] [] [] = true := by decide

/-- Vector VS18: `POP PH,PL`. -/
theorem test_popPair_first :
    gives (start 0x000100 0 [(.sp, 0x0202)] [(0x000200, 0x0000), (0x000201, 0x0301)] [0x5CDC] [])
      0x000301 0 [(.sp, 0x0200)] [] [] = true := by decide

/-- Vector VS23: `POP A,B (32-bit zero)`. -/
theorem test_popPair_corner :
    gives (start 0x000100 0 [(.sp, 0x0202)] [(0x000200, 0x0000), (0x000201, 0x0000)] [0x5C01] [])
      0x000101 2 [(.a, 0x0000), (.b, 0x0000), (.sp, 0x0200)] [] [] = true := by decide

/-- Vector VB1: `JMP $A`. -/
theorem test_jmpReg_first :
    gives (start 0x000100 0 [(.a, 0x0400)] [] [0x8000] [])
      0x000400 0 [] [] [] = true := by decide

/-- Vector VB2: `JMP $B:C`. -/
theorem test_jmpPair_first :
    gives (start 0x000100 0 [(.b, 0x0012), (.c, 0x3456)] [] [0x9018] [])
      0x123456 0 [] [] [] = true := by decide

/-- Vector VB3: `JMP $B:0x1000`. -/
theorem test_jmpRegLit_first :
    gives (start 0x000100 0 [(.b, 0x0002)] [] [0x9910, 0x1000] [])
      0x021000 0 [] [] [] = true := by decide

/-- Vector VB4: `JMP $0x0002:B`. -/
theorem test_jmpLitReg_first :
    gives (start 0x000100 0 [(.b, 0x1000)] [] [0x9B10, 0x0002] [])
      0x021000 0 [] [] [] = true := by decide

/-- Vector VB5: `JMP $0xAB02:B (literal bits 15:8 ignored)`. -/
theorem test_jmpLitReg_corner :
    gives (start 0x000100 0 [(.b, 0x1000)] [] [0x9B10, 0xAB02] [])
      0x021000 0 [] [] [] = true := by decide

/-- Vector VB6: `JMP $0x123456`. -/
theorem test_jmpLit24_first :
    gives (start 0x000100 0 [] [] [0x8912, 0x3456] [])
      0x123456 0 [] [] [] = true := by decide

/-- Vector VB8: `JSR $A`. -/
theorem test_jsrReg_first :
    gives (start 0x000100 0 [(.a, 0x0400)] [] [0x8400] [])
      0x000400 0 [(.rl, 0x0101), (.rh, 0x0000)] [] [] = true := by decide

/-- Vector VB9: `JSR $RH:RL (old RT is the target)`. -/
theorem test_jsrPair_first :
    gives (start 0x000100 0 [(.rl, 0x2000), (.rh, 0x0001)] [] [0x94D0] [])
      0x012000 0 [(.rl, 0x0101), (.rh, 0x0000)] [] [] = true := by decide

/-- Vector VB10: `JSR $B:0x1000`. -/
theorem test_jsrRegLit_first :
    gives (start 0x000100 0 [(.b, 0x0002)] [] [0x9D10, 0x1000] [])
      0x021000 0 [(.rl, 0x0102), (.rh, 0x0000)] [] [] = true := by decide

/-- Vector VB11: `JSR $0x0002:B`. -/
theorem test_jsrLitReg_first :
    gives (start 0x000100 0 [(.b, 0x1000)] [] [0x9F10, 0x0002] [])
      0x021000 0 [(.rl, 0x0102), (.rh, 0x0000)] [] [] = true := by decide

/-- Vector VB12: `JSR $0xFF002A`. -/
theorem test_jsrLit24_first :
    gives (start 0x000010 0 [] [] [0x8DFF, 0x002A] [])
      0xFF002A 0 [(.rl, 0x0012), (.rh, 0x0000)] [] [] = true := by decide

/-- Vector VB13: `JSR $0x000200 (return address wraps)`. -/
theorem test_jsrLit24_corner :
    gives (start 0xFFFFFE 0 [] [] [0x8D00, 0x0200] [])
      0x000200 0 [(.rl, 0x0000), (.rh, 0x0000)] [] [] = true := by decide

/-- Vector VB16: `JCD ZE A`. -/
theorem test_jcdReg_first :
    gives (start 0x000100 2 [(.a, 0xFFFE)] [] [0xB280] [])
      0x0000FF 2 [] [] [] = true := by decide

/-- Vector VB51: `JCD CA A (B1 = 0xB0, the alias table's JRL byte: a conditional jump on CA)`. -/
theorem test_jcdReg_corner :
    gives (start 0x000100 0 [(.a, 0x0010)] [] [0xB080] [])
      0x000101 0 [] [] [] = true := by decide

/-- Vector VB19: `JCD ZE 5`. -/
theorem test_jcdLit7_first :
    gives (start 0x000100 2 [] [] [0xB205] [])
      0x000106 2 [] [] [] = true := by decide

/-- Vector VB24: `JCD CA,ZE 100`. -/
theorem test_jcdMask_first :
    gives (start 0x000200 3 [] [] [0xB103, 0x0064] [])
      0x000266 3 [] [] [] = true := by decide

/-- Vector VB27: `JCD CA,ZE 100 (B1[3], B1[1] and mask bits 7:5 set)`. -/
theorem test_jcdMask_corner :
    gives (start 0x000200 3 [] [] [0xBBE3, 0x0064] [])
      0x000266 3 [] [] [] = true := by decide

/-- Vector VB30: `JCC CA B`. -/
theorem test_jccReg_first :
    gives (start 0x000100 0 [(.b, 0x0010)] [] [0xA090] [])
      0x000111 0 [] [] [] = true := by decide

/-- Vector VB32: `JCC ZE -4`. -/
theorem test_jccLit7_first :
    gives (start 0x000100 0 [] [] [0xA27C] [])
      0x0000FD 0 [] [] [] = true := by decide

/-- Vector VB33: `JCC ZE 24`. -/
theorem test_jccMask_first :
    gives (start 0x000100 0 [] [] [0xA102, 0x0018] [])
      0x00011A 0 [] [] [] = true := by decide

/-- Vector VB36: `JCC CA,ZE 24 (one of the two is set)`. -/
theorem test_jccMask_corner :
    gives (start 0x000100 2 [] [] [0xA103, 0x0018] [])
      0x000102 2 [] [] [] = true := by decide

/-- Vector VB37: `JCN ZE,!CA -4`. -/
theorem test_jcn_first :
    gives (start 0x000100 2 [] [] [0xA5FC, 0x0201] [])
      0x0000FE 2 [] [] [] = true := by decide

/-- Vector VB42: `JCN ZE,!CA -4 (B1 = BF, every ignored bit set)`. -/
theorem test_jcn_corner :
    gives (start 0x000100 2 [] [] [0xBFFC, 0x0201] [])
      0x0000FE 2 [] [] [] = true := by decide

/-- Vector VA1: `ADD A,B > C`. -/
theorem test_addRegs_first :
    gives (start 0x000100 0 [(.a, 0x0003), (.b, 0x0004)] [] [0xE006] [])
      0x000101 0 [(.c, 0x0007)] [] [] = true := by decide

/-- Vector VA2: `ADD A,B > C (wraps; CA untouched)`. -/
theorem test_addRegs_corner :
    gives (start 0x000100 1 [(.a, 0xFFFF), (.b, 0x0001)] [] [0xE006] [])
      0x000101 3 [(.c, 0x0000)] [] [] = true := by decide

/-- Vector VA6: `ADC AA,AB > AC`. -/
theorem test_adcRegs_first :
    gives (start 0x000100 0 [(.aa, 0xFFFF), (.ab, 0x0001)] [] [0xEAC6] [])
      0x000101 3 [(.ac, 0x0000)] [] [] = true := by decide

/-- Vector VA11: `ADC A,B > C (OV cleared)`. -/
theorem test_adcRegs_corner :
    gives (start 0x000100 5 [(.a, 0xFFFF), (.b, 0x0000)] [] [0xE806] [])
      0x000101 3 [(.c, 0x0000)] [] [] = true := by decide

/-- Vector VA12: `SUB A,B > C`. -/
theorem test_subRegs_first :
    gives (start 0x000100 0 [(.a, 0x0005), (.b, 0x0005)] [] [0xF006] [])
      0x000101 2 [(.c, 0x0000)] [] [] = true := by decide

/-- Vector VA13: `SUB A,B > C (no borrow recorded)`. -/
theorem test_subRegs_corner :
    gives (start 0x000100 0 [(.a, 0x0000), (.b, 0x0001)] [] [0xF006] [])
      0x000101 0 [(.c, 0xFFFF)] [] [] = true := by decide

/-- Vector VA20: `SBC A,B > C`. -/
theorem test_sbcRegs_first :
    gives (start 0x000100 0 [(.a, 0x8000), (.b, 0x0001)] [] [0xF806] [])
      0x000101 4 [(.c, 0x7FFF)] [] [] = true := by decide

/-- Vector VA24: `SBC A,B > C (OV cleared)`. -/
theorem test_sbcRegs_corner :
    gives (start 0x000100 4 [(.a, 0x0005), (.b, 0x0005)] [] [0xF806] [])
      0x000101 2 [(.c, 0x0000)] [] [] = true := by decide

/-- Vector VA42: `AND A,B > C`. -/
theorem test_andRegs_first :
    gives (start 0x000100 0 [(.a, 0xF0F0), (.b, 0x0FF0)] [] [0xC006] [])
      0x000101 0 [(.c, 0x00F0)] [] [] = true := by decide

/-- Vector VA45: `IOR AA,Z > A`. -/
theorem test_iorRegs_first :
    gives (start 0x000100 0 [(.aa, 0x4321)] [] [0xC8CC] [])
      0x000101 0 [(.a, 0x4321)] [] [] = true := by decide

/-- Vector VA47: `XOR A,A > A`. -/
theorem test_xorRegs_first :
    gives (start 0x000100 0 [(.a, 0x1234)] [] [0xD800] [])
      0x000101 2 [(.a, 0x0000)] [] [] = true := by decide

/-- Vector VA3: `ADD A,1 > A (signed overflow not recorded)`. -/
theorem test_addLit_first :
    gives (start 0x000100 0 [(.a, 0x7FFF)] [] [0xE100, 0x0001] [])
      0x000102 0 [(.a, 0x8000)] [] [] = true := by decide

/-- Vector VA7: `ADC A,0 > A`. -/
theorem test_adcLit_first :
    gives (start 0x000100 1 [(.a, 0x7FFF)] [] [0xE900, 0x0000] [])
      0x000102 4 [(.a, 0x8000)] [] [] = true := by decide

/-- Vector VA14: `SUB A,10 > B`. -/
theorem test_subLit_first :
    gives (start 0x000100 0 [(.a, 0x0003)] [] [0xF101, 0x000A] [])
      0x000102 0 [(.b, 0xFFF9)] [] [] = true := by decide

/-- Vector VA15: `SUB 10,A > B`. -/
theorem test_subLitRev_first :
    gives (start 0x000100 0 [(.a, 0x0003)] [] [0xF105, 0x000A] [])
      0x000102 0 [(.b, 0x0007)] [] [] = true := by decide

/-- Vector VA16: `SBC B,16 > AC`. -/
theorem test_sbcLit_first :
    gives (start 0x000100 0 [(.b, 0x0020)] [] [0xFB12, 0x0010] [])
      0x000102 0 [(.ac, 0x0010)] [] [] = true := by decide

/-- Vector VA19: `SBC 16,B > AC`. -/
theorem test_sbcLitRev_first :
    gives (start 0x000100 0 [(.b, 0x0020)] [] [0xFB16, 0x0010] [])
      0x000102 1 [(.ac, 0xFFF0)] [] [] = true := by decide

/-- Vector VA43: `AND A,0x00FF > A`. -/
theorem test_andLit_first :
    gives (start 0x000100 0 [(.a, 0x1234)] [] [0xC100, 0x00FF] [])
      0x000102 0 [(.a, 0x0034)] [] [] = true := by decide

/-- Vector VA46: `IOR A,0x8000 > AB`. -/
theorem test_iorLit_first :
    gives (start 0x000100 0 [(.a, 0x0001)] [] [0xCB01, 0x8000] [])
      0x000102 0 [(.ab, 0x8001)] [] [] = true := by decide

/-- Vector VA48: `XOR A,0xFFFF > A`. -/
theorem test_xorLit_first :
    gives (start 0x000100 0 [(.a, 0x00FF)] [] [0xD900, 0xFFFF] [])
      0x000102 0 [(.a, 0xFF00)] [] [] = true := by decide

/-- Vector VA32: `LSL A > A`. -/
theorem test_lsl_first :
    gives (start 0x000100 0 [(.a, 0x8001)] [] [0xC400] [])
      0x000101 1 [(.a, 0x0002)] [] [] = true := by decide

/-- Vector VA34: `LSL A > A (CA not shifted in)`. -/
theorem test_lsl_corner :
    gives (start 0x000100 1 [(.a, 0x4000)] [] [0xC400] [])
      0x000101 0 [(.a, 0x8000)] [] [] = true := by decide

/-- Vector VA35: `ROL B > AA`. -/
theorem test_rol_first :
    gives (start 0x000100 0 [(.b, 0x8001)] [] [0xCE10] [])
      0x000101 1 [(.aa, 0x0003)] [] [] = true := by decide

/-- Vector VA37: `LSR C > C`. -/
theorem test_lsr_first :
    gives (start 0x000100 0 [(.c, 0x0001)] [] [0xD422] [])
      0x000101 3 [(.c, 0x0000)] [] [] = true := by decide

/-- Vector VA39: `ROR AA > A`. -/
theorem test_ror_first :
    gives (start 0x000100 0 [(.aa, 0x0001)] [] [0xDC80] [])
      0x000101 1 [(.a, 0x8000)] [] [] = true := by decide

/-- Vector VO1: `NOP`. -/
theorem test_nop_first :
    gives (start 0x000100 17 [] [] [0x0000] [])
      0x000101 17 [] [] [] = true := by decide

/-- Vector VO3: `SEF ZE,OV,DI`. -/
theorem test_sef_first :
    gives (start 0x000100 1 [] [] [0x1016] [])
      0x000101 23 [] [] [] = true := by decide

/-- Vector VO6: `SEF (mask FF: bits 7:5 ignored)`. -/
theorem test_sef_corner :
    gives (start 0x000100 0 [] [] [0x10FF] [])
      0x000101 31 [] [] [] = true := by decide

/-- Vector VO7: `CLF CA`. -/
theorem test_clf_first :
    gives (start 0x000100 3 [] [] [0x3001] [])
      0x000101 2 [] [] [] = true := by decide

/-- Vector VO10: `ITR 3`, whatever INT_VECTOR is. -/
theorem test_itr_first :
    step (start 0x000100 0 [] [] [0x2003] []) = .next { start 0x000100 0 [] [] [0x2003] [] with
      pc := Config.intVector 3, i := 0x0003, istack := [0x000101] } := rfl

/-- Vector VO14: `ITR 3 (masked, stack full: no fault)`. -/
theorem test_itr_corner :
    gives (start 0x000100 16 [] [] [0x2003] [0x000040, 0x000030, 0x000020, 0x000010])
      0x000101 16 [] [] [0x000040, 0x000030, 0x000020, 0x000010] = true := by decide

/-- Vector VO15: `RTI (DI not consulted, not changed)`. -/
theorem test_rti_first :
    gives (start 0x000100 16 [] [] [0x2200] [0x000101, 0x000010])
      0x000101 16 [] [] [0x000010] = true := by decide

/-- Vector VO16: `RTI (stack empty)`. -/
theorem test_rti_corner :
    faults (start 0x000100 0 [] [] [0x2200] []) .interruptStackUnderflow = true := by decide

/-- Vector VB14: `RTS`. -/
theorem test_rts_first :
    gives (start 0x000100 0 [(.rl, 0x0012), (.rh, 0x0000)] [] [0x90D0] [])
      0x000012 0 [] [] [] = true := by decide

/-- Vector VB15: `RTS (RH bits 15:8 ignored)`. -/
theorem test_rts_corner :
    gives (start 0x000100 0 [(.rl, 0x0012), (.rh, 0xFF01)] [] [0x90D0] [])
      0x010012 0 [] [] [] = true := by decide

/-- Vector VA25: `CMP A,B (equal)`. -/
theorem test_cmpRegs_first :
    gives (start 0x000100 0 [(.a, 0x0005), (.b, 0x0005)] [] [0xFA07] [])
      0x000101 2 [] [] [] = true := by decide

/-- Vector VA29: `CMP A,B (greater by 1, CA set on entry)`. -/
theorem test_cmpRegs_corner :
    gives (start 0x000100 1 [(.a, 0x0006), (.b, 0x0005)] [] [0xFA07] [])
      0x000101 2 [] [] [] = true := by decide

/-- Vector VA30: `CMP A,5`. -/
theorem test_cmpLit_first :
    gives (start 0x000100 0 [(.a, 0x0009)] [] [0xFB03, 0x0005] [])
      0x000102 0 [] [] [] = true := by decide

/-- Vector VA31: `CMP 5,A`. -/
theorem test_cmpLitRev_first :
    gives (start 0x000100 0 [(.a, 0x0009)] [] [0xFB07, 0x0005] [])
      0x000102 1 [] [] [] = true := by decide

/-- Vector VB45: `JRL A`. -/
theorem test_jrlReg_first :
    gives (start 0x000100 0 [(.a, 0x0010)] [] [0xBA80] [])
      0x000111 0 [] [] [] = true := by decide

/-- Vector VB44: `JRL -1 (loops on itself)`. -/
theorem test_jrlLit7_first :
    gives (start 0x000100 0 [] [] [0xBA7F] [])
      0x000100 0 [] [] [] = true := by decide

/-- Vector VB48: `JRL -2 (target wraps)`. -/
theorem test_jrlLit7_corner :
    gives (start 0x000000 0 [] [] [0xBA7E] [])
      0xFFFFFF 0 [] [] [] = true := by decide

/-- Vector VB26: `JCD (empty mask) -32768`. -/
theorem test_jrlLit16_first :
    gives (start 0x000200 0 [] [] [0xB100, 0x8000] [])
      0xFF8202 0 [] [] [] = true := by decide

/-! ### Words that are no instruction -/

/-- Vector VM22: B1 = 0x43. -/
theorem test_illegal_opcode : faults (start 0x000100 0 [] [] [0x4310, 0x0210] []) .illegalInstruction = true := by decide

/-- Vector VS24: PSH with 1111 in the first position. -/
theorem test_illegal_null_register : faults (start 0x000100 0 [] [] [0x58F0] []) .illegalInstruction = true := by decide

/-- Vector VS26: POP with 1011 in the second position. -/
theorem test_illegal_register_code : faults (start 0x000100 0 [] [] [0x5C0B] []) .illegalInstruction = true := by decide

/-- Vectors VB28 and VB29: `ccc` = 110 in JCD, `ccc` = 101 in JCC. -/
theorem test_illegal_condition :
    faults (start 0x000100 0 [] [] [0xBC00] []) .illegalInstruction = true ∧
      faults (start 0x000100 0 [] [] [0xAA00] []) .illegalInstruction = true := by decide

/-- A 32-bit word without its second word is no instruction (R90). -/
theorem test_truncated : decodeWords [0xE100] = .error .truncated := by decide

/-! ### The host's words (R122) -/

/-- A 32-bit row: bit 31 is B1[7]; a 16-bit row: bit 15 is B1[7]. -/
theorem test_decodeTableWord :
    decodeTableWord 32 0x79123456 = some (.movLoad24 .sp 0x123456) ∧ decodeTableWord 16 0xE006 = some (.addRegs .a .b .c) ∧
      decodeTableWord 16 0x4300 = none := by decide

/-- A word stored for the fetch is the one the next step runs. -/
theorem test_withFetchWord :
    gives (State.reset.withFetchWord 32 0x79000001) 0x000002 0 [(.sp, 0x0001)] [] [] = true ∧
      gives (State.reset.withFetchWord 16 0x68C8) 0x000001 0 [(.b, 0x00C8)] [] [] = true := by decide

/-- A 16-bit word leaves the word behind it as it was. -/
theorem test_withFetchWord_short :
    (((State.reset.writeWord 0x000001 0x1234).withFetchWord 16 0x68C8).readWord 0x000001) = 0x1234 := by decide

/-! ### Loading an image and the end of a run (R313, R314) -/

/-- Two blocks: `MOV 5 > B` at RESET_PC, and two words at the end of the address space, the second of which wraps. -/
theorem test_boot :
    let s := State.boot [(0x000000, [0x6805]), (0xFFFFFE, [0x1111, 0x2222])]
    gives s 0x000001 0 [(.b, 0x0005)] [(0xFFFFFE, 0x1111), (0xFFFFFF, 0x2222)] [] = true := by decide

/-- At `JRL -1` (BA7F) the run has ended; at `JMP` to its own address too; at NOP it has not. -/
theorem test_ended :
    (start 0x000006 0 [(.a, 0x000F)] [] [0xBA7F] []).ended = true ∧
      (start 0x123456 0 [] [] [0x8912, 0x3456] []).ended = true ∧ (start 0x000006 0 [] [] [0x0000] []).ended = false := by
  decide

/-- One step of program P1 from its last JCC, with ZE set: the run ends at the `JRL -1` behind it. -/
theorem test_run :
    let s := start 0x000005 0b00010 [(.a, 0x000F)] [(0x000006, 0xBA7F)] [0xA27C] []
    run 1 s = .ended { s with pc := 0x000006 } ∧ run 0 s = .unfinished s := by decide

/-! ### The assembler on lines of the spec (R125 to R128) -/

/-- `JCC ZE 24`: the 7L row is preferred, the mask row is also possible (R127). -/
theorem test_assemble_jcc :
    assemble "JCC ZE 24".toList = .ok [.jccLit7 .ze 24, .jccMask 0b00010 24] ∧
      assemble "JCC ZE 64".toList = .ok [.jccMask 0b00010 64] := by decide

/-- `MOV $10 > A`: the radix of the literal is not stated (R125, log entry 26). In JMP and JSR the `$` means nothing more, so the
literal is decimal as it is without it. -/
theorem test_assemble_radix :
    assemble "MOV $10 > A".toList = .error .radixNotStated ∧ assemble "JMP $100".toList = .ok [.jmpLit24 100] ∧
      assemble "JMP $4096:A".toList = .ok [.jmpLitReg .a 4096] ∧ assemble "JSR $A:4096".toList = assemble "JSR A:4096".toList := by
  decide

/-- `MOV $0x10 > $0x2004`: two literals fit no row (R126); row M7 has two high bytes. -/
theorem test_assemble_two_literals :
    assemble "MOV $0x10 > $0x2004".toList = .error .noRow ∧
      assemble "MOV $0x12:A > $0x34:B".toList = .ok [.movBytes true true .a .b 0x12 0x34] := by decide

/-- Spaces left out, added between tokens, and at the ends of the line (log entry 26); none inside a number. -/
theorem test_assemble_spaces :
    assemble "MOV A>$B:C".toList = assemble "MOV A > $B:C".toList ∧ assemble " JMP $ A ".toList = .ok [.jmpReg .a] ∧
      assemble "PSH 1 2".toList = .error .badText := by decide

/-- The lines of vectors VM1, VM8, VB9, VB24, VA25, VS18, as 95_test_vectors.md writes them. -/
theorem test_asmLine :
    asmLine (.movRegHi false true .a .c .b) = "MOV A > $B:C".toList ∧
      asmLine (.movLargePair .pc .rh .rl) = "MOV PC > RH:RL".toList ∧ asmLine (.jsrPair .rh .rl) = "JSR $RH:RL".toList ∧
      asmLine (.jcdMask 0b00011 100) = "JCD CA,ZE 100".toList ∧ asmLine (.cmpRegs .a .b) = "CMP A,B".toList ∧
      asmLine (.popPair .ph .pl) = "POP PH,PL".toList := by decide

/-! ### Witnesses: the hypotheses of each obligation can be met -/

theorem witness_DecodeEncodeRoundTrip : WellFormed (.addLit .aa 0x1234 .sp) := by decide

theorem witness_DontCareBitsAreIgnored :
    WellFormed (.jcn 0xFC 0b00010 0b00001) ∧ dontCareFirst (.jcn 0xFC 0b00010 0b00001) ≠ 0 := by decide

theorem witness_DecodedWordsMatchTheirInstruction :
    decode 0xE048 0 = .ok (.addRegs .a .ac .a) ∧ decode 0xE14C 7 = .ok (.addLit .a 7 .a) ∧
      encodeSecond (.addLit .a 7 .a) = some 7 := by decide

theorem witness_UnassignedWordFaults :
    unassigned ((start 0 0 [] [] [0x0200] []).readWord (start 0 0 [] [] [0x0200] []).pc) = true := by decide

theorem witness_StepRunsTheDecodedInstruction :
    let s := start 0x000100 0 [] [] [0x8DFF, 0x002A] []
    Reads [s.readWord s.pc, s.readWord (s.pc + 1)] (.jsrLit24 0xFF002A) := by decide

/-- Both clauses, for a long and a short instruction. -/
theorem witness_StoredInstructionRunsNext :
    (WellFormed (.pshLit16 0x1234) ∧ WellFormed .rts) ∧ (encode (.pshLit16 0x1234) ++ [0x0000]).length ≤ 2 ^ 24 ∧
      (encode .rts ++ []).length ≤ 2 ^ 24 := by decide

/-- Clause by clause, at the ends of the ranges. -/
theorem witness_MemoryRowsDecode :
    reg4 0b0000 = some .a ∧ reg4 0b1110 = some .f ∧ 0x43 ∈ unassignedMemory ∧ 0x7E ∈ unassignedMemory := by decide

theorem witness_BranchRowsDecode : 0x81 ∈ unassignedBranch ∧ 0x9E ∈ unassignedBranch := by decide

theorem witness_ArithmeticRowsDecode :
    unassignedArithmetic 0xD0 = true ∧ unassignedArithmetic 0xD3 = true ∧ unassignedArithmetic 0xC5 = true ∧
      unassignedArithmetic 0xFE = true := by decide

theorem witness_OtherRowsDecode :
    unassignedOther 0x01 = true ∧ unassignedOther 0x02 = true ∧ unassignedOther 0x24 = true ∧ unassignedOther 0x3F = true := by
  decide

theorem witness_StoredWordReadsBack : (0x000000 : Addr) ≠ 0xFFFFFF := by decide

theorem witness_CanonicalMemoriesAgreeingAreEqual :
    Memory.wf [(0, 0x12), (1, 0x34)] ∧ ∀ key, Memory.get [(0, 0x12), (1, 0x34)] key = Memory.get [(0, 0x12), (1, 0x34)] key :=
  ⟨by decide, fun _ => rfl⟩

/-- The interrupt stack goes from 3 to 4 entries. -/
theorem witness_StepKeepsMachineInvariant :
    let s := start 0x000100 0 [] [] [0x2003] [1, 2, 3]
    Inv s ∧ ∃ t, step s = .next t ∧ t.istack.length = 4 :=
  ⟨⟨by decide, by decide⟩, _, rfl, rfl⟩

/-- An image that wraps, and an address outside it. -/
theorem witness_ResetStateValues :
    let ws : List Word := [0x1111, 0x2222]
    ws.length ≤ 2 ^ 24 ∧ ∀ k < ws.length, (0x000001 : Addr) ≠ 0xFFFFFF + BitVec.ofNat 24 k := by decide

theorem witness_PopUndoesPush :
    let s := start 0x000100 0 [(.sp, 0x0200), (.a, 0x1234)] [] [] []
    Reg.a ∉ [Reg.sp, .pl, .ph, .f] ∧ Reg.aa ∉ [Reg.sp, .pl, .ph, .f] ∧ ∃ t, exec (.pshPair .a .aa) s = .next t ∧
      ∃ u : State, u.sp = t.sp ∧ u.mem = t.mem ∧ u.a ≠ s.a :=
  ⟨by decide, by decide, _, rfl, { State.reset with sp := _, mem := _ }, rfl, rfl, by decide⟩

theorem witness_PopUndoesPush_return :
    let s := start 0x000300 0 [(.sp, 0x0200)] [] [] []
    ∃ t, exec (.pshPair .ph .pl) s = .next t ∧ ∃ u : State, u.sp = t.sp ∧ u.mem = t.mem ∧ u.pc ≠ t.pc :=
  ⟨_, rfl, { State.reset with sp := _, mem := _ }, rfl, rfl, by decide⟩

theorem witness_PopFlagsUndoesPushFlags :
    let s := start 0x000100 0b10110 [(.sp, 0xFFFF)] [] [] []
    ∃ t, exec (.pshReg .f) s = .next t ∧ ∃ u : State, u.sp = t.sp ∧ u.mem = t.mem ∧ u.f ≠ s.f :=
  ⟨_, rfl, { State.reset with sp := _, mem := _ }, rfl, rfl, by decide⟩

theorem witness_JcnTestsBothMasks : (0b00010 : Flags) &&& 0b10010 ≠ 0#5 := by decide

/-- `JMP $0x123456` at 123456. -/
theorem witness_JmpGoesToAddress :
    let s := start 0x123456 0 [] [] [0x8912, 0x3456] []
    Reads [s.readWord s.pc, s.readWord (s.pc + 1)] (.jmpLit24 s.pc) := by decide

/-- The last two clauses: `JRL -1`, and a step before the end. -/
theorem witness_JrlAlwaysJumps :
    (start 0xFFFFFF 0 [] [] [0xBA7F] []).readWord 0xFFFFFF = 0xBA7F#16 ∧
      (start 0x000000 0 [] [] [0x0000] []).ended = false ∧ ∃ t, step (start 0x000000 0 [] [] [0x0000] []) = .next t :=
  ⟨by decide, by decide, _, rfl⟩

theorem witness_RtsReturnsFromJsr :
    let s := start 0x000010 0 [] [] [] []
    (Instr.jsrLit24 0xFF002A, 2) ∈ [(Instr.jsrReg .a, 1), (.jsrPair .a .b, 1), (.jsrRegLit .a 0, 2), (.jsrLitReg .a 0, 2),
      (.jsrLit24 0xFF002A, 2)] ∧ ∃ t, exec (.jsrLit24 0xFF002A) s = .next t ∧
      ∃ u : State, u.rh = t.rh ∧ u.rl = t.rl ∧ u.pc ≠ t.pc :=
  ⟨by decide, _, rfl, { State.reset with rh := _, rl := _ }, rfl, rfl, by decide⟩

/-- Both states of CA of the last two clauses. -/
theorem witness_CmpOrdersItsOperands :
    (start 0 0b00000 [] [] [] []).flag .ca = false ∧ (start 0 0b00001 [] [] [] []).flag .ca = true := by decide

theorem witness_CarryChainIs32BitArithmetic :
    RegA.ab ≠ .z ∧ RegA.aa ≠ .z ∧ RegA.ab ≠ RegA.aa ∧ RegA.ab ≠ RegA.a ∧ RegA.ab ≠ RegA.c := by decide

theorem witness_NopOnlyAdvances : (1 : BitVec 3) ≠ 0#3 ∧ (7 : BitVec 3) ≠ 0#3 := by decide

/-- The three clauses: masked; room, empty and with 3 entries; full. -/
theorem witness_ItrEntersTheHandler :
    (start 0 0b10000 [] [] [] []).flag .di = true ∧
    ((start 0 0 [] [] [] []).flag .di = false ∧ (start 0 0 [] [] [] []).istack.length ≠ 4) ∧
    ((start 0 0 [] [] [] [1, 2, 3]).flag .di = false ∧ (start 0 0 [] [] [] [1, 2, 3]).istack.length ≠ 4) ∧
    ((start 0 0 [] [] [] [1, 2, 3, 4]).flag .di = false ∧ (start 0 0 [] [] [] [1, 2, 3, 4]).istack.length = 4) := by decide

theorem witness_RtiReturnsToNewestAddress :
    (start 0 0 [] [] [] [7, 9]).istack = 7 :: [9] ∧ (start 0 0 [] [] [] []).istack = [] := by decide

theorem witness_RtiReturnsFromItr :
    let s := start 0x000100 0 [] [] [] [1, 2, 3]
    s.flag .di = false ∧ ∃ t, exec (.itr 3) s = .next t ∧ ∃ u : State, u.istack = t.istack ∧ u.a ≠ t.a :=
  ⟨by decide, _, rfl, { State.reset with a := 1, istack := _ }, rfl, by decide⟩

theorem witness_OnlySefClfPopFChangeNeDi :
    mayWriteNeDi (.adcRegs .a .b .c) = false ∧ ∃ t, exec (.adcRegs .a .b .c) (start 0 0b11000 [] [] [] []) = .next t :=
  ⟨by decide, _, rfl⟩

theorem witness_OnlyItrRtiUseInterruptStack : (∀ id, Instr.popReg .a ≠ .itr id) ∧ Instr.popReg .a ≠ .rti :=
  ⟨nofun, nofun⟩

theorem witness_OnlyMovAndPshStore :
    mayStore (.popPair .ph .pl) = false ∧ mayStore (.movRegHi true false .a .b .c) = false ∧
      ∃ t, exec (.popPair .ph .pl) (start 0 0 [(.sp, 2)] [(0, 7)] [] []) = .next t :=
  ⟨by decide, by decide, _, rfl⟩

theorem witness_ArithmeticRegistersAreReachedByArithmeticAndPop :
    RegA.ab ∈ [RegA.aa, .ab, .ac] ∧ RegA.ab ∉ arithDests (.addRegs .ab .b .ac) ∧ regA .ab ∉ popDests (.addRegs .ab .b .ac) ∧
      ∃ t, exec (.addRegs .ab .b .ac) (start 0 0 [(.ab, 5)] [] [] []) = .next t :=
  ⟨by decide, by decide, by decide, _, rfl⟩

/-- A line that one instruction has, and a line that two have. -/
theorem witness_LinesAssembleToWhatTheySay :
    (WellFormed (.cmpLit .a 5) ∧ hasText (.cmpLit .a 5) = true) ∧
      (WellFormed (.pshLit8 7) ∧ hasText (.pshLit8 7) = true ∧ asmLine (.pshLit16 7) = asmLine (.pshLit8 7)) ∧
      "JSR".toList ∈ ["JMP".toList, "JSR".toList] ∧ AsmToken.number 100 false ≠ .dollar := by decide

end Sys2Proof.Tests
end

section
/-!
The register codes of R21 and R22 (spec/10_state.md).
-/

namespace Sys2Proof.Proofs.RegisterCodes

open Sys2Proof Sys2Proof.Machine

/-- With bank bit 0 both kinds of register field read the one REGL column (R22). -/
theorem regA_bankA_false (c : BitVec 2) : regA (bankA false c) = regS (bankS false c) := by
  revert c; decide

/-- The REGL column of R22. -/
theorem map_regS_bankS_false : [0, 1, 2, 3].map (fun x => regS (bankS false x)) = [.a, .b, .c, .sp] := rfl

/-- Settles O13: each table is read off code by code, and the REGL column is read once for both banks. -/
theorem registerCodesNameRegisters : Obligations.RegisterCodesNameRegisters := by
  unfold Obligations.RegisterCodesNameRegisters
  refine ⟨?fullCodes, map_regS_bankS_false, ?spec, ?regl, ?arth⟩
  case fullCodes => rfl
  case spec => rfl
  case regl => simpa only [regA_bankA_false] using map_regS_bankS_false
  case arth => rfl

end Sys2Proof.Proofs.RegisterCodes
end

section
/-!
NOP and its row of the other family (spec/43_other_family.md, R261).
-/

namespace Sys2Proof.Proofs.Nop

open Sys2Proof Sys2Proof.Machine

/-! ### What a jump does -/

/-- `State.jump` as an effect: every frame clause is one of the laws of `jump`. -/
theorem effect_jump (s : State) (x : Addr) : Effect s (s.jump x) x [] [] [] s.istack where
  pcIs := s.jump_pc x
  regsHold := by simp
  regsKept := fun _ _ hl hh _ => s.readReg_jump hl hh x
  flagsHold := by simp
  flagsKept := fun fl _ => s.flag_jump x fl
  storesHold := by simp
  bytesKept := fun key _ => s.readByte_jump x key
  stackIs := s.jump_istack x

theorem onlyJumps_of_eq_jump {o : Result} {s : State} {x : Addr} (h : o = .next (s.jump x)) : OnlyJumps o s x :=
  ⟨s.jump x, h, effect_jump s x⟩

theorem exec_nop (s : State) : exec .nop s = .next (s.jump (s.pcNext 1)) := rfl

/-! ### How the decoder reads the row -/

/-- A byte that matches a row agrees with its pattern on every field that the mask covers. -/
theorem field_eq_of_rowIs {b1 mask pattern : Byte} {lo n : Nat} (hmask : field mask lo n = BitVec.allOnes n)
    (h : rowIs b1 mask pattern = true) : field b1 lo n = field pattern lo n := by
  have hand : b1 &&& mask = pattern := by simpa [rowIs] using h
  unfold field at hmask ⊢
  rw [← hand, BitVec.extractLsb'_and, hmask, BitVec.and_allOnes]

/-- A row whose mask covers the whole byte has one opcode byte. -/
theorem rowIs_full_iff (b1 pattern : Byte) : rowIs b1 0xFF#8 pattern = true ↔ b1 = pattern := by
  unfold rowIs
  rw [show (0xFF#8 : Byte) = BitVec.allOnes 8 from rfl, BitVec.and_allOnes, beq_iff_eq]

/-- B1[7:6] = 00 selects the other family (R93). -/
theorem decode_of_otherFamily {b1 : Byte} (h : field b1 6 2 = 0b00#2) (b2 : Byte) (w2 : Word) :
    decode (wordOf b1 b2) w2 = decodeOther b1 b2 := by
  unfold decode
  simp only [byteHi_wordOf, byteLo_wordOf, h]
  rfl

/-- Of the opcode bytes with B1[7:4] = 0000 only 0x00 is assigned: the rows of the other instructions fix B1[7:4] to
another value (R112). -/
theorem decodeOther_of_highBits_zero {b1 : Byte} (h : field b1 4 4 = 0b0000#4) (b2 : Byte) :
    decodeOther b1 b2 = if b1 = 0x00#8 then .ok .nop else .error .unassignedOpcode := by
  have hrow {mask pattern : Byte} (hmask : field mask 4 4 = BitVec.allOnes 4)
      (hpattern : field pattern 4 4 ≠ 0b0000#4) : ¬ rowIs b1 mask pattern = true :=
    fun hr => hpattern ((field_eq_of_rowIs hmask hr).symm.trans h)
  have hsef : ¬ rowIs b1 0xF1#8 0x10#8 = true := hrow rfl (by decide)
  have hclf : ¬ rowIs b1 0xF1#8 0x30#8 = true := hrow rfl (by decide)
  have hitr : ¬ rowIs b1 0xFF#8 0x20#8 = true := hrow rfl (by decide)
  have hrti : ¬ rowIs b1 0xFF#8 0x22#8 = true := hrow rfl (by decide)
  unfold decodeOther
  simp only [rowIs_full_iff b1 0x00#8, if_neg hsef, if_neg hclf, if_neg hitr, if_neg hrti]

theorem decode_nop (b2 : Byte) (w2 : Word) : decode (wordOf 0b00000000#8 b2) w2 = .ok .nop := by
  rw [decode_of_otherFamily rfl, decodeOther_of_highBits_zero rfl, if_pos rfl]

/-- `0000xxx0` is NOP for `xxx` = 000 only. -/
theorem decode_0000xxx0 {x : BitVec 3} (hx : x ≠ 0#3) (b2 : Byte) (w2 : Word) :
    decode (wordOf (0b0000#4 ++ x ++ 0b0#1) b2) w2 = .error .unassignedOpcode := by
  have hfamily : ∀ x : BitVec 3, field (0b0000#4 ++ x ++ 0b0#1) 6 2 = 0b00#2 := by decide
  have hhigh : ∀ x : BitVec 3, field (0b0000#4 ++ x ++ 0b0#1) 4 4 = 0b0000#4 := by decide
  have hne : ∀ x : BitVec 3, x ≠ 0#3 → 0b0000#4 ++ x ++ 0b0#1 ≠ 0x00#8 := by decide
  rw [decode_of_otherFamily (hfamily x), decodeOther_of_highBits_zero (hhigh x), if_neg (hne x hx)]

/-- Settles O51: executing NOP is a jump to the next instruction, and the opcode byte alone decides the decoding. -/
theorem nopOnlyAdvances : Obligations.NopOnlyAdvances := by
  unfold Obligations.NopOnlyAdvances
  refine ⟨?advances, decode_nop, ?neighbours, ?word⟩
  case advances => exact fun s => onlyJumps_of_eq_jump (exec_nop s)
  case neighbours => exact fun x b2 w2 hx => decode_0000xxx0 hx b2 w2
  case word => exact decode_nop 0x00#8 0#16

end Sys2Proof.Proofs.Nop
end

section
/-!
The rows of the encoding tables (spec/30_encoding.md R100, R105, R110, R112): what the decoder reads where B1 is a row's, for
every B2 and second word, and what the fields of B2 are in each layout. The proofs about decoding and encoding go through these.
-/

namespace Sys2Proof.Proofs.Rows

open Sys2Proof Sys2Proof.Machine Sys2Proof.Proofs.Nop

/-! ### The fields of B2, layout by layout -/

theorem pairLayout_fields : ∀ (s t : Bool) (r u h : BitVec 2),
    let b2 := bit s ++ bit t ++ r ++ u ++ h
    bitAt b2 7 = s ∧ bitAt b2 6 = t ∧ field b2 4 2 = r ∧ field b2 2 2 = u ∧ field b2 0 2 = h := by decide

theorem literalLayout_fields : ∀ (s : Bool) (x : BitVec 3) (u h : BitVec 2),
    let b2 := bit s ++ x ++ u ++ h
    bitAt b2 7 = s ∧ field b2 2 2 = u ∧ field b2 0 2 = h := by decide

theorem largeLayout_fields : ∀ (s t x g : Bool) (u h : BitVec 2),
    let b2 := bit s ++ bit t ++ bit x ++ bit g ++ u ++ h
    bitAt b2 7 = s ∧ bitAt b2 6 = t ∧ bitAt b2 4 = g ∧ field b2 2 2 = u ∧ field b2 0 2 = h := by decide

theorem branchLayout_fields : ∀ (s x : Bool) (r : BitVec 2) (y : BitVec 4),
    let b2 := bit s ++ bit x ++ r ++ y
    bitAt b2 7 = s ∧ bitAt b2 6 = x ∧ field b2 4 2 = r := by decide

theorem arithLayout_fields : ∀ (s x : Bool) (r : BitVec 2) (y z : Bool) (d : BitVec 2),
    let b2 := bit s ++ bit x ++ r ++ bit y ++ bit z ++ d
    bitAt b2 7 = s ∧ field b2 4 2 = r ∧ bitAt b2 2 = z ∧ field b2 0 2 = d := by decide

theorem bytesLayout_fields : ∀ (s t p q : Bool) (r u : BitVec 2),
    let b2 := bit s ++ bit t ++ r ++ u ++ bit p ++ bit q
    bitAt b2 7 = s ∧ bitAt b2 6 = t ∧ field b2 4 2 = r ∧ field b2 2 2 = u ∧ bitAt b2 1 = p ∧ bitAt b2 0 = q := by decide

theorem offsetRegLayout_fields : ∀ (s : Bool) (r : BitVec 2) (x : BitVec 4),
    let b2 := 0b1#1 ++ bit s ++ r ++ x
    bitAt b2 7 = true ∧ bitAt b2 6 = s ∧ field b2 4 2 = r := by decide

theorem offsetLayout_fields : ∀ off : BitVec 7, bitAt (0b0#1 ++ off) 7 = false ∧ field (0b0#1 ++ off) 0 7 = off := by
  decide

theorem maskOf_append (z : BitVec 3) (m : Flags) : maskOf (z ++ m) = m := extract_append_lo z m

theorem stackLayout_fields (x y : BitVec 4) : field (x ++ y) 4 4 = x ∧ field (x ++ y) 0 4 = y :=
  ⟨extract_append_hi x y, extract_append_lo x y⟩

/-! ### The values of a small field of B1 -/

theorem bitVec2_cases : ∀ r : BitVec 2, r = 0 ∨ r = 1 ∨ r = 2 ∨ r = 3 := by decide

theorem bitVec3_cases : ∀ x : BitVec 3, x = 0 ∨ x = 1 ∨ x = 2 ∨ x = 3 ∨ x = 4 ∨ x = 5 ∨ x = 6 ∨ x = 7 := by decide

/-! ### The families (R93) -/

theorem decode_of_memoryFamily {b1 : Byte} (h : field b1 6 2 = 0b01#2) (b2 : Byte) (w2 : Word) :
    decode (wordOf b1 b2) w2 = decodeMemory b1 b2 w2 := by
  unfold decode
  simp only [byteHi_wordOf, byteLo_wordOf, h]

theorem decode_of_branchFamily {b1 : Byte} (h : field b1 6 2 = 0b10#2) (b2 : Byte) (w2 : Word) :
    decode (wordOf b1 b2) w2 = decodeBranch b1 b2 w2 := by
  unfold decode
  simp only [byteHi_wordOf, byteLo_wordOf, h]

theorem decode_of_arithmeticFamily {b1 : Byte} (h : field b1 6 2 = 0b11#2) (b2 : Byte) (w2 : Word) :
    decode (wordOf b1 b2) w2 = decodeArithmetic b1 b2 w2 := by
  unfold decode
  simp only [byteHi_wordOf, byteLo_wordOf, h]

theorem family_cases (b1 : Byte) :
    field b1 6 2 = 0b00#2 ∨ field b1 6 2 = 0b01#2 ∨ field b1 6 2 = 0b10#2 ∨ field b1 6 2 = 0b11#2 := by
  have h : ∀ x : BitVec 2, x = 0b00#2 ∨ x = 0b01#2 ∨ x = 0b10#2 ∨ x = 0b11#2 := by decide
  exact h _

/-! ### Memory family (R100) -/

section
variable (p q s : Bool) (r : BitVec 2) (b2 : Byte) (w2 : Word)

theorem decode_movRegHi : decode (wordOf (0b0100#4 ++ bit p ++ bit q ++ 0b00#2) b2) w2
    = .ok (.movRegHi p q (bankS (bitAt b2 7) (field b2 4 2)) (bankS (bitAt b2 6) (field b2 2 2)) (hi8reg (field b2 0 2))) := by
  cases p <;> cases q <;> exact decode_of_memoryFamily rfl b2 w2

theorem decode_movHiReg : decode (wordOf (0b0100#4 ++ bit p ++ bit q ++ 0b10#2) b2) w2
    = .ok (.movHiReg p q (bankS (bitAt b2 7) (field b2 4 2)) (bankS (bitAt b2 6) (field b2 2 2)) (hi8reg (field b2 0 2))) := by
  cases p <;> cases q <;> exact decode_of_memoryFamily rfl b2 w2

theorem decode_movLitHi : decode (wordOf (0b0100#4 ++ bit p ++ bit q ++ 0b01#2) b2) w2
    = .ok (.movLitHi p q (bankS (bitAt b2 7) (field b2 2 2)) (hi8reg (field b2 0 2)) w2) := by
  cases p <;> cases q <;> exact decode_of_memoryFamily rfl b2 w2

theorem decode_movHiLit : decode (wordOf (0b0100#4 ++ bit p ++ 0b111#3) b2) w2
    = .ok (.movHiLit p (bankS (bitAt b2 7) (field b2 2 2)) (hi8reg (field b2 0 2)) w2) := by
  cases p <;> exact decode_of_memoryFamily rfl b2 w2

theorem decode_movLargePair : decode (wordOf 0x50#8 b2) w2
    = .ok (.movLargePair (largeReg (bitAt b2 4)) (bankS (bitAt b2 6) (field b2 0 2)) (bankS (bitAt b2 7) (field b2 2 2))) :=
  decode_of_memoryFamily rfl b2 w2

theorem decode_movPairLarge : decode (wordOf 0x52#8 b2) w2
    = .ok (.movPairLarge (largeReg (bitAt b2 4)) (bankS (bitAt b2 6) (field b2 0 2)) (bankS (bitAt b2 7) (field b2 2 2))) :=
  decode_of_memoryFamily rfl b2 w2

theorem decode_movBytes : decode (wordOf 0x51#8 b2) w2
    = .ok (.movBytes (bitAt b2 1) (bitAt b2 0) (bankS (bitAt b2 7) (field b2 4 2)) (bankS (bitAt b2 6) (field b2 2 2))
        (byteHi w2) (byteLo w2)) :=
  decode_of_memoryFamily rfl b2 w2

theorem decode_movLoad24 : decode (wordOf (0b011#3 ++ r ++ bit s ++ 0b01#2) b2) w2
    = .ok (.movLoad24 (bankS s r) (addrOf b2 w2)) := by
  obtain rfl | rfl | rfl | rfl := bitVec2_cases r <;> cases s <;> exact decode_of_memoryFamily rfl b2 w2

theorem decode_movStore24 : decode (wordOf (0b011#3 ++ r ++ bit s ++ 0b11#2) b2) w2
    = .ok (.movStore24 (bankS s r) (addrOf b2 w2)) := by
  obtain rfl | rfl | rfl | rfl := bitVec2_cases r <;> cases s <;> exact decode_of_memoryFamily rfl b2 w2

theorem decode_movLit8 : decode (wordOf (0b011#3 ++ r ++ bit s ++ 0b00#2) b2) w2 = .ok (.movLit8 (bankS s r) b2) := by
  obtain rfl | rfl | rfl | rfl := bitVec2_cases r <;> cases s <;> exact decode_of_memoryFamily rfl b2 w2

theorem decode_psh : decode (wordOf 0x58#8 b2) w2 = decodeStackRegs b2 .pshReg .pshPair :=
  decode_of_memoryFamily rfl b2 w2

theorem decode_pop : decode (wordOf 0x5C#8 b2) w2 = decodeStackRegs b2 .popReg .popPair :=
  decode_of_memoryFamily rfl b2 w2

theorem decode_pshLit16 : decode (wordOf 0x5B#8 b2) w2 = .ok (.pshLit16 w2) :=
  decode_of_memoryFamily rfl b2 w2

theorem decode_pshLit8 : decode (wordOf 0x5A#8 b2) w2 = .ok (.pshLit8 b2) :=
  decode_of_memoryFamily rfl b2 w2

end

/-- A single PSH or POP has 1111 in the second position (R161). -/
theorem decodeStackRegs_single {x : BitVec 4} {r : Reg} (h : reg4 x = some r) (single : Reg → Instr)
    (pair : Reg → Reg → Instr) : decodeStackRegs (x ++ 0b1111#4) single pair = .ok (single r) := by
  unfold decodeStackRegs; simp only [stackLayout_fields, h]

/-- A pair names a register in both positions. -/
theorem decodeStackRegs_pair {x y : BitVec 4} {r r' : Reg} (h : reg4 x = some r) (h' : reg4 y = some r')
    (single : Reg → Instr) (pair : Reg → Reg → Instr) : decodeStackRegs (x ++ y) single pair = .ok (pair r r') := by
  have hy : y ≠ 0b1111#4 := by rintro rfl; cases h'
  unfold decodeStackRegs; simp only [stackLayout_fields, h, h']

/-! ### Branch family (R105) -/

section
variable (fl : Flag) (b2 : Byte) (w2 : Word)

theorem decode_jmpReg : decode (wordOf 0x80#8 b2) w2 = .ok (.jmpReg (bankS (bitAt b2 7) (field b2 4 2))) :=
  decode_of_branchFamily rfl b2 w2

theorem decode_jmpPair : decode (wordOf 0x90#8 b2) w2
    = .ok (if bankS (bitAt b2 7) (field b2 4 2) = .rh ∧ bankS (bitAt b2 6) (field b2 2 2) = .rl then .rts
      else .jmpPair (bankS (bitAt b2 7) (field b2 4 2)) (bankS (bitAt b2 6) (field b2 2 2))) :=
  decode_of_branchFamily rfl b2 w2

theorem decode_jmpRegLit : decode (wordOf 0x99#8 b2) w2 = .ok (.jmpRegLit (bankS (bitAt b2 7) (field b2 4 2)) w2) :=
  decode_of_branchFamily rfl b2 w2

theorem decode_jmpLitReg : decode (wordOf 0x9B#8 b2) w2 = .ok (.jmpLitReg (bankS (bitAt b2 7) (field b2 4 2)) w2) :=
  decode_of_branchFamily rfl b2 w2

theorem decode_jmpLit24 : decode (wordOf 0x89#8 b2) w2 = .ok (.jmpLit24 (addrOf b2 w2)) :=
  decode_of_branchFamily rfl b2 w2

theorem decode_jsrReg : decode (wordOf 0x84#8 b2) w2 = .ok (.jsrReg (bankS (bitAt b2 7) (field b2 4 2))) :=
  decode_of_branchFamily rfl b2 w2

theorem decode_jsrPair : decode (wordOf 0x94#8 b2) w2
    = .ok (.jsrPair (bankS (bitAt b2 7) (field b2 4 2)) (bankS (bitAt b2 6) (field b2 2 2))) :=
  decode_of_branchFamily rfl b2 w2

theorem decode_jsrRegLit : decode (wordOf 0x9D#8 b2) w2 = .ok (.jsrRegLit (bankS (bitAt b2 7) (field b2 4 2)) w2) :=
  decode_of_branchFamily rfl b2 w2

theorem decode_jsrLitReg : decode (wordOf 0x9F#8 b2) w2 = .ok (.jsrLitReg (bankS (bitAt b2 7) (field b2 4 2)) w2) :=
  decode_of_branchFamily rfl b2 w2

theorem decode_jsrLit24 : decode (wordOf 0x8D#8 b2) w2 = .ok (.jsrLit24 (addrOf b2 w2)) :=
  decode_of_branchFamily rfl b2 w2

theorem decode_jcd : decode (wordOf (0b1011#4 ++ fl.code ++ 0b0#1) b2) w2
    = if bitAt b2 7 then .ok (.jcdReg (.flag fl) (bankS (bitAt b2 6) (field b2 4 2)))
      else .ok (.jcdLit7 (.flag fl) (field b2 0 7)) := by
  cases fl <;> exact decode_of_branchFamily rfl b2 w2

theorem decode_jrl : decode (wordOf (0b1011#4 ++ Config.condAW ++ 0b0#1) b2) w2
    = if bitAt b2 7 then .ok (.jrlReg (bankS (bitAt b2 6) (field b2 4 2))) else .ok (.jrlLit7 (field b2 0 7)) :=
  decode_of_branchFamily rfl b2 w2

theorem decode_jcc : decode (wordOf (0b1010#4 ++ fl.code ++ 0b0#1) b2) w2
    = if bitAt b2 7 then .ok (.jccReg fl (bankS (bitAt b2 6) (field b2 4 2))) else .ok (.jccLit7 fl (field b2 0 7)) := by
  cases fl <;> exact decode_of_branchFamily rfl b2 w2

theorem decode_jcdMask (x y : Bool) : decode (wordOf (0b1011#4 ++ bit x ++ 0b0#1 ++ bit y ++ 0b1#1) b2) w2
    = .ok (if maskOf b2 = 0#5 then .jrlLit16 w2 else .jcdMask (maskOf b2) w2) := by
  cases x <;> cases y <;> exact decode_of_branchFamily rfl b2 w2

theorem decode_jccMask (x y : Bool) : decode (wordOf (0b1010#4 ++ bit x ++ 0b0#1 ++ bit y ++ 0b1#1) b2) w2
    = .ok (.jccMask (maskOf b2) w2) := by
  cases x <;> cases y <;> exact decode_of_branchFamily rfl b2 w2

theorem decode_jcn (x y z : Bool) : decode (wordOf (0b101#3 ++ bit x ++ bit y ++ 0b1#1 ++ bit z ++ 0b1#1) b2) w2
    = .ok (.jcn b2 (maskOf (byteHi w2)) (maskOf (byteLo w2))) := by
  cases x <;> cases y <;> cases z <;> exact decode_of_branchFamily rfl b2 w2

end

/-! ### Arithmetic family (R110) -/

section
variable (a : Bool) (b2 : Byte) (w2 : Word)

theorem decode_addRegs : decode (wordOf (0b111000#6 ++ bit a ++ 0b0#1) b2) w2
    = .ok (.addRegs (bankA (bitAt b2 7) (field b2 4 2)) (bankA (bitAt b2 6) (field b2 2 2)) (bankA a (field b2 0 2))) := by
  cases a <;> exact decode_of_arithmeticFamily rfl b2 w2

theorem decode_adcRegs : decode (wordOf (0b111010#6 ++ bit a ++ 0b0#1) b2) w2
    = .ok (.adcRegs (bankA (bitAt b2 7) (field b2 4 2)) (bankA (bitAt b2 6) (field b2 2 2)) (bankA a (field b2 0 2))) := by
  cases a <;> exact decode_of_arithmeticFamily rfl b2 w2

theorem decode_subRegs : decode (wordOf (0b111100#6 ++ bit a ++ 0b0#1) b2) w2
    = .ok (.subRegs (bankA (bitAt b2 7) (field b2 4 2)) (bankA (bitAt b2 6) (field b2 2 2)) (bankA a (field b2 0 2))) := by
  cases a <;> exact decode_of_arithmeticFamily rfl b2 w2

theorem decode_sbcRegs : decode (wordOf (0b111110#6 ++ bit a ++ 0b0#1) b2) w2
    = .ok (if bankA a (field b2 0 2) = .z
        then .cmpRegs (bankA (bitAt b2 7) (field b2 4 2)) (bankA (bitAt b2 6) (field b2 2 2))
        else .sbcRegs (bankA (bitAt b2 7) (field b2 4 2)) (bankA (bitAt b2 6) (field b2 2 2)) (bankA a (field b2 0 2))) := by
  cases a <;> exact decode_of_arithmeticFamily rfl b2 w2

theorem decode_andRegs : decode (wordOf (0b110000#6 ++ bit a ++ 0b0#1) b2) w2
    = .ok (.andRegs (bankA (bitAt b2 7) (field b2 4 2)) (bankA (bitAt b2 6) (field b2 2 2)) (bankA a (field b2 0 2))) := by
  cases a <;> exact decode_of_arithmeticFamily rfl b2 w2

theorem decode_iorRegs : decode (wordOf (0b110010#6 ++ bit a ++ 0b0#1) b2) w2
    = .ok (.iorRegs (bankA (bitAt b2 7) (field b2 4 2)) (bankA (bitAt b2 6) (field b2 2 2)) (bankA a (field b2 0 2))) := by
  cases a <;> exact decode_of_arithmeticFamily rfl b2 w2

theorem decode_xorRegs : decode (wordOf (0b110110#6 ++ bit a ++ 0b0#1) b2) w2
    = .ok (.xorRegs (bankA (bitAt b2 7) (field b2 4 2)) (bankA (bitAt b2 6) (field b2 2 2)) (bankA a (field b2 0 2))) := by
  cases a <;> exact decode_of_arithmeticFamily rfl b2 w2

theorem decode_addLit : decode (wordOf (0b111000#6 ++ bit a ++ 0b1#1) b2) w2
    = .ok (.addLit (bankA (bitAt b2 7) (field b2 4 2)) w2 (bankA a (field b2 0 2))) := by
  cases a <;> exact decode_of_arithmeticFamily rfl b2 w2

theorem decode_adcLit : decode (wordOf (0b111010#6 ++ bit a ++ 0b1#1) b2) w2
    = .ok (.adcLit (bankA (bitAt b2 7) (field b2 4 2)) w2 (bankA a (field b2 0 2))) := by
  cases a <;> exact decode_of_arithmeticFamily rfl b2 w2

theorem decode_subLit : decode (wordOf (0b111100#6 ++ bit a ++ 0b1#1) b2) w2
    = .ok (if bitAt b2 2 then .subLitRev (bankA (bitAt b2 7) (field b2 4 2)) w2 (bankA a (field b2 0 2))
      else .subLit (bankA (bitAt b2 7) (field b2 4 2)) w2 (bankA a (field b2 0 2))) := by
  cases a <;> exact decode_of_arithmeticFamily rfl b2 w2

theorem decode_sbcLit : decode (wordOf (0b111110#6 ++ bit a ++ 0b1#1) b2) w2
    = .ok (if bankA a (field b2 0 2) = .z
      then (if bitAt b2 2 then .cmpLitRev (bankA (bitAt b2 7) (field b2 4 2)) w2
        else .cmpLit (bankA (bitAt b2 7) (field b2 4 2)) w2)
      else (if bitAt b2 2 then .sbcLitRev (bankA (bitAt b2 7) (field b2 4 2)) w2 (bankA a (field b2 0 2))
        else .sbcLit (bankA (bitAt b2 7) (field b2 4 2)) w2 (bankA a (field b2 0 2)))) := by
  cases a <;> exact decode_of_arithmeticFamily rfl b2 w2

theorem decode_andLit : decode (wordOf (0b110000#6 ++ bit a ++ 0b1#1) b2) w2
    = .ok (.andLit (bankA (bitAt b2 7) (field b2 4 2)) w2 (bankA a (field b2 0 2))) := by
  cases a <;> exact decode_of_arithmeticFamily rfl b2 w2

theorem decode_iorLit : decode (wordOf (0b110010#6 ++ bit a ++ 0b1#1) b2) w2
    = .ok (.iorLit (bankA (bitAt b2 7) (field b2 4 2)) w2 (bankA a (field b2 0 2))) := by
  cases a <;> exact decode_of_arithmeticFamily rfl b2 w2

theorem decode_xorLit : decode (wordOf (0b110110#6 ++ bit a ++ 0b1#1) b2) w2
    = .ok (.xorLit (bankA (bitAt b2 7) (field b2 4 2)) w2 (bankA a (field b2 0 2))) := by
  cases a <;> exact decode_of_arithmeticFamily rfl b2 w2

theorem decode_lsl : decode (wordOf (0b110001#6 ++ bit a ++ 0b0#1) b2) w2
    = .ok (.lsl (bankA (bitAt b2 7) (field b2 4 2)) (bankA a (field b2 0 2))) := by
  cases a <;> exact decode_of_arithmeticFamily rfl b2 w2

theorem decode_rol : decode (wordOf (0b110011#6 ++ bit a ++ 0b0#1) b2) w2
    = .ok (.rol (bankA (bitAt b2 7) (field b2 4 2)) (bankA a (field b2 0 2))) := by
  cases a <;> exact decode_of_arithmeticFamily rfl b2 w2

theorem decode_lsr : decode (wordOf (0b110101#6 ++ bit a ++ 0b0#1) b2) w2
    = .ok (.lsr (bankA (bitAt b2 7) (field b2 4 2)) (bankA a (field b2 0 2))) := by
  cases a <;> exact decode_of_arithmeticFamily rfl b2 w2

theorem decode_ror : decode (wordOf (0b110111#6 ++ bit a ++ 0b0#1) b2) w2
    = .ok (.ror (bankA (bitAt b2 7) (field b2 4 2)) (bankA a (field b2 0 2))) := by
  cases a <;> exact decode_of_arithmeticFamily rfl b2 w2

end

/-! ### Other family (R112) -/

section
variable (x : BitVec 3) (b2 : Byte) (w2 : Word)

theorem decode_sef : decode (wordOf (0b0001#4 ++ x ++ 0b0#1) b2) w2 = .ok (.sef (maskOf b2)) := by
  obtain rfl | rfl | rfl | rfl | rfl | rfl | rfl | rfl := bitVec3_cases x <;> exact decode_of_otherFamily rfl b2 w2

theorem decode_clf : decode (wordOf (0b0011#4 ++ x ++ 0b0#1) b2) w2 = .ok (.clf (maskOf b2)) := by
  obtain rfl | rfl | rfl | rfl | rfl | rfl | rfl | rfl := bitVec3_cases x <;> exact decode_of_otherFamily rfl b2 w2

theorem decode_itr : decode (wordOf 0x20#8 b2) w2 = .ok (.itr b2) :=
  decode_of_otherFamily rfl b2 w2

theorem decode_rti : decode (wordOf 0x22#8 b2) w2 = .ok .rti :=
  decode_of_otherFamily rfl b2 w2

end

end Sys2Proof.Proofs.Rows
end

section
/-!
Which words the decoder rejects (R120): the rejection of words depends on B1, and for PSH and POP on B2, but on nothing else.
So every question about rejection is one about the 256 values of B1.
-/

namespace Sys2Proof.Proofs.Rejection

open Sys2Proof Sys2Proof.Machine Sys2Proof.Proofs.Nop Sys2Proof.Proofs.Rows

/-- The error with which the decoder rejects, if it does. -/
def rejection : Except DecodeError Instr → Option DecodeError
  | .ok _ => none
  | .error e => some e

@[simp] theorem rejection_ok (i : Instr) : rejection (.ok i) = none := rfl

@[simp] theorem rejection_error (e : DecodeError) : rejection (.error e) = some e := rfl

theorem eq_error_of_rejection {r : Except DecodeError Instr} {e : DecodeError} (h : rejection r = some e) :
    r = .error e := by
  cases r with
  | ok i => cases h
  | error e' => cases h; rfl

theorem exists_error_iff (r : Except DecodeError Instr) : (∃ e, r = .error e) ↔ (rejection r).isSome = true := by
  cases r <;> simp

/-! ### PSH and POP -/

/-- B2 names a register that PSH and POP have not (R161). -/
def badStackCodes (b2 : Byte) : Bool :=
  field b2 4 4 == 0b1011#4 || field b2 4 4 == 0b1111#4 || field b2 0 4 == 0b1011#4

theorem rejection_decodeStackRegs (b2 : Byte) (single : Reg → Instr) (pair : Reg → Reg → Instr) :
    rejection (decodeStackRegs b2 single pair) = if badStackCodes b2 then some .unassignedRegister else none := by
  have hnone : ∀ x : BitVec 4, reg4 x = none ↔ x = 0b1011#4 ∨ x = 0b1111#4 := by decide
  unfold decodeStackRegs badStackCodes
  generalize field b2 4 4 = x
  generalize field b2 0 4 = y
  cases hx : reg4 x with
  | none => obtain rfl | rfl := (hnone x).1 hx <;> rfl
  | some r =>
    have hx' := mt (hnone x).2 (by simp [hx])
    by_cases hy : y = 0b1011#4
    · subst hy; simp; rfl
    · by_cases hy' : y = 0b1111#4
      · simp_all
      · obtain ⟨r', hr'⟩ := Option.ne_none_iff_exists'.1 (mt (hnone y).1 (by simp [hy, hy']))
        simp_all

/-! ### What a rejection depends on -/

section
variable {b1 : Byte} (b2 b2' : Byte) (w2 w2' : Word)

theorem rejection_decodeMemory_congr (hpsh : b1 ≠ 0x58#8) (hpop : b1 ≠ 0x5C#8) :
    rejection (decodeMemory b1 b2 w2) = rejection (decodeMemory b1 b2' w2') := by
  simp only [decodeMemory, rowIs_full_iff, if_neg hpsh, if_neg hpop, apply_ite rejection, rejection_ok]

theorem rejection_decodeJcd_congr : rejection (decodeJcd b1 b2) = rejection (decodeJcd b1 b2') := by
  unfold decodeJcd
  split <;> simp only [apply_ite rejection, rejection_ok, ite_self]

theorem rejection_decodeJcc_congr : rejection (decodeJcc b1 b2) = rejection (decodeJcc b1 b2') := by
  unfold decodeJcc
  split <;> simp only [apply_ite rejection, rejection_ok, ite_self]

theorem rejection_decodeBranch_congr : rejection (decodeBranch b1 b2 w2) = rejection (decodeBranch b1 b2' w2') := by
  simp only [decodeBranch, apply_ite rejection, rejection_ok, rejection_decodeJcd_congr b2 b2',
    rejection_decodeJcc_congr b2 b2']

theorem rejection_decodeArithmetic_congr :
    rejection (decodeArithmetic b1 b2 w2) = rejection (decodeArithmetic b1 b2' w2') := by
  simp only [decodeArithmetic, apply_ite rejection, rejection_ok]

theorem rejection_decodeOther_congr : rejection (decodeOther b1 b2) = rejection (decodeOther b1 b2') := by
  simp only [decodeOther, apply_ite rejection, rejection_ok]

/-- Words that are no PSH or POP are rejected for their opcode byte alone. -/
theorem rejection_decode_congr (hpsh : b1 ≠ 0x58#8) (hpop : b1 ≠ 0x5C#8) :
    rejection (decode (wordOf b1 b2) w2) = rejection (decode (wordOf b1 b2') w2') := by
  obtain h | h | h | h := family_cases b1
  · simpa only [decode_of_otherFamily h] using rejection_decodeOther_congr b2 b2'
  · simpa only [decode_of_memoryFamily h] using rejection_decodeMemory_congr b2 b2' w2 w2' hpsh hpop
  · simpa only [decode_of_branchFamily h] using rejection_decodeBranch_congr b2 b2' w2 w2'
  · simpa only [decode_of_arithmeticFamily h] using rejection_decodeArithmetic_congr b2 b2' w2 w2'

end

/-! ### The unassigned opcode bytes -/

/-- An opcode byte, not of PSH or POP, that is rejected with zeros behind it. -/
def rejectedByOpcode (b1 : Byte) : Bool :=
  b1 != 0x58#8 && b1 != 0x5C#8 && rejection (decode (wordOf b1 0x00#8) 0#16) == some .unassignedOpcode

/-- It is then rejected whatever is behind it. -/
theorem decode_of_rejectedByOpcode {b1 : Byte} (h : rejectedByOpcode b1 = true) (b2 : Byte) (w2 : Word) :
    decode (wordOf b1 b2) w2 = .error .unassignedOpcode := by
  simp only [rejectedByOpcode, Bool.and_eq_true, bne_iff_ne, beq_iff_eq] at h
  obtain ⟨⟨hpsh, hpop⟩, h0⟩ := h
  exact eq_error_of_rejection ((rejection_decode_congr b2 0x00#8 w2 0#16 hpsh hpop).trans h0)

theorem rejectedByOpcode_of_unassignedMemory : ∀ b1 ∈ unassignedMemory, rejectedByOpcode b1 = true := by decide

theorem rejectedByOpcode_of_unassignedBranch : ∀ b1 ∈ unassignedBranch, rejectedByOpcode b1 = true := by decide

theorem rejectedByOpcode_of_unassignedArithmetic :
    ∀ b1 : Byte, unassignedArithmetic b1 = true → rejectedByOpcode b1 = true := by decide

theorem rejectedByOpcode_of_unassignedOther :
    ∀ b1 : Byte, unassignedOther b1 = true → rejectedByOpcode b1 = true := by decide

/-! ### The unassigned first words -/

/-- `unassigned` looks at B2 for PSH and POP only, and there only at whether its codes are bad. -/
theorem unassigned_wordOf (b1 b2 : Byte) :
    unassigned (wordOf b1 b2) = (unassigned (wordOf b1 0x00#8) || ((b1 == 0x58#8 || b1 == 0x5C#8) && badStackCodes b2)) := by
  have hzero : badStackCodes 0x00#8 = false := by decide
  simp only [badStackCodes] at hzero
  simp only [unassigned, badStackCodes, byteHi_wordOf, byteLo_wordOf, hzero, Bool.and_false, Bool.or_false]

theorem isSome_rejection_iff_unassigned (b1 b2 : Byte) (w2 : Word) :
    (rejection (decode (wordOf b1 b2) w2)).isSome = unassigned (wordOf b1 b2) := by
  have hopcode : ∀ b1 : Byte, (rejection (decode (wordOf b1 0x00#8) 0#16)).isSome = unassigned (wordOf b1 0x00#8) := by
    decide
  rw [unassigned_wordOf, ← hopcode]
  by_cases hpsh : b1 = 0x58#8
  · subst hpsh
    rw [decode_psh, decode_psh, rejection_decodeStackRegs, rejection_decodeStackRegs]
    cases badStackCodes b2 <;> rfl
  · by_cases hpop : b1 = 0x5C#8
    · subst hpop
      rw [decode_pop, decode_pop, rejection_decodeStackRegs, rejection_decodeStackRegs]
      cases badStackCodes b2 <;> rfl
    · rw [rejection_decode_congr b2 0x00#8 w2 0#16 hpsh hpop]
      simp [hpsh, hpop]

/-- Settles O4: the rejections are the unassigned words for each of the 256 values of B1, and for PSH and POP code by code. -/
theorem rejectedWordsAreTheUnassignedOnes : Obligations.RejectedWordsAreTheUnassignedOnes := by
  unfold Obligations.RejectedWordsAreTheUnassignedOnes
  intro w1 w2
  rw [exists_error_iff, ← wordOf_bytes w1, isSome_rejection_iff_unassigned]

/-- Settles O5: the fetch gives the word at `pc`, and the decoder rejects it. -/
theorem unassignedWordFaults : Obligations.UnassignedWordFaults := by
  unfold Obligations.UnassignedWordFaults
  intro s h
  obtain ⟨e, he⟩ := (rejectedWordsAreTheUnassignedOnes _ _).2 h
  rw [step_eq, he]

end Sys2Proof.Proofs.Rejection
end

section
/-!
The rows of the four families as the spec lays them out (spec/30_encoding.md sections 3 to 6), field by field.
-/

namespace Sys2Proof.Proofs.RowsDecode

open Sys2Proof Sys2Proof.Machine Sys2Proof.Proofs.Nop Sys2Proof.Proofs.Rows Sys2Proof.Proofs.Rejection

/-- Settles O9: each row lemma of the decoder with the fields of its layout. -/
theorem memoryRowsDecode : Obligations.MemoryRowsDecode := by
  unfold Obligations.MemoryRowsDecode
  refine ⟨?registers, ?literals, ?large, ?bytes, ?addresses, ?stack, ?pushedLiterals, ?unassigned⟩
  case registers =>
    intro p q s t r u h w2
    simp only [decode_movRegHi, decode_movHiReg, pairLayout_fields, and_self]
  case literals =>
    intro p q s x u h lit
    simp only [decode_movLitHi, decode_movHiLit, literalLayout_fields, and_self]
  case large =>
    intro s t x g u h w2
    simp only [decode_movLargePair, decode_movPairLarge, largeLayout_fields, and_self]
  case bytes =>
    intro s t p q r u hs hd
    simp only [decode_movBytes, bytesLayout_fields, byteHi_wordOf, byteLo_wordOf]
  case addresses => exact fun r s b2 w2 => ⟨decode_movLoad24 s r b2 w2, decode_movStore24 s r b2 w2, decode_movLit8 s r b2 w2⟩
  case stack =>
    intro x y r r' w2 hx hy
    exact ⟨(decode_psh _ w2).trans (decodeStackRegs_single hx _ _), (decode_psh _ w2).trans (decodeStackRegs_pair hx hy _ _),
      (decode_pop _ w2).trans (decodeStackRegs_single hx _ _), (decode_pop _ w2).trans (decodeStackRegs_pair hx hy _ _)⟩
  case pushedLiterals => exact fun b2 w2 => ⟨decode_pshLit16 b2 w2, decode_pshLit8 b2 w2⟩
  case unassigned => exact fun b1 h => decode_of_rejectedByOpcode (rejectedByOpcode_of_unassignedMemory b1 h)

/-- Settles O10: each row lemma of the decoder with the fields of its layout; the codes are read off. -/
theorem branchRowsDecode : Obligations.BranchRowsDecode := by
  unfold Obligations.BranchRowsDecode
  refine ⟨rfl, rfl, rfl, ?registers, ?pairs, ?addresses, ?conditions, ?masks, ?jcn, ?unassigned⟩
  case registers =>
    intro s r x y w2
    simp only [decode_jmpReg, decode_jmpRegLit, decode_jmpLitReg, decode_jsrReg, decode_jsrRegLit, decode_jsrLitReg,
      branchLayout_fields, and_self]
  case pairs =>
    intro s t r u x w2
    simp only [decode_jmpPair, decode_jsrPair, pairLayout_fields, and_self]
  case addresses => exact fun b2 w2 => ⟨decode_jmpLit24 b2 w2, decode_jsrLit24 b2 w2⟩
  case conditions =>
    intro fl s r x off w2
    simp only [decode_jcd, decode_jcc, decode_jrl, offsetRegLayout_fields, offsetLayout_fields, if_true, Bool.false_eq_true,
      if_false, and_self]
  case masks =>
    intro x y z m w2
    simp only [decode_jcdMask, decode_jccMask, maskOf_append, and_self]
  case jcn =>
    intro x y z off v w ms mc
    simp only [decode_jcn, byteHi_wordOf, byteLo_wordOf, maskOf_append]
  case unassigned => exact fun b1 h => decode_of_rejectedByOpcode (rejectedByOpcode_of_unassignedBranch b1 h)

/-- Settles O11: each row lemma of the decoder with the fields of its layout. -/
theorem arithmeticRowsDecode : Obligations.ArithmeticRowsDecode := by
  unfold Obligations.ArithmeticRowsDecode
  refine ⟨?registers, ?literals, ?unassigned⟩
  case registers =>
    intro a s t r u d w2
    simp only [decode_addRegs, decode_adcRegs, decode_subRegs, decode_sbcRegs, decode_andRegs, decode_iorRegs, decode_xorRegs,
      pairLayout_fields, and_self]
  case literals =>
    intro a s x y z r d w2
    simp only [decode_addLit, decode_adcLit, decode_subLit, decode_sbcLit, decode_andLit, decode_iorLit, decode_xorLit,
      decode_lsl, decode_rol, decode_lsr, decode_ror, arithLayout_fields, and_self]
  case unassigned => exact fun b1 h => decode_of_rejectedByOpcode (rejectedByOpcode_of_unassignedArithmetic b1 h)

/-- Settles O12: each row lemma of the decoder, with the mask behind its three ignored bits. -/
theorem otherRowsDecode : Obligations.OtherRowsDecode := by
  unfold Obligations.OtherRowsDecode
  refine ⟨?fixed, ?masks, ?unassigned⟩
  case fixed => exact fun b2 w2 => ⟨decode_nop b2 w2, decode_itr b2 w2, decode_rti b2 w2⟩
  case masks =>
    intro x y m w2
    simp only [decode_sef, decode_clf, maskOf_append, and_self]
  case unassigned => exact fun b1 h => decode_of_rejectedByOpcode (rejectedByOpcode_of_unassignedOther b1 h)

end Sys2Proof.Proofs.RowsDecode
end

section
/-!
Encoding and then decoding (R90, R97, R121): the words of a well-formed instruction are read as it, whatever stands in their
don't-care bits.
-/

namespace Sys2Proof.Proofs.RoundTrip

open Sys2Proof Sys2Proof.Machine Sys2Proof.Proofs.Nop Sys2Proof.Proofs.Rows

/-! ### Bits that a mask leaves alone -/

theorem bitAt_xor_masked {mask : Byte} {k : Nat} (hmask : bitAt mask k = false) (b x : Byte) :
    bitAt (b ^^^ (x &&& mask)) k = bitAt b k := by
  unfold bitAt at *
  simp [hmask]

theorem field_xor_masked {mask : Byte} {lo n : Nat} (hmask : field mask lo n = 0#n) (b x : Byte) :
    field (b ^^^ (x &&& mask)) lo n = field b lo n := by
  unfold field at *
  rw [BitVec.extractLsb'_xor, BitVec.extractLsb'_and, hmask, BitVec.and_zero, BitVec.xor_zero]

theorem maskOf_xor_masked {mask : Byte} (hmask : maskOf mask = 0#5) (b x : Byte) :
    maskOf (b ^^^ (x &&& mask)) = maskOf b := field_xor_masked hmask b x

/-- Changing masked bits of a word is changing them in its bytes. -/
theorem wordOf_xor_masked (a b c d : Byte) (x : Word) :
    wordOf a b ^^^ (x &&& wordOf c d) = wordOf (a ^^^ (byteHi x &&& c)) (b ^^^ (byteLo x &&& d)) := by
  conv_lhs => rw [← wordOf_bytes x]
  unfold wordOf
  rw [BitVec.and_append, BitVec.xor_append]

/-- The rows with don't-care bits in B1, as the row lemmas lay them out. -/
theorem opcode_xor_masked : ∀ z : Byte,
    (0xB1#8 ^^^ (z &&& 0x0A#8) = 0b1011#4 ++ bit (bitAt z 3) ++ 0b0#1 ++ bit (bitAt z 1) ++ 0b1#1) ∧
    (0xA1#8 ^^^ (z &&& 0x0A#8) = 0b1010#4 ++ bit (bitAt z 3) ++ 0b0#1 ++ bit (bitAt z 1) ++ 0b1#1) ∧
    (0xA5#8 ^^^ (z &&& 0x1A#8) = 0b101#3 ++ bit (bitAt z 4) ++ bit (bitAt z 3) ++ 0b1#1 ++ bit (bitAt z 1) ++ 0b1#1) ∧
    (0x10#8 ^^^ (z &&& 0x0E#8) = 0b0001#4 ++ field z 1 3 ++ 0b0#1) ∧
    (0x30#8 ^^^ (z &&& 0x0E#8) = 0b0011#4 ++ field z 1 3 ++ 0b0#1) := by decide

/-! ### One instruction -/

/-- The words of `i` are read as `i` with any of their don't-care bits changed, and any word behind a 16-bit instruction. -/
def IgnoresDontCare (i : Instr) : Prop :=
  ∀ x y w2 : Word,
    decode (encodeFirst i ^^^ (x &&& dontCareFirst i)) ((encodeSecond i).getD w2 ^^^ (y &&& dontCareSecond i)) = .ok i

/-- What is to be shown of an instruction, byte by byte. -/
theorem ignoresDontCare_of_bytes {i : Instr} {b1 b2 c1 c2 : Byte} (henc : encodeFirst i = wordOf b1 b2)
    (hdc : dontCareFirst i = wordOf c1 c2) (hsecond : dontCareSecond i = 0#16)
    (h : ∀ (y z : Byte) (w2 : Word), decode (wordOf (b1 ^^^ (y &&& c1)) (b2 ^^^ (z &&& c2))) ((encodeSecond i).getD w2) = .ok i) :
    IgnoresDontCare i := by
  intro x y w2
  rw [henc, hdc, wordOf_xor_masked, hsecond, BitVec.and_zero, BitVec.xor_zero]
  exact h (byteHi x) (byteLo x) w2

/-- The same where the opcode byte has no don't-care bit. -/
theorem ignoresDontCare_of_operands {i : Instr} {b1 b2 c2 : Byte} (henc : encodeFirst i = wordOf b1 b2)
    (hdc : dontCareFirst i = wordOf 0x00#8 c2) (hsecond : dontCareSecond i = 0#16)
    (h : ∀ (z : Byte) (w2 : Word), decode (wordOf b1 (b2 ^^^ (z &&& c2))) ((encodeSecond i).getD w2) = .ok i) :
    IgnoresDontCare i :=
  ignoresDontCare_of_bytes henc hdc hsecond fun y z w2 => by
    rw [BitVec.and_zero, BitVec.xor_zero]
    exact h z w2

/-! ### The bytes that the encoder writes, as the row lemmas lay them out -/

theorem movB1_movHiLit (p : Bool) : movB1 p true 0b11#2 = 0b0100#4 ++ bit p ++ 0b111#3 := by cases p <;> rfl

theorem movLargeB2_layout (g : LargeReg) (rhi rlo : RegS) :
    movLargeB2 g rhi rlo = bit rlo.bank ++ bit rhi.bank ++ bit false ++ bit g.id ++ rlo.code ++ rhi.code := rfl

theorem branchB2One_layout (r1 : RegS) : branchB2One r1 = bit r1.bank ++ bit false ++ r1.code ++ 0b0000#4 := rfl

theorem arithB2One_layout (r1 : RegA) (swp : Bool) (r3 : RegA) :
    arithB2One r1 swp r3 = bit r1.bank ++ bit false ++ r1.code ++ bit false ++ bit swp ++ r3.code := rfl

/-- Row M7 has two `$` bits where M1 and M2 have RHI. -/
theorem pairB2_bits (r1 r2 : RegS) (p q : Bool) :
    pairB2 r1 r2 (bit p ++ bit q) = bit r1.bank ++ bit r2.bank ++ r1.code ++ r2.code ++ bit p ++ bit q := by
  have h : ∀ (s t p q : Bool) (r u : BitVec 2),
      bit s ++ bit t ++ r ++ u ++ (bit p ++ bit q) = bit s ++ bit t ++ r ++ u ++ bit p ++ bit q := by decide
  exact h r1.bank r2.bank p q r1.code r2.code

theorem condB1_layout : ∀ ccc : BitVec 3,
    condB1 true ccc = 0b1011#4 ++ ccc ++ 0b0#1 ∧ condB1 false ccc = 0b1010#4 ++ ccc ++ 0b0#1 := by decide

theorem arithB1_layout (r3 : RegA) :
    arithB1 0b100#3 false r3 false = 0b111000#6 ++ bit r3.bank ++ 0b0#1 ∧
    arithB1 0b101#3 false r3 false = 0b111010#6 ++ bit r3.bank ++ 0b0#1 ∧
    arithB1 0b110#3 false r3 false = 0b111100#6 ++ bit r3.bank ++ 0b0#1 ∧
    arithB1 0b111#3 false r3 false = 0b111110#6 ++ bit r3.bank ++ 0b0#1 ∧
    arithB1 0b000#3 false r3 false = 0b110000#6 ++ bit r3.bank ++ 0b0#1 ∧
    arithB1 0b001#3 false r3 false = 0b110010#6 ++ bit r3.bank ++ 0b0#1 ∧
    arithB1 0b011#3 false r3 false = 0b110110#6 ++ bit r3.bank ++ 0b0#1 ∧
    arithB1 0b100#3 false r3 true = 0b111000#6 ++ bit r3.bank ++ 0b1#1 ∧
    arithB1 0b101#3 false r3 true = 0b111010#6 ++ bit r3.bank ++ 0b1#1 ∧
    arithB1 0b110#3 false r3 true = 0b111100#6 ++ bit r3.bank ++ 0b1#1 ∧
    arithB1 0b111#3 false r3 true = 0b111110#6 ++ bit r3.bank ++ 0b1#1 ∧
    arithB1 0b000#3 false r3 true = 0b110000#6 ++ bit r3.bank ++ 0b1#1 ∧
    arithB1 0b001#3 false r3 true = 0b110010#6 ++ bit r3.bank ++ 0b1#1 ∧
    arithB1 0b011#3 false r3 true = 0b110110#6 ++ bit r3.bank ++ 0b1#1 ∧
    arithB1 0b000#3 true r3 false = 0b110001#6 ++ bit r3.bank ++ 0b0#1 ∧
    arithB1 0b001#3 true r3 false = 0b110011#6 ++ bit r3.bank ++ 0b0#1 ∧
    arithB1 0b010#3 true r3 false = 0b110101#6 ++ bit r3.bank ++ 0b0#1 ∧
    arithB1 0b011#3 true r3 false = 0b110111#6 ++ bit r3.bank ++ 0b0#1 := by
  cases r3 <;> decide

/-! ### All instructions -/

theorem ignoresDontCare (i : Instr) (hwf : WellFormed i) : IgnoresDontCare i := by
  cases i
  -- memory family
  case movRegHi | movHiReg =>
    refine ignoresDontCare_of_operands (c2 := 0x00#8) rfl rfl rfl fun z w2 => ?_
    simp (disch := decide) only [movB1, decode_movRegHi, decode_movHiReg, pairB2, bitAt_xor_masked, field_xor_masked,
      pairLayout_fields, bankS_bank_code, hi8reg_code]
  case movLitHi =>
    refine ignoresDontCare_of_operands (c2 := 0x70#8) rfl rfl rfl fun z w2 => ?_
    simp (disch := decide) only [movB1, decode_movLitHi, movLitB2, bitAt_xor_masked, field_xor_masked, pairLayout_fields,
      bankS_bank_code, hi8reg_code, encodeSecond, Option.getD_some]
  case movHiLit =>
    refine ignoresDontCare_of_operands (c2 := 0x70#8) rfl rfl rfl fun z w2 => ?_
    simp (disch := decide) only [movB1_movHiLit, decode_movHiLit, movLitB2, bitAt_xor_masked, field_xor_masked,
      pairLayout_fields, bankS_bank_code, hi8reg_code, encodeSecond, Option.getD_some]
  case movLargePair | movPairLarge =>
    refine ignoresDontCare_of_operands (c2 := 0x20#8) rfl rfl rfl fun z w2 => ?_
    simp (disch := decide) only [decode_movLargePair, decode_movPairLarge, movLargeB2_layout, bitAt_xor_masked,
      field_xor_masked, largeLayout_fields, bankS_bank_code, largeReg_id]
  case movBytes =>
    refine ignoresDontCare_of_operands (c2 := 0x00#8) rfl rfl rfl fun z w2 => ?_
    simp (disch := decide) only [decode_movBytes, pairB2_bits, bitAt_xor_masked, field_xor_masked, bytesLayout_fields,
      bankS_bank_code, encodeSecond, Option.getD_some, byteHi_wordOf, byteLo_wordOf]
  case movLoad24 | movStore24 =>
    refine ignoresDontCare_of_operands (c2 := 0x00#8) rfl rfl rfl fun z w2 => ?_
    simp only [mov24B1, decode_movLoad24, decode_movStore24, bankS_bank_code, BitVec.and_zero, BitVec.xor_zero, encodeSecond,
      Option.getD_some, addrOf_parts]
  case movLit8 =>
    refine ignoresDontCare_of_operands (c2 := 0x00#8) rfl rfl rfl fun z w2 => ?_
    simp only [mov24B1, decode_movLit8, bankS_bank_code, BitVec.and_zero, BitVec.xor_zero]
  case pshReg r | popReg r =>
    refine ignoresDontCare_of_operands (c2 := 0x00#8) rfl rfl rfl fun z w2 => ?_
    simp only [decode_psh, decode_pop, stackB2, BitVec.and_zero, BitVec.xor_zero, decodeStackRegs_single (reg4_code r)]
  case pshPair r r' | popPair r r' =>
    refine ignoresDontCare_of_operands (c2 := 0x00#8) rfl rfl rfl fun z w2 => ?_
    simp only [decode_psh, decode_pop, stackB2, BitVec.and_zero, BitVec.xor_zero,
      decodeStackRegs_pair (reg4_code r) (reg4_code r')]
  case pshLit16 =>
    refine ignoresDontCare_of_operands (c2 := 0xFF#8) rfl rfl rfl fun z w2 => ?_
    simp only [decode_pshLit16, encodeSecond, Option.getD_some]
  case pshLit8 =>
    refine ignoresDontCare_of_operands (c2 := 0x00#8) rfl rfl rfl fun z w2 => ?_
    simp only [decode_pshLit8, BitVec.and_zero, BitVec.xor_zero]
  -- branch family
  case jmpReg | jsrReg | jmpRegLit | jmpLitReg | jsrRegLit | jsrLitReg =>
    refine ignoresDontCare_of_operands (c2 := 0x4F#8) rfl rfl rfl fun z w2 => ?_
    simp (disch := decide) only [decode_jmpReg, decode_jsrReg, decode_jmpRegLit, decode_jmpLitReg, decode_jsrRegLit,
      decode_jsrLitReg, branchB2One_layout, bitAt_xor_masked, field_xor_masked, branchLayout_fields, bankS_bank_code,
      encodeSecond, Option.getD_some]
  case jmpPair r1 r2 =>
    have hname : ¬ (r1 = .rh ∧ r2 = .rl) := by rintro ⟨rfl, rfl⟩; exact absurd hwf (by decide)
    refine ignoresDontCare_of_operands (c2 := 0x03#8) rfl rfl rfl fun z w2 => ?_
    simp (disch := decide) only [decode_jmpPair, pairB2, bitAt_xor_masked, field_xor_masked, pairLayout_fields,
      bankS_bank_code, if_neg hname]
  case jsrPair =>
    refine ignoresDontCare_of_operands (c2 := 0x03#8) rfl rfl rfl fun z w2 => ?_
    simp (disch := decide) only [decode_jsrPair, pairB2, bitAt_xor_masked, field_xor_masked, pairLayout_fields,
      bankS_bank_code]
  case rts =>
    refine ignoresDontCare_of_operands (c2 := 0x03#8) rfl rfl rfl fun z w2 => ?_
    simp (disch := decide) only [decode_jmpPair, pairB2, bitAt_xor_masked, field_xor_masked, pairLayout_fields,
      bankS_bank_code, and_self, if_true]
  case jmpLit24 | jsrLit24 =>
    refine ignoresDontCare_of_operands (c2 := 0x00#8) rfl rfl rfl fun z w2 => ?_
    simp only [decode_jmpLit24, decode_jsrLit24, BitVec.and_zero, BitVec.xor_zero, encodeSecond, Option.getD_some, addrOf_parts]
  case jcdReg cond r1 =>
    cases cond with
    | aw => cases hwf
    | flag fl =>
      refine ignoresDontCare_of_operands (c2 := 0x0F#8) rfl rfl rfl fun z w2 => ?_
      simp (disch := decide) only [condB1_layout, Cond.code, decode_jcd, offsetB2, bitAt_xor_masked, field_xor_masked,
        offsetRegLayout_fields, bankS_bank_code, if_true]
  case jcdLit7 cond off =>
    cases cond with
    | aw => cases hwf
    | flag fl =>
      refine ignoresDontCare_of_operands (c2 := 0x00#8) rfl rfl rfl fun z w2 => ?_
      simp (disch := decide) only [condB1_layout, Cond.code, decode_jcd, offsetB2Lit, bitAt_xor_masked, field_xor_masked,
        offsetLayout_fields, Bool.false_eq_true, if_false]
  case jccReg | jrlReg =>
    refine ignoresDontCare_of_operands (c2 := 0x0F#8) rfl rfl rfl fun z w2 => ?_
    simp (disch := decide) only [condB1_layout, decode_jcc, decode_jrl, offsetB2, bitAt_xor_masked, field_xor_masked,
      offsetRegLayout_fields, bankS_bank_code, if_true]
  case jccLit7 | jrlLit7 =>
    refine ignoresDontCare_of_operands (c2 := 0x00#8) rfl rfl rfl fun z w2 => ?_
    simp (disch := decide) only [condB1_layout, decode_jcc, decode_jrl, offsetB2Lit, bitAt_xor_masked, field_xor_masked,
      offsetLayout_fields, Bool.false_eq_true, if_false]
  case jcdMask m off =>
    have hname : ¬ m = 0#5 := by simpa [WellFormed, wellFormed] using hwf
    refine ignoresDontCare_of_bytes (c1 := 0x0A#8) (c2 := 0xE0#8) rfl rfl rfl fun y z w2 => ?_
    simp (disch := decide) only [opcode_xor_masked, decode_jcdMask, maskOf_xor_masked, maskOf_maskByte, if_neg hname,
      encodeSecond, Option.getD_some]
  case jccMask =>
    refine ignoresDontCare_of_bytes (c1 := 0x0A#8) (c2 := 0xE0#8) rfl rfl rfl fun y z w2 => ?_
    simp (disch := decide) only [opcode_xor_masked, decode_jccMask, maskOf_xor_masked, maskOf_maskByte, encodeSecond,
      Option.getD_some]
  case jrlLit16 =>
    have hzero : maskOf 0x00#8 = 0#5 := rfl
    refine ignoresDontCare_of_bytes (c1 := 0x0A#8) (c2 := 0xE0#8) rfl rfl rfl fun y z w2 => ?_
    simp (disch := decide) only [opcode_xor_masked, decode_jcdMask, maskOf_xor_masked, hzero, if_true, encodeSecond,
      Option.getD_some]
  case jcn off ms mc =>
    intro x y w2
    rw [encodeFirst, show dontCareFirst (.jcn off ms mc) = wordOf 0x1A#8 0x00#8 from rfl, wordOf_xor_masked, encodeSecond,
      Option.getD_some, show dontCareSecond (.jcn off ms mc) = wordOf 0xE0#8 0xE0#8 from rfl, wordOf_xor_masked]
    simp (disch := decide) only [opcode_xor_masked, decode_jcn, byteHi_wordOf, byteLo_wordOf, maskOf_xor_masked,
      maskOf_maskByte, BitVec.and_zero, BitVec.xor_zero]
  -- arithmetic family
  case addRegs | adcRegs | subRegs | andRegs | iorRegs | xorRegs =>
    refine ignoresDontCare_of_operands (c2 := 0x00#8) rfl rfl rfl fun z w2 => ?_
    simp (disch := decide) only [arithB1_layout, decode_addRegs, decode_adcRegs, decode_subRegs, decode_andRegs,
      decode_iorRegs, decode_xorRegs, arithB2, bitAt_xor_masked, field_xor_masked, pairLayout_fields, bankA_bank_code]
  case sbcRegs r1 r2 r3 =>
    have hname : ¬ r3 = .z := by simpa [WellFormed, wellFormed] using hwf
    refine ignoresDontCare_of_operands (c2 := 0x00#8) rfl rfl rfl fun z w2 => ?_
    simp (disch := decide) only [arithB1_layout, decode_sbcRegs, arithB2, bitAt_xor_masked, field_xor_masked,
      pairLayout_fields, bankA_bank_code, if_neg hname]
  case cmpRegs =>
    refine ignoresDontCare_of_operands (c2 := 0x00#8) rfl rfl rfl fun z w2 => ?_
    simp (disch := decide) only [arithB1_layout, decode_sbcRegs, arithB2, bitAt_xor_masked, field_xor_masked,
      pairLayout_fields, bankA_bank_code, if_true]
  case addLit | adcLit | andLit | iorLit | xorLit | lsl | rol | lsr | ror =>
    refine ignoresDontCare_of_operands (c2 := 0x4C#8) rfl rfl rfl fun z w2 => ?_
    simp (disch := decide) only [arithB1_layout, decode_addLit, decode_adcLit, decode_andLit, decode_iorLit, decode_xorLit,
      decode_lsl, decode_rol, decode_lsr, decode_ror, arithB2One_layout, bitAt_xor_masked, field_xor_masked,
      arithLayout_fields, bankA_bank_code, encodeSecond, Option.getD_some]
  case subLit | subLitRev =>
    refine ignoresDontCare_of_operands (c2 := 0x48#8) rfl rfl rfl fun z w2 => ?_
    simp (disch := decide) only [arithB1_layout, decode_subLit, arithB2One_layout, bitAt_xor_masked, field_xor_masked,
      arithLayout_fields, bankA_bank_code, encodeSecond, Option.getD_some, if_true, Bool.false_eq_true, if_false]
  case sbcLit r1 lit r3 | sbcLitRev r1 lit r3 =>
    have hname : ¬ r3 = .z := by simpa [WellFormed, wellFormed] using hwf
    refine ignoresDontCare_of_operands (c2 := 0x48#8) rfl rfl rfl fun z w2 => ?_
    simp (disch := decide) only [arithB1_layout, decode_sbcLit, arithB2One_layout, bitAt_xor_masked, field_xor_masked,
      arithLayout_fields, bankA_bank_code, encodeSecond, Option.getD_some, if_neg hname, if_true, Bool.false_eq_true, if_false]
  case cmpLit | cmpLitRev =>
    refine ignoresDontCare_of_operands (c2 := 0x48#8) rfl rfl rfl fun z w2 => ?_
    simp (disch := decide) only [arithB1_layout, decode_sbcLit, arithB2One_layout, bitAt_xor_masked, field_xor_masked,
      arithLayout_fields, bankA_bank_code, encodeSecond, Option.getD_some, if_true, Bool.false_eq_true, if_false]
  -- other family
  case nop => exact ignoresDontCare_of_operands (c2 := 0xFF#8) rfl rfl rfl fun z w2 => decode_nop _ w2
  case rti => exact ignoresDontCare_of_operands (c2 := 0xFF#8) rfl rfl rfl fun z w2 => decode_rti _ w2
  case itr =>
    refine ignoresDontCare_of_operands (c2 := 0x00#8) rfl rfl rfl fun z w2 => ?_
    simp only [decode_itr, BitVec.and_zero, BitVec.xor_zero]
  case sef | clf =>
    refine ignoresDontCare_of_bytes (c1 := 0x0E#8) (c2 := 0xE0#8) rfl rfl rfl fun y z w2 => ?_
    simp (disch := decide) only [opcode_xor_masked, decode_sef, decode_clf, maskOf_xor_masked, maskOf_maskByte]

/-- Settles O2: the row of the instruction reads no don't-care bit. -/
theorem dontCareBitsAreIgnored : Obligations.DontCareBitsAreIgnored := by
  unfold Obligations.DontCareBitsAreIgnored
  exact fun i x y w2 hwf => ignoresDontCare i hwf x y w2

end Sys2Proof.Proofs.RoundTrip
end

section
/-!
Decoding and then encoding (R121): words that decode are the encoding of what they decode to, but for don't-care bits.
-/

namespace Sys2Proof.Proofs.DecodedWords

open Sys2Proof Sys2Proof.Machine Sys2Proof.Proofs.Nop Sys2Proof.Proofs.Rows

/-! ### Agreement but for don't-care bits -/

/-- The words are the encoding of `i` but for don't-care bits. -/
structure Matches (w1 w2 : Word) (i : Instr) : Prop where
  wf : WellFormed i
  first : (w1 ^^^ encodeFirst i) &&& ~~~dontCareFirst i = 0#16
  second : ∀ v, encodeSecond i = some v → (w2 ^^^ v) &&& ~~~dontCareSecond i = 0#16

theorem wordOf_agrees {a b c d e f : Byte} (hhi : (a ^^^ c) &&& ~~~e = 0#8) (hlo : (b ^^^ d) &&& ~~~f = 0#8) :
    (wordOf a b ^^^ wordOf c d) &&& ~~~wordOf e f = 0#16 := by
  unfold wordOf
  rw [BitVec.not_append, BitVec.xor_append, BitVec.and_append, hhi, hlo]
  rfl

theorem agrees_self {n : Nat} (x mask : BitVec n) : (x ^^^ x) &&& ~~~mask = 0#n := by
  rw [BitVec.xor_self, BitVec.zero_and]

/-- The bytes of an instruction's first word, its don't-care bits, and its second word. -/
structure Encodes (i : Instr) (x y c1 c2 : Byte) (second : Option Word) : Prop where
  first : encodeFirst i = wordOf x y
  dontCare : dontCareFirst i = wordOf c1 c2
  second : encodeSecond i = second
  wf : WellFormed i

section
variable {b1 b2 x y c1 c2 : Byte} {w2 : Word} {i : Instr}

/-- What is to be shown of a 16-bit instruction, byte by byte. -/
theorem Encodes.matches_short (h : Encodes i x y c1 c2 none) (h1 : (b1 ^^^ x) &&& ~~~c1 = 0#8) (h2 : (b2 ^^^ y) &&& ~~~c2 = 0#8) :
    Matches (wordOf b1 b2) w2 i where
  wf := h.wf
  first := by rw [h.first, h.dontCare]; exact wordOf_agrees h1 h2
  second := by rw [h.second]; nofun

/-- What is to be shown of a 32-bit instruction whose second word is the one read. -/
theorem Encodes.matches_long (h : Encodes i x y c1 c2 (some w2)) (h1 : (b1 ^^^ x) &&& ~~~c1 = 0#8)
    (h2 : (b2 ^^^ y) &&& ~~~c2 = 0#8) : Matches (wordOf b1 b2) w2 i where
  wf := h.wf
  first := by rw [h.first, h.dontCare]; exact wordOf_agrees h1 h2
  second := by rw [h.second]; rintro v ⟨⟩; exact agrees_self _ _

end

/-! ### The codes of a decoded field -/

theorem bank_bankA (v : Bool) (x : BitVec 2) : (bankA v x).bank = v := (bankA_code_bank v x).1

theorem code_bankA (v : Bool) (x : BitVec 2) : (bankA v x).code = x := (bankA_code_bank v x).2

theorem code_of_flagOfCode {c : BitVec 3} {fl : Flag} (h : flagOfCode c = some fl) : fl.code = c := by
  revert c; cases fl <;> decide

theorem code_of_condOfCode {c : BitVec 3} {cond : Cond} (h : condOfCode c = some cond) : cond.code = c := by
  cases cond with
  | flag fl => revert c; cases fl <;> decide
  | aw => revert c; decide

/-! ### Operand bytes, put together again from their fields -/

theorem agrees_branchB2One : ∀ b2 : Byte,
    (b2 ^^^ branchB2One (bankS (bitAt b2 7) (field b2 4 2))) &&& ~~~0x4F#8 = 0#8 := by decide

theorem agrees_arithB2 : ∀ (b2 : Byte) (a : Bool),
    (b2 ^^^ arithB2 (bankA (bitAt b2 7) (field b2 4 2)) (bankA (bitAt b2 6) (field b2 2 2)) (bankA a (field b2 0 2)))
      &&& ~~~0x00#8 = 0#8 := by decide

theorem agrees_arithB2One : ∀ (b2 : Byte) (a : Bool),
    (b2 ^^^ arithB2One (bankA (bitAt b2 7) (field b2 4 2)) false (bankA a (field b2 0 2))) &&& ~~~0x4C#8 = 0#8 := by decide

theorem agrees_arithB2One_swp : ∀ (b2 : Byte) (a : Bool),
    (b2 ^^^ arithB2One (bankA (bitAt b2 7) (field b2 4 2)) (bitAt b2 2) (bankA a (field b2 0 2))) &&& ~~~0x48#8 = 0#8 := by
  decide

/-- What the byte of a PSH or POP was. -/
theorem decodeStackRegs_eq_ok {b2 : Byte} {single : Reg → Instr} {pair : Reg → Reg → Instr} {i : Instr}
    (h : decodeStackRegs b2 single pair = .ok i) :
    (∃ r, i = single r ∧ b2 = stackB2 r.code 0b1111#4) ∨ ∃ r r', i = pair r r' ∧ b2 = stackB2 r.code r'.code := by
  have hb2 : stackB2 (field b2 4 4) (field b2 0 4) = b2 := append_extract (n := 4) (m := 4) b2
  unfold decodeStackRegs at h
  split at h
  case h_1 => cases h
  case h_2 r hr hsingle =>
    cases h
    exact .inl ⟨r, rfl, by rw [(reg4_eq_some _ _).1 hr, ← hsingle, hb2]⟩
  case h_3 r hr _ =>
    split at h
    case h_1 => cases h
    case h_2 r' hr' =>
      cases h
      exact .inr ⟨r, r', rfl, by rw [(reg4_eq_some _ _).1 hr, (reg4_eq_some _ _).1 hr', hb2]⟩

/-! ### Kinds of rows -/

/-- A row of the arithmetic family: the opcode bytes it takes are `11 ooo t a L`, where `a` is what the decoder reads as the bank
of the destination (R110). -/
abbrev ArithRow (pattern : Byte) (ooo : BitVec 3) (t l : Bool) : Prop :=
  ∀ b : Byte, rowIs b 0xFD#8 pattern = true → (0b11#2 ++ ooo ++ bit t ++ bit (bitAt b 1) ++ bit l : Byte) = b

section
variable {b1 b2 : Byte} {w2 : Word} {i : Instr} {op pattern : Byte} {ooo : BitVec 3} {t l : Bool}

theorem agrees_of_rowIs_full (hrow : rowIs b1 0xFF#8 op = true) (mask : Byte) : (b1 ^^^ op) &&& ~~~mask = 0#8 := by
  obtain rfl := (rowIs_full_iff _ _).1 hrow
  exact agrees_self _ _

theorem agrees_arithB1 (h : ArithRow pattern ooo t l) (hrow : rowIs b1 0xFD#8 pattern = true) (c : BitVec 2) :
    (b1 ^^^ arithB1 ooo t (bankA (bitAt b1 1) c) l) &&& ~~~0x00#8 = 0#8 := by
  rw [arithB1, bank_bankA, h b1 hrow]
  exact agrees_self _ _

theorem matches_arithRegs {mk : RegA → RegA → RegA → Instr}
    (henc : ∀ r1 r2 r3, Encodes (mk r1 r2 r3) (arithB1 ooo false r3 false) (arithB2 r1 r2 r3) 0x00#8 0x00#8 none)
    (h : ArithRow pattern ooo false false) (hrow : rowIs b1 0xFD#8 pattern = true) :
    Matches (wordOf b1 b2) w2 (mk (bankA (bitAt b2 7) (field b2 4 2)) (bankA (bitAt b2 6) (field b2 2 2))
      (bankA (bitAt b1 1) (field b2 0 2))) :=
  (henc _ _ _).matches_short (agrees_arithB1 h hrow _) (agrees_arithB2 b2 _)

theorem matches_arithLit {mk : RegA → Word → RegA → Instr}
    (henc : ∀ r1 r3, Encodes (mk r1 w2 r3) (arithB1 ooo false r3 true) (arithB2One r1 false r3) 0x00#8 0x4C#8 (some w2))
    (h : ArithRow pattern ooo false true) (hrow : rowIs b1 0xFD#8 pattern = true) :
    Matches (wordOf b1 b2) w2 (mk (bankA (bitAt b2 7) (field b2 4 2)) w2 (bankA (bitAt b1 1) (field b2 0 2))) :=
  (henc _ _).matches_long (agrees_arithB1 h hrow _) (agrees_arithB2One b2 _)

/-- A literal row whose B2[2] says which operand the literal is. -/
theorem matches_arithLit_swp {mk rev : RegA → Word → RegA → Instr} {r3 : RegA}
    (hlit : ∀ r1, Encodes (mk r1 w2 r3) (arithB1 ooo false r3 true) (arithB2One r1 false r3) 0x00#8 0x48#8 (some w2))
    (hrev : ∀ r1, Encodes (rev r1 w2 r3) (arithB1 ooo false r3 true) (arithB2One r1 true r3) 0x00#8 0x48#8 (some w2))
    (h : ArithRow pattern ooo false true) (hrow : rowIs b1 0xFD#8 pattern = true)
    (hr3 : bankA (bitAt b1 1) (field b2 0 2) = r3) :
    Matches (wordOf b1 b2) w2 (if bitAt b2 2 then rev (bankA (bitAt b2 7) (field b2 4 2)) w2 r3
      else mk (bankA (bitAt b2 7) (field b2 4 2)) w2 r3) := by
  subst hr3
  have hb2 := agrees_arithB2One_swp b2 (bitAt b1 1)
  split
  case isTrue hswp =>
    rw [hswp] at hb2
    exact (hrev _).matches_long (agrees_arithB1 h hrow _) hb2
  case isFalse hswp =>
    rw [Bool.not_eq_true] at hswp
    rw [hswp] at hb2
    exact (hlit _).matches_long (agrees_arithB1 h hrow _) hb2

theorem matches_arithShift {mk : RegA → RegA → Instr}
    (henc : ∀ r1 r3, Encodes (mk r1 r3) (arithB1 ooo true r3 false) (arithB2One r1 false r3) 0x00#8 0x4C#8 none)
    (h : ArithRow pattern ooo true false) (hrow : rowIs b1 0xFD#8 pattern = true) :
    Matches (wordOf b1 b2) w2 (mk (bankA (bitAt b2 7) (field b2 4 2)) (bankA (bitAt b1 1) (field b2 0 2))) :=
  (henc _ _).matches_short (agrees_arithB1 h hrow _) (agrees_arithB2One b2 _)

theorem matches_branchReg {mk : RegS → Instr} (henc : ∀ r1, Encodes (mk r1) op (branchB2One r1) 0x00#8 0x4F#8 none)
    (hrow : rowIs b1 0xFF#8 op = true) : Matches (wordOf b1 b2) w2 (mk (bankS (bitAt b2 7) (field b2 4 2))) :=
  (henc _).matches_short (agrees_of_rowIs_full hrow _) (agrees_branchB2One b2)

theorem matches_branchRegLit {mk : RegS → Word → Instr}
    (henc : ∀ r1, Encodes (mk r1 w2) op (branchB2One r1) 0x00#8 0x4F#8 (some w2)) (hrow : rowIs b1 0xFF#8 op = true) :
    Matches (wordOf b1 b2) w2 (mk (bankS (bitAt b2 7) (field b2 4 2)) w2) :=
  (henc _).matches_long (agrees_of_rowIs_full hrow _) (agrees_branchB2One b2)

/-- A row with a 24-bit address in B2 and the second word. -/
theorem matches_address {mk : Addr → Instr} {x : Byte}
    (henc : ∀ addr, Encodes (mk addr) x (litHi addr) 0x00#8 0x00#8 (some (litLo addr))) (h1 : (b1 ^^^ x) &&& ~~~0x00#8 = 0#8) :
    Matches (wordOf b1 b2) w2 (mk (addrOf b2 w2)) := by
  have h := henc (addrOf b2 w2)
  rw [litHi_addrOf, litLo_addrOf] at h
  exact h.matches_long h1 (agrees_self _ _)

/-- A row of PSH or POP with registers. -/
theorem matches_stackRegs {single : Reg → Instr} {pair : Reg → Reg → Instr}
    (hsingle : ∀ r, Encodes (single r) op (stackB2 r.code 0b1111#4) 0x00#8 0x00#8 none)
    (hpair : ∀ r r', Encodes (pair r r') op (stackB2 r.code r'.code) 0x00#8 0x00#8 none) (hrow : rowIs b1 0xFF#8 op = true)
    (h : decodeStackRegs b2 single pair = .ok i) : Matches (wordOf b1 b2) w2 i := by
  obtain ⟨r, rfl, rfl⟩ | ⟨r, r', rfl, rfl⟩ := decodeStackRegs_eq_ok h
  · exact (hsingle r).matches_short (agrees_of_rowIs_full hrow _) (agrees_self _ _)
  · exact (hpair r r').matches_short (agrees_of_rowIs_full hrow _) (agrees_self _ _)

/-! ### The rows of MOV -/

theorem matches_movRegHi (hrow : rowIs b1 0xF3#8 0x40#8 = true) :
    Matches (wordOf b1 b2) w2 (.movRegHi (bitAt b1 3) (bitAt b1 2) (bankS (bitAt b2 7) (field b2 4 2))
      (bankS (bitAt b2 6) (field b2 2 2)) (hi8reg (field b2 0 2))) :=
  Encodes.matches_short (c1 := 0x00#8) (c2 := 0x00#8) ⟨rfl, rfl, rfl, rfl⟩ (by revert b1; decide) (by revert b2; decide)

theorem matches_movHiReg (hrow : rowIs b1 0xF3#8 0x42#8 = true) :
    Matches (wordOf b1 b2) w2 (.movHiReg (bitAt b1 3) (bitAt b1 2) (bankS (bitAt b2 7) (field b2 4 2))
      (bankS (bitAt b2 6) (field b2 2 2)) (hi8reg (field b2 0 2))) :=
  Encodes.matches_short (c1 := 0x00#8) (c2 := 0x00#8) ⟨rfl, rfl, rfl, rfl⟩ (by revert b1; decide) (by revert b2; decide)

theorem matches_movLitHi (hrow : rowIs b1 0xF3#8 0x41#8 = true) :
    Matches (wordOf b1 b2) w2
      (.movLitHi (bitAt b1 3) (bitAt b1 2) (bankS (bitAt b2 7) (field b2 2 2)) (hi8reg (field b2 0 2)) w2) :=
  Encodes.matches_long (c1 := 0x00#8) (c2 := 0x70#8) ⟨rfl, rfl, rfl, rfl⟩ (by revert b1; decide) (by revert b2; decide)

theorem matches_movHiLit (hrow : rowIs b1 0xF7#8 0x47#8 = true) :
    Matches (wordOf b1 b2) w2 (.movHiLit (bitAt b1 3) (bankS (bitAt b2 7) (field b2 2 2)) (hi8reg (field b2 0 2)) w2) :=
  Encodes.matches_long (c1 := 0x00#8) (c2 := 0x70#8) ⟨rfl, rfl, rfl, rfl⟩ (by revert b1; decide) (by revert b2; decide)

theorem matches_movLarge {mk : LargeReg → RegS → RegS → Instr}
    (henc : ∀ g rhi rlo, Encodes (mk g rhi rlo) op (movLargeB2 g rhi rlo) 0x00#8 0x20#8 none) (hrow : rowIs b1 0xFF#8 op = true) :
    Matches (wordOf b1 b2) w2
      (mk (largeReg (bitAt b2 4)) (bankS (bitAt b2 6) (field b2 0 2)) (bankS (bitAt b2 7) (field b2 2 2))) :=
  (henc _ _ _).matches_short (agrees_of_rowIs_full hrow _) (by revert b2; decide)

theorem matches_movBytes (hrow : rowIs b1 0xFF#8 0x51#8 = true) :
    Matches (wordOf b1 b2) w2 (.movBytes (bitAt b2 1) (bitAt b2 0) (bankS (bitAt b2 7) (field b2 4 2))
      (bankS (bitAt b2 6) (field b2 2 2)) (byteHi w2) (byteLo w2)) :=
  Encodes.matches_long (c1 := 0x00#8) (c2 := 0x00#8) ⟨rfl, rfl, by rw [encodeSecond, wordOf_bytes], rfl⟩
    (agrees_of_rowIs_full hrow _) (by revert b2; decide)

theorem matches_movLoad24 (hrow : rowIs b1 0xE3#8 0x61#8 = true) :
    Matches (wordOf b1 b2) w2 (.movLoad24 (bankS (bitAt b1 2) (field b1 3 2)) (addrOf b2 w2)) :=
  matches_address (fun _ => ⟨rfl, rfl, rfl, rfl⟩) (by revert b1; decide)

theorem matches_movStore24 (hrow : rowIs b1 0xE3#8 0x63#8 = true) :
    Matches (wordOf b1 b2) w2 (.movStore24 (bankS (bitAt b1 2) (field b1 3 2)) (addrOf b2 w2)) :=
  matches_address (fun _ => ⟨rfl, rfl, rfl, rfl⟩) (by revert b1; decide)

theorem matches_movLit8 (hrow : rowIs b1 0xE3#8 0x60#8 = true) :
    Matches (wordOf b1 b2) w2 (.movLit8 (bankS (bitAt b1 2) (field b1 3 2)) b2) :=
  Encodes.matches_short (c1 := 0x00#8) (c2 := 0x00#8) ⟨rfl, rfl, rfl, rfl⟩ (by revert b1; decide) (agrees_self _ _)

/-! ### The other rows with a second name or with bits of their own -/

theorem matches_pshLit16 (hrow : rowIs b1 0xFF#8 0x5B#8 = true) : Matches (wordOf b1 b2) w2 (.pshLit16 w2) :=
  Encodes.matches_long (c1 := 0x00#8) (c2 := 0xFF#8) ⟨rfl, rfl, rfl, rfl⟩ (agrees_of_rowIs_full hrow _) (by revert b2; decide)

theorem matches_pshLit8 (hrow : rowIs b1 0xFF#8 0x5A#8 = true) : Matches (wordOf b1 b2) w2 (.pshLit8 b2) :=
  Encodes.matches_short (c1 := 0x00#8) (c2 := 0x00#8) ⟨rfl, rfl, rfl, rfl⟩ (agrees_of_rowIs_full hrow _) (agrees_self _ _)

theorem matches_jmpPair (hrow : rowIs b1 0xFF#8 0x90#8 = true) : Matches (wordOf b1 b2) w2
    (if bankS (bitAt b2 7) (field b2 4 2) = .rh ∧ bankS (bitAt b2 6) (field b2 2 2) = .rl then .rts
      else .jmpPair (bankS (bitAt b2 7) (field b2 4 2)) (bankS (bitAt b2 6) (field b2 2 2))) := by
  split
  case isTrue hname =>
    exact Encodes.matches_short (c1 := 0x00#8) (c2 := 0x03#8) ⟨rfl, rfl, rfl, rfl⟩ (agrees_of_rowIs_full hrow _)
      (by revert b2; decide)
  case isFalse hname =>
    have hwf : WellFormed (.jmpPair (bankS (bitAt b2 7) (field b2 4 2)) (bankS (bitAt b2 6) (field b2 2 2))) := by
      simpa [WellFormed, wellFormed, imp_iff_not_or] using hname
    exact Encodes.matches_short (c1 := 0x00#8) (c2 := 0x03#8) ⟨rfl, rfl, rfl, hwf⟩ (agrees_of_rowIs_full hrow _)
      (by clear hwf; revert b2; decide)

theorem matches_jsrPair (hrow : rowIs b1 0xFF#8 0x94#8 = true) :
    Matches (wordOf b1 b2) w2 (.jsrPair (bankS (bitAt b2 7) (field b2 4 2)) (bankS (bitAt b2 6) (field b2 2 2))) :=
  Encodes.matches_short (c1 := 0x00#8) (c2 := 0x03#8) ⟨rfl, rfl, rfl, rfl⟩ (agrees_of_rowIs_full hrow _)
    (by revert b2; decide)

theorem agrees_offsetB2 : ∀ b2 : Byte, bitAt b2 7 = true →
    (b2 ^^^ offsetB2 (bankS (bitAt b2 6) (field b2 4 2))) &&& ~~~0x0F#8 = 0#8 := by decide

theorem agrees_offsetB2Lit : ∀ b2 : Byte, ¬ bitAt b2 7 = true → (b2 ^^^ offsetB2Lit (field b2 0 7)) &&& ~~~0x00#8 = 0#8 := by
  decide

/-- A conditional jump of one word: a register or an offset, by B2[7]. -/
theorem matches_condJump {reg : RegS → Instr} {lit7 : BitVec 7 → Instr} {x : Byte}
    (hreg : ∀ r1, Encodes (reg r1) x (offsetB2 r1) 0x00#8 0x0F#8 none)
    (hlit : ∀ off, Encodes (lit7 off) x (offsetB2Lit off) 0x00#8 0x00#8 none) (hx : x = b1)
    (h : (if bitAt b2 7 then .ok (reg (bankS (bitAt b2 6) (field b2 4 2))) else .ok (lit7 (field b2 0 7))) =
      (.ok i : Except DecodeError Instr)) : Matches (wordOf b1 b2) w2 i := by
  subst hx
  split at h
  case isTrue hform =>
    cases h
    exact (hreg _).matches_short (agrees_self _ _) (agrees_offsetB2 b2 hform)
  case isFalse hform =>
    cases h
    exact (hlit _).matches_short (agrees_self _ _) (agrees_offsetB2Lit b2 hform)

theorem matches_jcd (hrow : rowIs b1 0xF1#8 0xB0#8 = true) (h : decodeJcd b1 b2 = .ok i) :
    Matches (wordOf b1 b2) w2 i := by
  have hopcode : condB1 true (field b1 1 3) = b1 := by clear h; revert b1; decide
  unfold decodeJcd at h
  split at h
  case h_1 => cases h
  case h_2 hcode =>
    have hcode : Config.condAW = field b1 1 3 := code_of_condOfCode hcode
    exact matches_condJump (x := condB1 true Config.condAW) (fun _ => ⟨rfl, rfl, rfl, rfl⟩) (fun _ => ⟨rfl, rfl, rfl, rfl⟩)
      (by rw [hcode, hopcode]) h
  case h_3 fl hcode =>
    have hcode : fl.code = field b1 1 3 := code_of_condOfCode hcode
    exact matches_condJump (x := condB1 true fl.code) (fun _ => ⟨rfl, rfl, rfl, rfl⟩) (fun _ => ⟨rfl, rfl, rfl, rfl⟩)
      (by rw [hcode, hopcode]) h

theorem matches_jcc (hrow : rowIs b1 0xF1#8 0xA0#8 = true) (h : decodeJcc b1 b2 = .ok i) :
    Matches (wordOf b1 b2) w2 i := by
  have hopcode : condB1 false (field b1 1 3) = b1 := by clear h; revert b1; decide
  unfold decodeJcc at h
  split at h
  case h_1 => cases h
  case h_2 fl hcode =>
    exact matches_condJump (x := condB1 false fl.code) (fun _ => ⟨rfl, rfl, rfl, rfl⟩) (fun _ => ⟨rfl, rfl, rfl, rfl⟩)
      (by rw [code_of_flagOfCode hcode, hopcode]) h

theorem agrees_maskByte : ∀ b2 : Byte, (b2 ^^^ maskByte (maskOf b2)) &&& ~~~0xE0#8 = 0#8 := by decide

theorem matches_jcdMask (hrow : rowIs b1 0xF5#8 0xB1#8 = true) :
    Matches (wordOf b1 b2) w2 (if maskOf b2 = 0#5 then .jrlLit16 w2 else .jcdMask (maskOf b2) w2) := by
  have h1 : (b1 ^^^ 0xB1#8) &&& ~~~0x0A#8 = 0#8 := by revert b1; decide
  have h2 := agrees_maskByte b2
  split
  case isTrue hname =>
    rw [hname] at h2
    exact Encodes.matches_long ⟨rfl, rfl, rfl, rfl⟩ h1 h2
  case isFalse hname =>
    exact Encodes.matches_long ⟨rfl, rfl, rfl, by simpa [WellFormed, wellFormed] using hname⟩ h1 h2

theorem matches_jccMask (hrow : rowIs b1 0xF5#8 0xA1#8 = true) : Matches (wordOf b1 b2) w2 (.jccMask (maskOf b2) w2) :=
  Encodes.matches_long (c1 := 0x0A#8) ⟨rfl, rfl, rfl, rfl⟩ (by revert b1; decide) (agrees_maskByte b2)

theorem matches_jcn (hrow : rowIs b1 0xE5#8 0xA5#8 = true) :
    Matches (wordOf b1 b2) w2 (.jcn b2 (maskOf (byteHi w2)) (maskOf (byteLo w2))) where
  wf := rfl
  first := wordOf_agrees (c := 0xA5#8) (e := 0x1A#8) (f := 0x00#8) (by revert b1; decide) (agrees_self _ _)
  second := by
    rintro v ⟨⟩
    have h := wordOf_agrees (agrees_maskByte (byteHi w2)) (agrees_maskByte (byteLo w2))
    rwa [wordOf_bytes] at h

theorem matches_sbcRegs (hrow : rowIs b1 0xFD#8 0xF8#8 = true) : Matches (wordOf b1 b2) w2
    (if bankA (bitAt b1 1) (field b2 0 2) = .z
      then .cmpRegs (bankA (bitAt b2 7) (field b2 4 2)) (bankA (bitAt b2 6) (field b2 2 2))
      else .sbcRegs (bankA (bitAt b2 7) (field b2 4 2)) (bankA (bitAt b2 6) (field b2 2 2)) (bankA (bitAt b1 1) (field b2 0 2))) := by
  have h1 := agrees_arithB1 (ooo := 0b111#3) (t := false) (l := false) (by decide) hrow (field b2 0 2)
  have h2 := agrees_arithB2 b2 (bitAt b1 1)
  split
  case isTrue hname =>
    rw [hname] at h1 h2
    exact Encodes.matches_short ⟨rfl, rfl, rfl, rfl⟩ h1 h2
  case isFalse hname =>
    exact Encodes.matches_short ⟨rfl, rfl, rfl, by simpa [WellFormed, wellFormed] using hname⟩ h1 h2

theorem matches_sbcLit (hrow : rowIs b1 0xFD#8 0xF9#8 = true) : Matches (wordOf b1 b2) w2
    (if bankA (bitAt b1 1) (field b2 0 2) = .z
      then (if bitAt b2 2 then .cmpLitRev (bankA (bitAt b2 7) (field b2 4 2)) w2
        else .cmpLit (bankA (bitAt b2 7) (field b2 4 2)) w2)
      else (if bitAt b2 2 then .sbcLitRev (bankA (bitAt b2 7) (field b2 4 2)) w2 (bankA (bitAt b1 1) (field b2 0 2))
        else .sbcLit (bankA (bitAt b2 7) (field b2 4 2)) w2 (bankA (bitAt b1 1) (field b2 0 2)))) := by
  split
  case isTrue hname =>
    exact matches_arithLit_swp (mk := fun r1 lit _ => .cmpLit r1 lit) (rev := fun r1 lit _ => .cmpLitRev r1 lit)
      (fun _ => ⟨rfl, rfl, rfl, rfl⟩) (fun _ => ⟨rfl, rfl, rfl, rfl⟩) (by decide) hrow hname
  case isFalse hname =>
    have hz : (bankA (bitAt b1 1) (field b2 0 2) != .z) = true := by simpa using hname
    exact matches_arithLit_swp (mk := .sbcLit) (rev := .sbcLitRev) (fun _ => ⟨rfl, rfl, rfl, hz⟩)
      (fun _ => ⟨rfl, rfl, rfl, hz⟩) (by decide) hrow rfl

theorem matches_nop (hrow : rowIs b1 0xFF#8 0x00#8 = true) : Matches (wordOf b1 b2) w2 .nop :=
  Encodes.matches_short (c1 := 0x00#8) (c2 := 0xFF#8) ⟨rfl, rfl, rfl, rfl⟩ (agrees_of_rowIs_full hrow _) (by revert b2; decide)

theorem matches_rti (hrow : rowIs b1 0xFF#8 0x22#8 = true) : Matches (wordOf b1 b2) w2 .rti :=
  Encodes.matches_short (c1 := 0x00#8) (c2 := 0xFF#8) ⟨rfl, rfl, rfl, rfl⟩ (agrees_of_rowIs_full hrow _) (by revert b2; decide)

theorem matches_itr (hrow : rowIs b1 0xFF#8 0x20#8 = true) : Matches (wordOf b1 b2) w2 (.itr b2) :=
  Encodes.matches_short (c1 := 0x00#8) (c2 := 0x00#8) ⟨rfl, rfl, rfl, rfl⟩ (agrees_of_rowIs_full hrow _) (agrees_self _ _)

theorem matches_sef (hrow : rowIs b1 0xF1#8 0x10#8 = true) : Matches (wordOf b1 b2) w2 (.sef (maskOf b2)) :=
  Encodes.matches_short (c1 := 0x0E#8) ⟨rfl, rfl, rfl, rfl⟩ (by revert b1; decide) (agrees_maskByte b2)

theorem matches_clf (hrow : rowIs b1 0xF1#8 0x30#8 = true) : Matches (wordOf b1 b2) w2 (.clf (maskOf b2)) :=
  Encodes.matches_short (c1 := 0x0E#8) ⟨rfl, rfl, rfl, rfl⟩ (by revert b1; decide) (agrees_maskByte b2)

end

/-! ### Family by family -/

section
variable {b1 b2 : Byte} {w2 : Word} {i j : Instr} {rest : Except DecodeError Instr} {c : Bool}

/-- One row of a family: it matches and is what was decoded, or the rows behind it decoded. -/
theorem matches_of_row (h : (if c = true then .ok j else rest) = .ok i) (hrow : c = true → Matches (wordOf b1 b2) w2 j)
    (hrest : rest = .ok i → Matches (wordOf b1 b2) w2 i) : Matches (wordOf b1 b2) w2 i := by
  split at h
  case isTrue hc => cases h; exact hrow hc
  case isFalse => exact hrest h

/-- The same for a row with a decoding of its own. -/
theorem matches_of_rows {rows : Except DecodeError Instr} (h : (if c = true then rows else rest) = .ok i)
    (hrow : c = true → rows = .ok i → Matches (wordOf b1 b2) w2 i) (hrest : rest = .ok i → Matches (wordOf b1 b2) w2 i) :
    Matches (wordOf b1 b2) w2 i := by
  split at h
  case isTrue hc => exact hrow hc h
  case isFalse => exact hrest h

theorem matches_of_decodeMemory (h : decodeMemory b1 b2 w2 = .ok i) : Matches (wordOf b1 b2) w2 i := by
  refine matches_of_row h matches_movRegHi fun h => ?_
  refine matches_of_row h matches_movHiReg fun h => ?_
  refine matches_of_row h matches_movLitHi fun h => ?_
  refine matches_of_row h matches_movHiLit fun h => ?_
  refine matches_of_row h (matches_movLarge (mk := .movLargePair) (fun _ _ _ => ⟨rfl, rfl, rfl, rfl⟩)) fun h => ?_
  refine matches_of_row h (matches_movLarge (mk := .movPairLarge) (fun _ _ _ => ⟨rfl, rfl, rfl, rfl⟩)) fun h => ?_
  refine matches_of_row h matches_movBytes fun h => ?_
  refine matches_of_row h matches_movLoad24 fun h => ?_
  refine matches_of_row h matches_movStore24 fun h => ?_
  refine matches_of_row h matches_movLit8 fun h => ?_
  refine matches_of_rows h (matches_stackRegs (fun _ => ⟨rfl, rfl, rfl, rfl⟩) (fun _ _ => ⟨rfl, rfl, rfl, rfl⟩)) fun h => ?_
  refine matches_of_row h matches_pshLit16 fun h => ?_
  refine matches_of_row h matches_pshLit8 fun h => ?_
  refine matches_of_rows h (matches_stackRegs (fun _ => ⟨rfl, rfl, rfl, rfl⟩) (fun _ _ => ⟨rfl, rfl, rfl, rfl⟩)) fun h => ?_
  cases h

theorem matches_of_decodeBranch (h : decodeBranch b1 b2 w2 = .ok i) : Matches (wordOf b1 b2) w2 i := by
  refine matches_of_row h (matches_branchReg (mk := .jmpReg) (fun _ => ⟨rfl, rfl, rfl, rfl⟩)) fun h => ?_
  refine matches_of_row h matches_jmpPair fun h => ?_
  refine matches_of_row h (matches_branchRegLit (mk := .jmpRegLit) (fun _ => ⟨rfl, rfl, rfl, rfl⟩)) fun h => ?_
  refine matches_of_row h (matches_branchRegLit (mk := .jmpLitReg) (fun _ => ⟨rfl, rfl, rfl, rfl⟩)) fun h => ?_
  refine matches_of_row h (fun hrow => matches_address (mk := .jmpLit24) (fun _ => ⟨rfl, rfl, rfl, rfl⟩)
    (agrees_of_rowIs_full hrow _)) fun h => ?_
  refine matches_of_row h (matches_branchReg (mk := .jsrReg) (fun _ => ⟨rfl, rfl, rfl, rfl⟩)) fun h => ?_
  refine matches_of_row h matches_jsrPair fun h => ?_
  refine matches_of_row h (matches_branchRegLit (mk := .jsrRegLit) (fun _ => ⟨rfl, rfl, rfl, rfl⟩)) fun h => ?_
  refine matches_of_row h (matches_branchRegLit (mk := .jsrLitReg) (fun _ => ⟨rfl, rfl, rfl, rfl⟩)) fun h => ?_
  refine matches_of_row h (fun hrow => matches_address (mk := .jsrLit24) (fun _ => ⟨rfl, rfl, rfl, rfl⟩)
    (agrees_of_rowIs_full hrow _)) fun h => ?_
  refine matches_of_rows h matches_jcd fun h => ?_
  refine matches_of_row h matches_jcdMask fun h => ?_
  refine matches_of_rows h matches_jcc fun h => ?_
  refine matches_of_row h matches_jccMask fun h => ?_
  refine matches_of_row h matches_jcn fun h => ?_
  cases h

theorem matches_of_decodeArithmetic (h : decodeArithmetic b1 b2 w2 = .ok i) : Matches (wordOf b1 b2) w2 i := by
  refine matches_of_row h (matches_arithRegs (mk := .addRegs) (fun _ _ _ => ⟨rfl, rfl, rfl, rfl⟩) (by decide)) fun h => ?_
  refine matches_of_row h (matches_arithRegs (mk := .adcRegs) (fun _ _ _ => ⟨rfl, rfl, rfl, rfl⟩) (by decide)) fun h => ?_
  refine matches_of_row h (matches_arithRegs (mk := .subRegs) (fun _ _ _ => ⟨rfl, rfl, rfl, rfl⟩) (by decide)) fun h => ?_
  refine matches_of_row h matches_sbcRegs fun h => ?_
  refine matches_of_row h (matches_arithRegs (mk := .andRegs) (fun _ _ _ => ⟨rfl, rfl, rfl, rfl⟩) (by decide)) fun h => ?_
  refine matches_of_row h (matches_arithRegs (mk := .iorRegs) (fun _ _ _ => ⟨rfl, rfl, rfl, rfl⟩) (by decide)) fun h => ?_
  refine matches_of_row h (matches_arithRegs (mk := .xorRegs) (fun _ _ _ => ⟨rfl, rfl, rfl, rfl⟩) (by decide)) fun h => ?_
  refine matches_of_row h (matches_arithLit (mk := .addLit) (fun _ _ => ⟨rfl, rfl, rfl, rfl⟩) (by decide)) fun h => ?_
  refine matches_of_row h (matches_arithLit (mk := .adcLit) (fun _ _ => ⟨rfl, rfl, rfl, rfl⟩) (by decide)) fun h => ?_
  refine matches_of_row h (fun hrow => matches_arithLit_swp (mk := .subLit) (rev := .subLitRev) (fun _ => ⟨rfl, rfl, rfl, rfl⟩)
    (fun _ => ⟨rfl, rfl, rfl, rfl⟩) (by decide) hrow rfl) fun h => ?_
  refine matches_of_row h matches_sbcLit fun h => ?_
  refine matches_of_row h (matches_arithLit (mk := .andLit) (fun _ _ => ⟨rfl, rfl, rfl, rfl⟩) (by decide)) fun h => ?_
  refine matches_of_row h (matches_arithLit (mk := .iorLit) (fun _ _ => ⟨rfl, rfl, rfl, rfl⟩) (by decide)) fun h => ?_
  refine matches_of_row h (matches_arithLit (mk := .xorLit) (fun _ _ => ⟨rfl, rfl, rfl, rfl⟩) (by decide)) fun h => ?_
  refine matches_of_row h (matches_arithShift (mk := .lsl) (fun _ _ => ⟨rfl, rfl, rfl, rfl⟩) (by decide)) fun h => ?_
  refine matches_of_row h (matches_arithShift (mk := .rol) (fun _ _ => ⟨rfl, rfl, rfl, rfl⟩) (by decide)) fun h => ?_
  refine matches_of_row h (matches_arithShift (mk := .lsr) (fun _ _ => ⟨rfl, rfl, rfl, rfl⟩) (by decide)) fun h => ?_
  refine matches_of_row h (matches_arithShift (mk := .ror) (fun _ _ => ⟨rfl, rfl, rfl, rfl⟩) (by decide)) fun h => ?_
  cases h

theorem matches_of_decodeOther (h : decodeOther b1 b2 = .ok i) : Matches (wordOf b1 b2) w2 i := by
  refine matches_of_row h matches_nop fun h => ?_
  refine matches_of_row h matches_sef fun h => ?_
  refine matches_of_row h matches_clf fun h => ?_
  refine matches_of_row h matches_itr fun h => ?_
  refine matches_of_row h matches_rti fun h => ?_
  cases h

end

theorem matches_of_decode {w1 w2 : Word} {i : Instr} (h : decode w1 w2 = .ok i) : Matches w1 w2 i := by
  rw [← wordOf_bytes w1] at h ⊢
  obtain hfamily | hfamily | hfamily | hfamily := family_cases (byteHi w1)
  · exact matches_of_decodeOther ((decode_of_otherFamily hfamily _ _).symm.trans h)
  · exact matches_of_decodeMemory ((decode_of_memoryFamily hfamily _ _).symm.trans h)
  · exact matches_of_decodeBranch ((decode_of_branchFamily hfamily _ _).symm.trans h)
  · exact matches_of_decodeArithmetic ((decode_of_arithmeticFamily hfamily _ _).symm.trans h)

/-- Settles O3: the row that matched gives back the bits of B1 that it fixes, and each field its bits of B2. -/
theorem decodedWordsMatchTheirInstruction : Obligations.DecodedWordsMatchTheirInstruction := by
  unfold Obligations.DecodedWordsMatchTheirInstruction
  intro w1 w2 i h
  obtain ⟨hwf, hfirst, hsecond⟩ := matches_of_decode h
  exact ⟨hwf, hfirst, hsecond⟩

end Sys2Proof.Proofs.DecodedWords
end

section
/-!
From words to steps (R90, R13, R75, R313): an instruction's words are decoded to it, and a step at them is the instruction.
-/

namespace Sys2Proof.Proofs.Steps

open Sys2Proof Sys2Proof.Machine Sys2Proof.Proofs.RoundTrip Sys2Proof.Proofs.DecodedWords

/-! ### The length of an instruction -/

theorem encodedLength (i : Instr) : Laws.EncodedLength.Statement i := by
  cases i
  exacts [Laws.EncodedLength.movRegHi .., Laws.EncodedLength.movHiReg .., Laws.EncodedLength.movLitHi ..,
    Laws.EncodedLength.movHiLit .., Laws.EncodedLength.movLargePair .., Laws.EncodedLength.movPairLarge ..,
    Laws.EncodedLength.movBytes .., Laws.EncodedLength.movLoad24 .., Laws.EncodedLength.movStore24 ..,
    Laws.EncodedLength.movLit8 .., Laws.EncodedLength.pshReg .., Laws.EncodedLength.pshPair ..,
    Laws.EncodedLength.pshLit16 .., Laws.EncodedLength.pshLit8 .., Laws.EncodedLength.popReg ..,
    Laws.EncodedLength.popPair .., Laws.EncodedLength.jmpReg .., Laws.EncodedLength.jmpPair ..,
    Laws.EncodedLength.jmpRegLit .., Laws.EncodedLength.jmpLitReg .., Laws.EncodedLength.jmpLit24 ..,
    Laws.EncodedLength.jsrReg .., Laws.EncodedLength.jsrPair .., Laws.EncodedLength.jsrRegLit ..,
    Laws.EncodedLength.jsrLitReg .., Laws.EncodedLength.jsrLit24 .., Laws.EncodedLength.jcdReg ..,
    Laws.EncodedLength.jcdLit7 .., Laws.EncodedLength.jcdMask .., Laws.EncodedLength.jccReg ..,
    Laws.EncodedLength.jccLit7 .., Laws.EncodedLength.jccMask .., Laws.EncodedLength.jcn ..,
    Laws.EncodedLength.addRegs .., Laws.EncodedLength.adcRegs .., Laws.EncodedLength.subRegs ..,
    Laws.EncodedLength.sbcRegs .., Laws.EncodedLength.andRegs .., Laws.EncodedLength.iorRegs ..,
    Laws.EncodedLength.xorRegs .., Laws.EncodedLength.addLit .., Laws.EncodedLength.adcLit ..,
    Laws.EncodedLength.subLit .., Laws.EncodedLength.subLitRev .., Laws.EncodedLength.sbcLit ..,
    Laws.EncodedLength.sbcLitRev .., Laws.EncodedLength.andLit .., Laws.EncodedLength.iorLit ..,
    Laws.EncodedLength.xorLit .., Laws.EncodedLength.lsl .., Laws.EncodedLength.rol .., Laws.EncodedLength.lsr ..,
    Laws.EncodedLength.ror .., Laws.EncodedLength.nop, Laws.EncodedLength.sef .., Laws.EncodedLength.clf ..,
    Laws.EncodedLength.itr .., Laws.EncodedLength.rti, Laws.EncodedLength.rts, Laws.EncodedLength.cmpRegs ..,
    Laws.EncodedLength.cmpLit .., Laws.EncodedLength.cmpLitRev .., Laws.EncodedLength.jrlReg ..,
    Laws.EncodedLength.jrlLit7 .., Laws.EncodedLength.jrlLit16 ..]

/-- B1[0] says whether there is a second word. -/
theorem isLong_encodeFirst (i : Instr) : isLong (encodeFirst i) = (encodeSecond i).isSome := by
  have h := encodedLength i
  unfold Laws.EncodedLength.Statement encode at h
  cases hsecond : encodeSecond i <;> cases hlong : isLong (encodeFirst i) <;> simp [hsecond, hlong] at h ⊢

theorem isLong_eq (w : Word) : isLong w = w.getLsbD 8 := by
  simp [isLong, bitAt, byteHi]

/-- B1[0] is no don't-care bit. -/
theorem isLong_xor_dontCare (i : Instr) (x : Word) :
    isLong (encodeFirst i ^^^ (x &&& dontCareFirst i)) = isLong (encodeFirst i) := by
  have hbit : (dontCareFirst i).getLsbD 8 = false := by cases i <;> simp [dontCareFirst]
  rw [isLong_eq, isLong_eq, BitVec.getLsbD_xor, BitVec.getLsbD_and, hbit, Bool.and_false, Bool.xor_false]

/-! ### Decoding an instruction's words -/

/-- The words of an instruction are decoded to it; a 16-bit instruction looks at no second word. -/
theorem decode_encode {i : Instr} (hwf : WellFormed i) (w2 : Word) :
    decode (encodeFirst i) ((encodeSecond i).getD w2) = .ok i := by
  simpa using ignoresDontCare i hwf 0 0 w2

/-- Settles O1: with no word behind it a 16-bit instruction is decoded alone, and with one it looks at no second word. -/
theorem decodeEncodeRoundTrip : Obligations.DecodeEncodeRoundTrip := by
  unfold Obligations.DecodeEncodeRoundTrip
  intro i rest hwf
  have hlong := isLong_encodeFirst i
  have hdecode := decode_encode hwf
  unfold encode
  cases hsecond : encodeSecond i with
  | some w2 =>
    rw [hsecond] at hdecode
    exact hdecode 0
  | none =>
    rw [hsecond] at hdecode hlong
    cases rest with
    | nil => simpa [decodeWords, hlong] using hdecode 0
    | cons w2 rest => exact hdecode w2

theorem and_eq_self_of_and_not {n : Nat} {x mask : BitVec n} (h : x &&& ~~~mask = 0#n) : x &&& mask = x :=
  calc x &&& mask = (x &&& mask) ||| (x &&& ~~~mask) := by rw [h, BitVec.or_zero]
    _ = x &&& (mask ||| ~~~mask) := BitVec.and_or_distrib_left.symm
    _ = x := by simp

/-- Words that decode, as the encoding with don't-care bits changed. -/
theorem eq_encodeFirst_xor {w1 w2 : Word} {i : Instr} (h : decode w1 w2 = .ok i) :
    w1 = encodeFirst i ^^^ ((w1 ^^^ encodeFirst i) &&& dontCareFirst i) := by
  rw [and_eq_self_of_and_not (matches_of_decode h).first, BitVec.xor_comm w1, ← BitVec.xor_assoc,
    BitVec.xor_self, BitVec.zero_xor]

/-- What the second word is does not matter to a 16-bit instruction. -/
theorem decode_second_of_short {w1 w2 : Word} {i : Instr} (hshort : isLong w1 = false) (h : decode w1 w2 = .ok i) (v : Word) :
    decode w1 v = .ok i := by
  have hw1 := eq_encodeFirst_xor h
  have hnone : encodeSecond i = none := by
    rw [hw1, isLong_xor_dontCare, isLong_encodeFirst] at hshort
    simpa using hshort
  have hsame := ignoresDontCare i (matches_of_decode h).wf (w1 ^^^ encodeFirst i) 0 v
  rw [← hw1, hnone] at hsame
  simpa using hsame

/-! ### Steps -/

/-- A step at the words of an instruction is that instruction. -/
theorem step_of_decode {s : State} {i : Instr} (h : decode (s.readWord s.pc) (s.readWord (s.pc + 1)) = .ok i) :
    step s = exec i s := by
  have hfetched : decode (s.readWord s.pc) (if isLong (s.readWord s.pc) then s.readWord (s.pc + 1) else 0#16) = .ok i := by
    split
    case isTrue => exact h
    case isFalse hshort => exact decode_second_of_short (by simpa using hshort) h 0#16
  rw [step_eq, hfetched]

/-- Settles O6: two words are decoded as they are, and a step decodes them. -/
theorem stepRunsTheDecodedInstruction : Obligations.StepRunsTheDecodedInstruction := by
  unfold Obligations.StepRunsTheDecodedInstruction
  exact fun s i h => step_of_decode h

/-- A step where memory holds the words of a well-formed instruction is that instruction. -/
theorem step_of_words {s : State} {i : Instr} (hwf : WellFormed i) (hfirst : s.readWord s.pc = encodeFirst i)
    (hsecond : ∀ v, encodeSecond i = some v → s.readWord (s.pc + 1) = v) : step s = exec i s := by
  apply step_of_decode
  rw [hfirst]
  cases h : encodeSecond i with
  | none => simpa [h] using decode_encode hwf (s.readWord (s.pc + 1))
  | some v =>
    rw [hsecond v h]
    simpa [h] using decode_encode hwf 0

theorem pc_ne_pc_succ (x : Addr) : x ≠ x + 1 := by
  simp

/-- Settles O7: a word stored reads back, a word placed in an image too, and a step at them is the instruction. -/
theorem storedInstructionRunsNext : Obligations.StoredInstructionRunsNext := by
  unfold Obligations.StoredInstructionRunsNext
  refine ⟨?stored, ?booted⟩
  case stored =>
    intro s i hwf
    cases h : encodeSecond i with
    | none => exact step_of_words hwf (by simp) (by simp [h])
    | some w2 =>
      refine step_of_words hwf ?_ ?_
      · simp only [State.writeWord_pc]
        rw [State.readWord_writeWord_of_ne _ (pc_ne_pc_succ s.pc), State.readWord_writeWord_self]
      · rintro v hv
        cases h.symm.trans hv
        simp only [State.writeWord_pc, State.readWord_writeWord_self]
  case booted =>
    intro i rest hwf hlen
    have hword (k : Nat) (hk : k < (encode i ++ rest).length) :
        (State.boot [(Config.resetPC, encode i ++ rest)]).readWord (Config.resetPC + BitVec.ofNat 24 k) = (encode i ++ rest)[k] :=
      State.readWord_placeWords _ State.reset Config.resetPC k hk hlen
    have hpc : (State.boot [(Config.resetPC, encode i ++ rest)]).pc = Config.resetPC := rfl
    refine step_of_words hwf ?_ ?_ <;> rw [hpc]
    · simpa [encode] using hword 0 (by simp [encode])
    · intro v hv
      simpa [encode, hv] using hword 1 (by simp [encode, hv])

/-- Settles O8: each word is decoded by evaluation. -/
theorem wordsOfTheSpecDecode : Obligations.WordsOfTheSpecDecode := by
  unfold Obligations.WordsOfTheSpecDecode
  decide

end Sys2Proof.Proofs.Steps
end

section
/-!
One rule for each operation on the state: how it extends an effect (Safety.lean). The effect of an instruction is then put
together in the order in which its meaning does things, from the effect of advancing `pc`.
-/

namespace Sys2Proof.Machine

open Sys2Proof Sys2Proof.Proofs.Nop

theorem mem_into {r : Reg} {v : Word} {x : Reg × Word} : x ∈ into r v ↔ r ≠ .z ∧ x = (r, v) := by
  unfold into; split <;> simp [*]

theorem fst_mem_into {r q : Reg} {v : Word} : q ∈ (into r v).map (·.1) ↔ r ≠ .z ∧ q = r := by
  unfold into; split <;> simp [*]

/-- A register that has storage of its own, so that writing it changes neither `pc` nor a flag. -/
def Reg.Plain (r : Reg) : Prop := r ≠ .pl ∧ r ≠ .ph ∧ r ≠ .f

section
variable {s t : State} {pc : Addr} {regs : List (Reg × Word)} {flags : List (Flag × Bool)} {stores : List (Addr × Word)}
  {stack : List Addr}

/-- Advancing changes `pc` only. -/
theorem effect_advance (s : State) (n : Nat) : Effect s (s.advance n) (s.pcNext n) [] [] [] s.istack :=
  effect_jump s (s.pcNext n)

/-- A write of a register that the effect does not name yet. -/
theorem Effect.writeReg (h : Effect s t pc regs flags stores stack) {r : Reg} (hplain : Reg.Plain r) (hnew : r ∉ regs.map (·.1))
    (v : Word) : Effect s (t.writeReg r v) pc (regs ++ into r v) flags stores stack where
  pcIs := by rw [t.writeReg_pc_of_ne hplain.1 hplain.2.1, h.pcIs]
  regsHold := by
    intro x hx
    rcases List.mem_append.1 hx with hx | hx
    · have hne : x.1 ≠ r := fun he => hnew (he ▸ List.mem_map_of_mem hx)
      rw [t.readReg_writeReg_of_ne hne, h.regsHold x hx]
    · obtain ⟨hz, rfl⟩ := mem_into.1 hx
      exact t.readReg_writeReg_self hz hplain.2.1 hplain.2.2 v
  regsKept := by
    intro q hq hpl hph hf
    rw [List.map_append, List.mem_append, not_or, fst_mem_into] at hq
    have hkept := h.regsKept q hq.1 hpl hph hf
    by_cases hqr : q = r
    · have hz : r = .z := by by_contra hz; exact hq.2 ⟨hz, hqr⟩
      rwa [hz, State.writeReg_z]
    · rwa [t.readReg_writeReg_of_ne hqr]
  flagsHold := fun x hx => by rw [t.flag_writeReg hplain.2.2, h.flagsHold x hx]
  flagsKept := fun fl hfl => by rw [t.flag_writeReg hplain.2.2, h.flagsKept fl hfl]
  storesHold := fun x hx => by rw [t.readWord_writeReg, h.storesHold x hx]
  bytesKept := fun key hkey => by rw [t.readByte_writeReg, h.bytesKept key hkey]
  stackIs := by rw [t.writeReg_istack, h.stackIs]

/-- A write of a flag that the effect does not name yet. -/
theorem Effect.setFlag (h : Effect s t pc regs flags stores stack) {fl : Flag} (hf : Reg.f ∉ regs.map (·.1))
    (hnew : fl ∉ flags.map (·.1)) (v : Bool) : Effect s (t.setFlag fl v) pc regs (flags ++ [(fl, v)]) stores stack where
  pcIs := h.pcIs
  regsHold := by
    intro x hx
    have hne : x.1 ≠ .f := fun he => hf (he ▸ List.mem_map_of_mem hx)
    rw [t.readReg_setFlag hne, h.regsHold x hx]
  regsKept := fun q hq hpl hph hf => by rw [t.readReg_setFlag hf, h.regsKept q hq hpl hph hf]
  flagsHold := by
    intro x hx
    rcases List.mem_append.1 hx with hx | hx
    · have hne : x.1 ≠ fl := fun he => hnew (he ▸ List.mem_map_of_mem hx)
      rw [t.flag_setFlag_of_ne hne, h.flagsHold x hx]
    · obtain rfl := List.mem_singleton.1 hx
      exact t.flag_setFlag_self fl v
  flagsKept := by
    intro g hg
    rw [List.map_append, List.mem_append, not_or] at hg
    rw [t.flag_setFlag_of_ne (by simpa using hg.2), h.flagsKept g hg.1]
  storesHold := fun x hx => by rw [t.readWord_setFlag, h.storesHold x hx]
  bytesKept := fun key hkey => by rw [t.readByte_setFlag, h.bytesKept key hkey]
  stackIs := h.stackIs

/-- A store to a word that the effect does not name yet. -/
theorem Effect.writeWord (h : Effect s t pc regs flags stores stack) {x : Addr} (hnew : x ∉ stores.map (·.1)) (v : Word) :
    Effect s (t.writeWord x v) pc regs flags (stores ++ [(x, v)]) stack where
  pcIs := h.pcIs
  regsHold := fun y hy => by rw [t.readReg_writeWord, h.regsHold y hy]
  regsKept := fun q hq hpl hph hf => by rw [t.readReg_writeWord, h.regsKept q hq hpl hph hf]
  flagsHold := fun y hy => by rw [t.flag_writeWord, h.flagsHold y hy]
  flagsKept := fun g hg => by rw [t.flag_writeWord, h.flagsKept g hg]
  storesHold := by
    intro y hy
    rcases List.mem_append.1 hy with hy | hy
    · have hne : y.1 ≠ x := fun he => hnew (he ▸ List.mem_map_of_mem hy)
      rw [t.readWord_writeWord_of_ne hne, h.storesHold y hy]
    · obtain rfl := List.mem_singleton.1 hy
      exact t.readWord_writeWord_self x v
  bytesKept := by
    intro key hkey
    rw [List.map_append] at hkey
    obtain ⟨hhi, hlo⟩ := hkey x (by simp)
    rw [t.readByte_writeWord_of_ne x v hhi hlo, h.bytesKept key fun y hy => hkey y (List.mem_append_left _ hy)]
  stackIs := h.stackIs

/-- A change of the interrupt stack. -/
theorem Effect.withStack (h : Effect s t pc regs flags stores stack) (stack' : List Addr) :
    Effect s { t with istack := stack' } pc regs flags stores stack' where
  pcIs := h.pcIs
  regsHold := fun x hx => Eq.trans (by cases x.1 <;> rfl) (h.regsHold x hx)
  regsKept := fun q hq hpl hph hf => Eq.trans (by cases q <;> rfl) (h.regsKept q hq hpl hph hf)
  flagsHold := h.flagsHold
  flagsKept := h.flagsKept
  storesHold := h.storesHold
  bytesKept := h.bytesKept
  stackIs := rfl

/-- The order in which an effect names registers says nothing. -/
theorem Effect.swapRegs {xs ys : List (Reg × Word)} (h : Effect s t pc (xs ++ ys) flags stores stack) :
    Effect s t pc (ys ++ xs) flags stores stack where
  pcIs := h.pcIs
  regsHold := fun x hx => h.regsHold x (by simpa [or_comm] using hx)
  regsKept := fun q hq => h.regsKept q (by simpa [or_comm, and_comm] using hq)
  flagsHold := h.flagsHold
  flagsKept := h.flagsKept
  storesHold := h.storesHold
  bytesKept := h.bytesKept
  stackIs := h.stackIs

end

theorem plain_regS (r : RegS) : Reg.Plain (regS r) := regS_plain r

theorem plain_regA (r : RegA) : Reg.Plain (regA r) := regA_plain r

theorem plain_sp : Reg.Plain .sp := ⟨nofun, nofun, nofun⟩

theorem f_not_mem_into {r : Reg} (h : Reg.Plain r) (v : Word) : Reg.f ∉ (into r v).map (·.1) := by
  rw [fst_mem_into]
  exact fun hf => h.2.2 hf.2.symm

/-! ### Numbers and halves -/

theorem toNat_addrOf (x : Byte) (y : Word) : (addrOf x y).toNat = x.toNat * 65536 + y.toNat := by
  unfold addrOf
  rw [BitVec.toNat_append, ← Nat.shiftLeft_add_eq_or_of_lt y.isLt, Nat.shiftLeft_eq]

theorem toNat_byteLo (w : Word) : (byteLo w).toNat = w.toNat % 256 := by
  simp [byteLo]

theorem addrLo_eq_lowerHalf (x : Addr) : addrLo x = lowerHalf x := by
  apply BitVec.eq_of_toNat_eq
  simp [addrLo, litLo, lowerHalf]

theorem addrHi_eq_upperHalf (x : Addr) : addrHi x = upperHalf x := by
  apply BitVec.eq_of_toNat_eq
  simp [addrHi, litHi, upperHalf, Nat.shiftRight_eq_div_pow]
  omega

theorem isZero32_eq (h l : Word) : isZero32 h l = decide (h = 0#16 ∧ l = 0#16) := by
  have hiff : (h ++ l : BitVec 32) = 0#32 ↔ h = 0#16 ∧ l = 0#16 := by
    constructor
    · intro he
      exact ⟨by rw [← extract_append_hi h l, he]; rfl, by rw [← extract_append_lo h l, he]; rfl⟩
    · rintro ⟨rfl, rfl⟩; rfl
  unfold isZero32
  rw [Bool.eq_iff_iff, beq_iff_eq, decide_eq_true_iff]
  exact hiff

end Sys2Proof.Machine
end

section
/-!
MOV (spec/40_memory_family.md section 1): every 16-bit form is one effect of `move`, and the forms differ in the addresses.
-/

namespace Sys2Proof.Proofs.Mov

open Sys2Proof Sys2Proof.Machine

/-! ### Operands in the advanced state -/

theorem addrReg_advance (s : State) (n : Nat) (r : RegS) : (s.advance n).addrReg r = s.addrReg r := by
  unfold State.addrReg; rw [s.readS_advance]

theorem addr2_advance (s : State) (n : Nat) (hh : RegHi) (r2 : RegS) : (s.advance n).addr2 hh r2 = s.addr2 hh r2 := by
  unfold State.addr2; rw [s.readS_advance, s.readReg_advance (regHi_plain hh).1 (regHi_plain hh).2.1]

theorem value_sourceOf_reg (s : State) (n : Nat) (p : Bool) (x : Addr) (r : RegS) :
    (sourceOf p x (.reg (regS r))).value (s.advance n) = slotValue s p x (s.readS r) := by
  cases p
  · exact s.readS_advance r n
  · exact s.readWord_advance n x

theorem value_sourceOf_lit (s : State) (n : Nat) (p : Bool) (x : Addr) (v : Word) :
    (sourceOf p x (.lit v)).value (s.advance n) = slotValue s p x v := by
  cases p
  · rfl
  · exact s.readWord_advance n x

/-! ### The addresses as numbers (R70) -/

theorem toNat_shortAddr (v : Word) : (shortAddr v).toNat = v.toNat := by
  unfold shortAddr; rw [toNat_addrOf]; simp

theorem toNat_pairAddr (h l : Word) : (pairAddr h l).toNat = h.toNat % 256 * 65536 + l.toNat := by
  unfold pairAddr; rw [toNat_addrOf, toNat_byteLo]

theorem addressesOfWords : AddressesOfWords := fun v => ⟨toNat_shortAddr v, toNat_shortAddr v⟩

theorem addressesOfRegisters (s : State) : AddressesOfRegisters s := by
  have hlow (r : RegS) : (s.readS r).toNat = lowPart s r := by cases r <;> rfl
  have hhigh (hh : RegHi) : (s.readReg (regHi hh)).toNat = highPart s hh := by cases hh <;> rfl
  constructor
  · intro r
    unfold State.addrReg; rw [toNat_shortAddr, hlow]
  · intro hh r2
    unfold State.addr2; rw [toNat_pairAddr, hlow, hhigh]

/-! ### The effect of a 16-bit MOV -/

/-- `v` moves to memory at `x`, or to the register, and ZE says whether it is zero. -/
theorem moves_move {src : Source} {s : State} {n : Nat} {v : Word} (hv : src.value (s.advance n) = v) (q : Bool) (x : Addr)
    (r : RegS) : Moves (move src (destOf q x r) (s.advance n)) s n v q x r := by
  unfold Moves Does Completes
  rw [move_eq, hv]
  refine ⟨_, rfl, ?_⟩
  cases q with
  | false =>
    exact ((effect_advance s n).writeReg (plain_regS r) (by simp) v).setFlag (f_not_mem_into (plain_regS r) v) (by simp) _
  | true => exact ((effect_advance s n).writeWord (by simp) v).setFlag (by simp) (by simp) _

/-- Settles O19: both rows are moves between a register slot and a slot with a high register. -/
theorem movRegisterForms : Obligations.MovRegisterForms := by
  unfold Obligations.MovRegisterForms
  refine ⟨?moves, addressesOfRegisters, by decide, by decide⟩
  case moves =>
    intro p q r1 r2 hh s
    simp only [exec, execMovRegHi, execMovHiReg, addrReg_advance, addr2_advance]
    exact ⟨moves_move (value_sourceOf_reg ..) .., moves_move (value_sourceOf_reg ..) ..⟩

/-- Settles O20: the literal is the value or the address. -/
theorem movLiteralForms : Obligations.MovLiteralForms := by
  unfold Obligations.MovLiteralForms
  refine ⟨?moves, addressesOfRegisters, addressesOfWords, by decide, by decide⟩
  case moves =>
    intro p q r2 hh lit s
    simp only [exec, execMovLitHi, execMovHiLit, addr2_advance]
    exact ⟨moves_move (value_sourceOf_lit ..) .., moves_move (value_sourceOf_reg ..) true ..⟩

/-- Settles O23: the addresses have literal high bytes. -/
theorem movWithHighBytes : Obligations.MovWithHighBytes := by
  unfold Obligations.MovWithHighBytes
  refine ⟨?moves, toNat_addrOf, by decide⟩
  case moves =>
    intro p q r1 r2 hs hd s
    simp only [exec, execMovBytes, State.readS_advance]
    exact moves_move (value_sourceOf_reg ..) ..

/-- Settles O24: a load into a register and a store from one. -/
theorem movWith24BitAddress : Obligations.MovWith24BitAddress := by
  unfold Obligations.MovWith24BitAddress
  refine ⟨?moves, by decide, by decide⟩
  case moves =>
    intro r1 x s
    exact ⟨moves_move (src := .mem x) (s.readWord_advance 2 x) false _ _,
      moves_move (src := .reg (regS r1)) (s.readS_advance r1 2) true _ _⟩

/-- Settles O25: the literal is widened as a number. -/
theorem movByteLiteral : Obligations.MovByteLiteral := by
  unfold Obligations.MovByteLiteral
  refine ⟨?moves, by decide, by decide⟩
  case moves =>
    intro r1 lit s
    exact moves_move (src := .lit (lit.setWidth 16)) (BitVec.ofNat_toNat 16 lit).symm false _ _

/-! ### MOV of a large register -/

/-- The two halves of a large register that M5 moves. -/
theorem readLarge_advance (s : State) (g : LargeReg) : (s.advance 1).readLarge g
    = ((match g with | .rt => s.rh | .pc => upperHalf (s.pcNext 1)),
        (match g with | .rt => s.rl | .pc => lowerHalf (s.pcNext 1))) := by
  cases g with
  | rt => rfl
  | pc => exact Prod.ext (addrHi_eq_upperHalf _) (addrLo_eq_lowerHalf _)

theorem writeReg_writeReg_self (s : State) {r : Reg} (h : Reg.Plain r) (v w : Word) :
    (s.writeReg r v).writeReg r w = s.writeReg r w := by
  obtain ⟨hpl, hph, hf⟩ := h
  cases r
  case pl => exact absurd rfl hpl
  case ph => exact absurd rfl hph
  case f => exact absurd rfl hf
  all_goals rfl

theorem regS_injective {r q : RegS} (h : regS r = regS q) : r = q := by
  cases r <;> cases q <;> first | rfl | cases h

/-- Settles O21: the low half is written before the high half, which stays where the two meet. -/
theorem movLargeToPair : Obligations.MovLargeToPair := by
  unfold Obligations.MovLargeToPair
  refine ⟨?moves, by decide⟩
  case moves =>
    intro g rhi rlo s h l
    have hv : (s.advance 1).readLarge g = (h, l) := readLarge_advance s g
    unfold Does Completes
    refine ⟨_, rfl, ?_⟩
    simp only [hv, isZero32_eq]
    by_cases hmeet : rhi = rlo
    · subst hmeet
      rw [if_pos rfl, writeReg_writeReg_self _ (plain_regS rhi)]
      exact ((effect_advance s 1).writeReg (plain_regS rhi) (by simp) h).setFlag (f_not_mem_into (plain_regS rhi) h) (by simp) _
    · rw [if_neg hmeet]
      have hlo := (effect_advance s 1).writeReg (plain_regS rlo) (by simp) l
      have hnew : regS rhi ∉ (into (regS rlo) l).map (·.1) := by
        rw [fst_mem_into]
        exact fun he => hmeet (regS_injective he.2)
      have hboth := (hlo.writeReg (plain_regS rhi) hnew h).swapRegs
      refine hboth.setFlag ?_ (by simp) _
      rw [List.nil_append, List.map_append, List.mem_append, not_or]
      exact ⟨f_not_mem_into (plain_regS rhi) h, f_not_mem_into (plain_regS rlo) l⟩

/-- Settles O22: RT is written half by half, and PC is a jump. -/
theorem movPairToLarge : Obligations.MovPairToLarge := by
  unfold Obligations.MovPairToLarge
  refine ⟨?moves, toNat_pairAddr, by decide⟩
  case moves =>
    intro rhi rlo s h l
    have hplain : Reg.Plain .rh ∧ Reg.Plain .rl := ⟨⟨nofun, nofun, nofun⟩, nofun, nofun, nofun⟩
    unfold Does Completes
    simp only [exec, execMovPairLarge, State.readS_advance, isZero32_eq]
    constructor
    · refine ⟨_, rfl, ?_⟩
      exact (((effect_advance s 1).writeReg hplain.1 (by simp) h).writeReg hplain.2 (by simp [into]) l).setFlag
        (by simp [into]) (by simp) _
    · exact ⟨_, rfl, (Nop.effect_jump s (pairAddr h l)).setFlag (by simp) (by simp) _⟩

end Sys2Proof.Proofs.Mov
end

section
/-!
PSH and POP (spec/40_memory_family.md sections 2 and 3), and that a POP undoes the PSH it follows (R165, R166).
-/

namespace Sys2Proof.Proofs.Stack

open Sys2Proof Sys2Proof.Machine Sys2Proof.Proofs.Mov

/-! ### PSH -/

theorem readReg_advance_eq_pushedWord (s : State) (r : Reg) : (s.advance 1).readReg r = pushedWord s r := by
  cases r
  case pl => exact addrLo_eq_lowerHalf _
  case ph => exact addrHi_eq_upperHalf _
  case f => exact (BitVec.ofNat_toNat 16 s.f).symm
  all_goals rfl

theorem stackAddr_injective {v w : Word} (h : stackAddr v = stackAddr w) : v = w := by
  have := congrArg BitVec.toNat h
  exact BitVec.eq_of_toNat_eq (by rwa [stackAddr, stackAddr, toNat_shortAddr, toNat_shortAddr] at this)

/-- A push stores the word where SP points, and raises SP. -/
theorem does_push (s : State) (n : Nat) (v : Word) :
    Does (push v (s.advance n)) s (s.pcNext n) [(.sp, s.sp + 1)] [(.ze, isZero v)] [(stackAddr s.sp, v)] :=
  ⟨_, push_eq v (s.advance n),
    (((effect_advance s n).writeWord (by simp) v).writeReg plain_sp (by simp) (s.sp + 1)).setFlag (by simp [into]) (by simp) _⟩

/-- A push of a pair stores the high half below the low half, and raises SP by two. -/
theorem does_pushPair (s : State) (n : Nat) (h l : Word) :
    Does (pushPair h l (s.advance n)) s (s.pcNext n) [(.sp, s.sp + 2)] [(.ze, decide (h = 0#16 ∧ l = 0#16))]
      [(stackAddr s.sp, h), (stackAddr (s.sp + 1), l)] := by
  have hne : stackAddr (s.sp + 1) ≠ stackAddr s.sp := fun he => by simpa using stackAddr_injective he
  rw [← isZero32_eq]
  exact ⟨_, pushPair_eq h l (s.advance n),
    ((((effect_advance s n).writeWord (by simp) h).writeWord (by simpa using hne) l).writeReg plain_sp (by simp)
      (s.sp + 2)).setFlag (by simp [into]) (by simp) _⟩

/-- Settles O26: the register is read in the advanced state, where PL and PH are the halves of `pcnext`. -/
theorem pushRegister : Obligations.PushRegister := by
  unfold Obligations.PushRegister
  refine ⟨?push, addressesOfWords, by decide, by decide⟩
  case push =>
    intro r s v
    simp only [exec, execPshReg, readReg_advance_eq_pushedWord]
    exact does_push s 1 v

/-- Settles O27: both halves are read before either is stored. -/
theorem pushPair : Obligations.PushPair := by
  unfold Obligations.PushPair
  refine ⟨?push, addressesOfWords, by decide⟩
  case push =>
    intro rhi rlo s h l
    simp only [exec, execPshPair, readReg_advance_eq_pushedWord]
    exact does_pushPair s 1 h l

theorem isZero_setWidth (lit : Byte) : isZero (lit.setWidth 16) = (lit == 0#8) := by
  revert lit; decide

/-- Settles O28: a literal is pushed as it is, or widened. -/
theorem pushLiteral : Obligations.PushLiteral := by
  unfold Obligations.PushLiteral
  refine ⟨fun lit s => does_push s 2 lit, ?byte, addressesOfWords, by decide, by decide⟩
  case byte =>
    intro lit s
    rw [BitVec.ofNat_toNat, ← isZero_setWidth]
    exact does_push s 1 (lit.setWidth 16)

/-! ### What a write of any register leaves -/

section
variable (s : State) (r : Reg) (v : Word)

theorem readReg_writeReg {x : Reg} (hz : x ≠ .z) (hph : x ≠ .ph) (hf : x ≠ .f) :
    (s.writeReg r v).readReg x = if x = r then v else s.readReg x := by
  split
  case isTrue h => subst h; exact s.readReg_writeReg_self hz hph hf v
  case isFalse h => exact s.readReg_writeReg_of_ne h v

theorem litHi_pc_writeReg : litHi (s.writeReg r v).pc = if r = .ph then byteLo v else litHi s.pc := by
  cases r
  case ph => exact litHi_addrOf _ _
  case pl => exact litHi_addrOf _ _
  all_goals rfl

theorem litLo_pc_writeReg : litLo (s.writeReg r v).pc = if r = .pl then v else litLo s.pc := by
  cases r
  case ph => exact litLo_addrOf _ _
  case pl => exact litLo_addrOf _ _
  all_goals rfl

theorem flagBit_lt (fl : Flag) : flagBit fl < 5 := by cases fl <;> decide

theorem flag_writeReg_eq (fl : Flag) :
    (s.writeReg r v).flag fl = if r = .f then v.getLsbD (flagBit fl) else s.flag fl := by
  split
  case isTrue h =>
    subst h
    show (v.extractLsb' 0 5).getLsbD (flagBit fl) = _
    simp [flagBit_lt fl]
  case isFalse h => exact s.flag_writeReg h v fl

end

/-! ### POP -/

/-- ZE is recomputed unless F was popped. -/
def popFlags (poppedF : Bool) (z : Bool) (w : State) : State := if poppedF then w else w.setFlag .ze z

section
variable (poppedF z : Bool) (w : State)

theorem readReg_popFlags {x : Reg} (hf : x ≠ .f) : (popFlags poppedF z w).readReg x = w.readReg x := by
  cases poppedF
  · exact w.readReg_setFlag hf .ze z
  · rfl

theorem pc_popFlags : (popFlags poppedF z w).pc = w.pc := by cases poppedF <;> rfl

theorem readByte_popFlags (key : Nat) : (popFlags poppedF z w).readByte key = w.readByte key := by cases poppedF <;> rfl

theorem istack_popFlags : (popFlags poppedF z w).istack = w.istack := by cases poppedF <;> rfl

theorem flag_popFlags (fl : Flag) :
    (popFlags poppedF z w).flag fl = if poppedF then w.flag fl else if fl = .ze then z else w.flag fl := by
  cases poppedF
  · show (w.setFlag .ze z).flag fl = _
    by_cases h : fl = .ze
    · subst h; simp
    · simp [w.flag_setFlag_of_ne h, h]
  · rfl

end

theorem exec_popReg (r : Reg) (s : State) : exec (.popReg r) s = .next
    (popFlags (decide (r = .f)) (isZero (s.readWord (stackAddr (s.sp - 1))))
      (((s.advance 1).writeReg .sp (s.sp - 1)).writeReg r (s.readWord (stackAddr (s.sp - 1))))) := by
  refine (pop_eq r (s.advance 1)).trans ?_
  unfold popFlags
  simp

theorem exec_popPair (rhi rlo : Reg) (s : State) : exec (.popPair rhi rlo) s = .next
    (popFlags (decide (rhi = .f ∨ rlo = .f))
      (isZero32 (s.readWord (stackAddr (s.sp - 2))) (s.readWord (stackAddr (s.sp - 1))))
      ((((s.advance 1).writeReg .sp (s.sp - 2)).writeReg rlo (s.readWord (stackAddr (s.sp - 1)))).writeReg rhi
        (s.readWord (stackAddr (s.sp - 2))))) := by
  refine (popPair_eq rhi rlo (s.advance 1)).trans ?_
  unfold popFlags
  simp

/-- Settles O29: SP is lowered before the register is written, so a popped SP wins; ZE is left where F is popped. -/
theorem popRegister : Obligations.PopRegister := by
  unfold Obligations.PopRegister
  refine ⟨?pop, addressesOfWords, by decide⟩
  case pop =>
    intro r s v n
    refine ⟨_, exec_popReg r s, ?registers, ?pc, ?flags, ?bytes, ?stack⟩
    case registers =>
      intro x hz hpl hph hf
      rw [readReg_popFlags _ _ _ hf, readReg_writeReg _ _ _ hz hph hf, readReg_writeReg _ _ _ hz hph hf,
        s.readReg_advance hpl hph]
    case pc =>
      rw [pc_popFlags, ← addrOf_parts (State.pc _)]
      simp only [litHi_pc_writeReg, litLo_pc_writeReg, reduceCtorEq, if_false, State.advance_pc]
      by_cases hpl : r = .pl
      · simp [hpl, n, v]
      · by_cases hph : r = .ph <;> simp [hpl, hph, n, v]
    case flags =>
      intro fl
      rw [flag_popFlags, flag_writeReg_eq, flag_writeReg_eq, s.flag_advance]
      by_cases hf : r = .f <;> simp [hf, v, isZero]
    case bytes =>
      intro key _
      rw [readByte_popFlags, State.readByte_writeReg, State.readByte_writeReg, State.readByte_advance]
    case stack => rw [istack_popFlags, State.writeReg_istack, State.writeReg_istack, State.advance_istack]

/-- Settles O30: the high half is written last. -/
theorem popPair : Obligations.PopPair := by
  unfold Obligations.PopPair
  refine ⟨?pop, addressesOfWords, by decide⟩
  case pop =>
    intro rhi rlo s l h n
    refine ⟨_, exec_popPair rhi rlo s, ?registers, ?pc, ?flags, ?bytes, ?stack⟩
    case registers =>
      intro x hz hpl hph hf
      rw [readReg_popFlags _ _ _ hf, readReg_writeReg _ _ _ hz hph hf, readReg_writeReg _ _ _ hz hph hf,
        readReg_writeReg _ _ _ hz hph hf, s.readReg_advance hpl hph]
    case pc =>
      rw [pc_popFlags, ← addrOf_parts (State.pc _)]
      simp only [litHi_pc_writeReg, litLo_pc_writeReg, reduceCtorEq, if_false, State.advance_pc]
      rfl
    case flags =>
      intro fl
      rw [flag_popFlags, flag_writeReg_eq, flag_writeReg_eq, flag_writeReg_eq, s.flag_advance, isZero32_eq]
      by_cases hhi : rhi = .f
      · simp [hhi, h]
      · by_cases hlo : rlo = .f <;> simp [hhi, hlo, h, l]
    case bytes =>
      intro key _
      rw [readByte_popFlags, State.readByte_writeReg, State.readByte_writeReg, State.readByte_writeReg, State.readByte_advance]
    case stack =>
      rw [istack_popFlags, State.writeReg_istack, State.writeReg_istack, State.writeReg_istack, State.advance_istack]

/-! ### A POP undoes the PSH before it -/

theorem byteLo_setWidth : ∀ x : Byte, byteLo (x.setWidth 16) = x := by decide

theorem readWord_of_mem_eq {t u : State} (h : u.mem = t.mem) (x : Addr) : u.readWord x = t.readWord x := by
  unfold State.readWord State.readByte; rw [h]

theorem pushedWord_of_plain (s : State) {r : Reg} (h : Reg.Plain r) : pushedWord s r = s.readReg r := by
  obtain ⟨hpl, hph, hf⟩ := h
  cases r
  case pl => exact absurd rfl hpl
  case ph => exact absurd rfl hph
  case f => exact absurd rfl hf
  all_goals rfl

/-- After a push of a pair, with SP and memory as it left them, a pop finds SP and both words. -/
theorem found_of_pshPair {x y : Reg} {s t u : State} (hexec : exec (.pshPair x y) s = .next t) (hsp : u.sp = t.sp)
    (hmem : u.mem = t.mem) : u.sp - 2 = s.sp ∧ u.readWord (stackAddr (u.sp - 2)) = pushedWord s x ∧
      u.readWord (stackAddr (u.sp - 1)) = pushedWord s y := by
  obtain ⟨t', ht', heffect⟩ := pushPair.1 x y s
  cases hexec.symm.trans ht'
  have hspIs : t.sp = s.sp + 2 := heffect.regsHold (.sp, s.sp + 2) (by simp)
  have hlow : u.sp - 2 = s.sp := by rw [hsp, hspIs]; simp
  have hhigh : u.sp - 1 = s.sp + 1 := by rw [hsp, hspIs]; bv_omega
  refine ⟨hlow, ?_, ?_⟩
  · rw [hlow, readWord_of_mem_eq hmem]
    exact heffect.storesHold (stackAddr s.sp, pushedWord s x) (by simp)
  · rw [hhigh, readWord_of_mem_eq hmem]
    exact heffect.storesHold (stackAddr (s.sp + 1), pushedWord s y) (by simp)

/-- Settles O31: the pop reads the words that the push stored, and puts each where it came from. -/
theorem popUndoesPush : Obligations.PopUndoesPush := by
  unfold Obligations.PopUndoesPush
  refine ⟨?registers, ?returns⟩
  case registers =>
    intro x y s t u hx hy hexec hsp hmem
    simp only [List.mem_cons, List.not_mem_nil, or_false, not_or] at hx hy
    obtain ⟨hlow, hh, hl⟩ := found_of_pshPair hexec hsp hmem
    rw [pushedWord_of_plain s hx.2] at hh
    rw [pushedWord_of_plain s hy.2] at hl
    obtain ⟨v, hv, hregs, -⟩ := popPair.1 x y u
    refine ⟨v, hv, ?_, ?_, ?_⟩
    · have := hregs .sp nofun nofun nofun nofun
      rwa [if_neg (Ne.symm hx.1), if_neg (Ne.symm hy.1), if_pos rfl, hlow] at this
    · by_cases hz : x = .z
      · rw [hz]; rfl
      · rw [hregs x hz hx.2.1 hx.2.2.1 hx.2.2.2, if_pos rfl, hh]
    · by_cases hz : y = .z
      · rw [hz]; rfl
      · rw [hregs y hz hy.2.1 hy.2.2.1 hy.2.2.2, hh, hl]
        split
        case isTrue hyx => rw [hyx]
        case isFalse => rw [if_pos rfl]
  case returns =>
    intro s t u hexec hsp hmem
    obtain ⟨hlow, hh, hl⟩ := found_of_pshPair hexec hsp hmem
    obtain ⟨v, hv, hregs, hpc, -⟩ := popPair.1 .ph .pl u
    refine ⟨v, hv, ?_, ?_⟩
    · have := hregs .sp nofun nofun nofun nofun
      rwa [if_neg nofun, if_neg nofun, if_pos rfl, hlow] at this
    · have hhalf : byteLo (upperHalf (s.pcNext 1)) = litHi (s.pcNext 1) := by
        rw [← addrHi_eq_upperHalf]
        exact byteLo_setWidth _
      have hlower : lowerHalf (s.pcNext 1) = litLo (s.pcNext 1) := (addrLo_eq_lowerHalf _).symm
      rw [hpc, if_pos rfl, if_neg nofun, if_pos rfl, hh, hl]
      exact (congrArg₂ addrOf hhalf hlower).trans (addrOf_parts _)

theorem flags_ext {f g : Flags} (h : ∀ fl : Flag, f.getLsbD (flagBit fl) = g.getLsbD (flagBit fl)) : f = g := by
  have hall : ∀ f g : Flags, f.getLsbD 0 = g.getLsbD 0 → f.getLsbD 1 = g.getLsbD 1 → f.getLsbD 2 = g.getLsbD 2 →
      f.getLsbD 3 = g.getLsbD 3 → f.getLsbD 4 = g.getLsbD 4 → f = g := by decide
  exact hall f g (h .ca) (h .ze) (h .ov) (h .ne) (h .di)

/-- Settles O32: the pop reads the word of the flags, and takes each flag from its bit. -/
theorem popFlagsUndoesPushFlags : Obligations.PopFlagsUndoesPushFlags := by
  unfold Obligations.PopFlagsUndoesPushFlags
  intro s t u hexec hsp hmem
  obtain ⟨t', ht', heffect⟩ := pushRegister.1 .f s
  cases hexec.symm.trans ht'
  have hspIs : t.sp = s.sp + 1 := heffect.regsHold (.sp, s.sp + 1) (by simp)
  have hlow : u.sp - 1 = s.sp := by rw [hsp, hspIs]; simp
  have hword : u.readWord (stackAddr (u.sp - 1)) = pushedWord s .f := by
    rw [hlow, readWord_of_mem_eq hmem]
    exact heffect.storesHold (stackAddr s.sp, pushedWord s .f) (by simp)
  obtain ⟨v, hv, hregs, -, hflags, -⟩ := popRegister.1 .f u
  refine ⟨v, hv, ?_, flags_ext fun fl => ?_⟩
  · have := hregs .sp nofun nofun nofun nofun
    rwa [if_neg nofun, if_pos rfl, hlow] at this
  · refine (hflags fl).trans ?_
    rw [if_pos rfl, hword, pushedWord, BitVec.ofNat_toNat, BitVec.getLsbD_setWidth]
    simp [(flagBit_lt fl).trans (show 5 < 16 by decide)]

end Sys2Proof.Proofs.Stack
end

section
/-!
The branch family (spec/41_branch_family.md): every jump changes `pc` only, every JSR `pc` and RT.
-/

namespace Sys2Proof.Proofs.Branch

open Sys2Proof Sys2Proof.Machine Sys2Proof.Proofs.Nop

/-! ### JMP and JSR -/

theorem onlyJumps_jump (s : State) (n : Nat) (x : Addr) : OnlyJumps (.next ((s.advance n).jump x)) s x :=
  onlyJumps_of_eq_jump rfl

/-- RT receives the halves of `pcnext`, and `pc` the target. -/
theorem calls_call (s : State) (n : Nat) (x : Addr) : Calls (.next ((s.advance n).call x)) s n x := by
  have heffect := ((effect_jump s x).writeReg (r := .rh) ⟨nofun, nofun, nofun⟩ (by simp) (addrHi (s.pcNext n))).writeReg (r := .rl)
    ⟨nofun, nofun, nofun⟩ (by simp [into]) (addrLo (s.pcNext n))
  rw [addrHi_eq_upperHalf, addrLo_eq_lowerHalf] at heffect
  refine ⟨_, rfl, ?_⟩
  have hcall : (s.advance n).call x
      = ((s.jump x).writeReg .rh (upperHalf (s.pcNext n))).writeReg .rl (lowerHalf (s.pcNext n)) := by
    rw [← addrHi_eq_upperHalf, ← addrLo_eq_lowerHalf]; rfl
  rw [hcall]
  exact heffect

section
variable (s : State) (n : Nat) (r1 r2 : RegS) (lit : Word)

theorem targetReg_advance : (s.advance n).targetReg r1 = addrOf 0x00#8 (s.readS r1) := by
  unfold State.targetReg shortAddr; rw [s.readS_advance]

theorem targetPair_advance : (s.advance n).targetPair r1 r2 = addrOf (byteLo (s.readS r1)) (s.readS r2) := by
  unfold State.targetPair pairAddr; rw [s.readS_advance, s.readS_advance]

theorem targetRegLit_advance : (s.advance n).targetRegLit r1 lit = addrOf (byteLo (s.readS r1)) lit := by
  unfold State.targetRegLit pairAddr; rw [s.readS_advance]

theorem targetLitReg_advance : (s.advance n).targetLitReg r1 lit = addrOf (byteLo lit) (s.readS r1) := by
  unfold State.targetLitReg pairAddr; rw [s.readS_advance]

end

/-- Settles O33: the target is read in the advanced state; at its own address the jump leaves the state as it is. -/
theorem jmpGoesToAddress : Obligations.JmpGoesToAddress := by
  unfold Obligations.JmpGoesToAddress
  refine ⟨?jumps, ?ends, by decide, by decide, by decide, by decide, by decide⟩
  case jumps =>
    intro r1 r2 lit x s
    simp only [exec, execJmpReg, execJmpPair, execJmpRegLit, execJmpLitReg, execJmpLit24, targetReg_advance, targetPair_advance,
      targetRegLit_advance, targetLitReg_advance]
    exact ⟨onlyJumps_jump .., onlyJumps_jump .., onlyJumps_jump .., onlyJumps_jump .., onlyJumps_jump ..⟩
  case ends =>
    intro s hreads
    have hstep : step s = .next s := Steps.stepRunsTheDecodedInstruction s _ hreads
    have hended := s.ended_iff.2 hstep
    exact ⟨hended, run_of_ended hended⟩

/-- Settles O34: the target is read before RT is written. -/
theorem jsrLinksAndGoes : Obligations.JsrLinksAndGoes := by
  unfold Obligations.JsrLinksAndGoes
  refine ⟨?calls, by decide⟩
  case calls =>
    intro r1 r2 lit x s
    simp only [exec, execJsrReg, execJsrPair, execJsrRegLit, execJsrLitReg, execJsrLit24, targetReg_advance, targetPair_advance,
      targetRegLit_advance, targetLitReg_advance]
    exact ⟨calls_call .., calls_call .., calls_call .., calls_call .., calls_call ..⟩

/-- Settles O35: RTS is the jump to the pair RH:RL. -/
theorem rtsGoesToRT : Obligations.RtsGoesToRT := by
  unfold Obligations.RtsGoesToRT
  exact ⟨fun s => onlyJumps_jump s 1 _, by decide⟩

/-- Settles O41: RT holds the halves of the return address, which RTS puts together. -/
theorem rtsReturnsFromJsr : Obligations.RtsReturnsFromJsr := by
  unfold Obligations.RtsReturnsFromJsr
  intro r1 r2 lit x s t u i n hi hexec hrh hrl
  obtain ⟨hreg, hpair, hregLit, hlitReg, hlit⟩ := jsrLinksAndGoes.1 r1 r2 lit x s
  have hcalls : ∃ y, Calls (exec i s) s n y := by
    simp only [List.mem_cons, Prod.mk.injEq, List.not_mem_nil, or_false] at hi
    obtain ⟨rfl, rfl⟩ | ⟨rfl, rfl⟩ | ⟨rfl, rfl⟩ | ⟨rfl, rfl⟩ | ⟨rfl, rfl⟩ := hi
    exacts [⟨_, hreg⟩, ⟨_, hpair⟩, ⟨_, hregLit⟩, ⟨_, hlitReg⟩, ⟨_, hlit⟩]
  obtain ⟨y, t', ht', heffect⟩ := hcalls
  cases hexec.symm.trans ht'
  have hhi : u.rh = upperHalf (s.pcNext n) := hrh.trans (heffect.regsHold (.rh, upperHalf (s.pcNext n)) (by simp))
  have hlo : u.rl = lowerHalf (s.pcNext n) := hrl.trans (heffect.regsHold (.rl, lowerHalf (s.pcNext n)) (by simp))
  have hreturn : addrOf (byteLo u.rh) u.rl = s.pcNext n := by
    rw [hhi, hlo, ← addrHi_eq_upperHalf, ← addrLo_eq_lowerHalf, addrHi, Stack.byteLo_setWidth]
    exact addrOf_parts _
  rw [← hreturn]
  exact rtsGoesToRT.1 u

/-! ### Conditional jumps -/

theorem onlyJumps_branch (s : State) (n : Nat) (taken : Bool) {k : Nat} (off : BitVec k) :
    OnlyJumps (.next ((s.advance n).branch taken off)) s (branchTo s n taken off.toInt) := by
  cases taken
  · exact ⟨_, rfl, effect_advance s n⟩
  · exact onlyJumps_jump s n _

theorem holds_advance (s : State) (n : Nat) (cond : Cond) : (s.advance n).holds cond = s.holds cond := by
  cases cond <;> rfl

theorem allSet_advance (s : State) (n : Nat) (m : Flags) : (s.advance n).allSet m = maskSet s m := by
  have h : ∀ f m : Flags, (f &&& m == m) = everyFlag fun fl => !m.getLsbD (flagBit fl) || f.getLsbD (flagBit fl) := by decide
  exact h s.f m

theorem allClear_advance (s : State) (n : Nat) (m : Flags) : (s.advance n).allClear m = maskClear s m := by
  have h : ∀ f m : Flags, (f &&& m == 0#5) = everyFlag fun fl => !m.getLsbD (flagBit fl) || !f.getLsbD (flagBit fl) := by decide
  exact h s.f m

/-- Settles O36: the condition and the offset are read in the advanced state. -/
theorem jcdJumpsWhenSet : Obligations.JcdJumpsWhenSet := by
  unfold Obligations.JcdJumpsWhenSet
  refine ⟨?jumps, by decide, by decide, by decide⟩
  case jumps =>
    intro fl r1 off m lit s
    simp only [exec, execJcdReg, execJcdLit7, execJcdMask, holds_advance, allSet_advance, State.readS_advance]
    exact ⟨onlyJumps_branch .., onlyJumps_branch .., onlyJumps_branch .., onlyJumps_branch .., onlyJumps_branch ..⟩

/-- Settles O37: the condition and the offset are read in the advanced state. -/
theorem jccJumpsWhenClear : Obligations.JccJumpsWhenClear := by
  unfold Obligations.JccJumpsWhenClear
  refine ⟨?jumps, by decide, by decide, by decide⟩
  case jumps =>
    intro fl r1 off m lit s
    simp only [exec, execJccReg, execJccLit7, execJccMask, allClear_advance, State.readS_advance, State.flag_advance]
    exact ⟨onlyJumps_branch .., onlyJumps_branch .., onlyJumps_branch ..⟩

/-- A flag in both masks is not both set and clear. -/
theorem not_set_and_clear_of_overlap (s : State) {ms mc : Flags} (h : ms &&& mc ≠ 0#5) :
    (maskSet s ms && maskClear s mc) = false := by
  have hset := allSet_advance s 0 ms
  have hclear := allClear_advance s 0 mc
  rw [← hset, ← hclear, Bool.and_eq_false_iff]
  by_contra hboth
  simp only [not_or, Bool.not_eq_false, State.allSet, State.allClear, beq_iff_eq] at hboth
  obtain ⟨hs, hc⟩ := hboth
  refine h ?_
  calc ms &&& mc = ((s.advance 0).f &&& ms) &&& mc := by rw [hs]
    _ = ((s.advance 0).f &&& mc) &&& ms := by rw [BitVec.and_assoc, BitVec.and_comm ms, ← BitVec.and_assoc]
    _ = 0#5 := by rw [hc, BitVec.zero_and]

/-- Settles O38: both masks are tested in the advanced state. -/
theorem jcnTestsBothMasks : Obligations.JcnTestsBothMasks := by
  unfold Obligations.JcnTestsBothMasks
  refine ⟨?jumps, by decide⟩
  case jumps =>
    intro off ms mc s
    have hjump : OnlyJumps (exec (.jcn off ms mc) s) s (branchTo s 2 (maskSet s ms && maskClear s mc) off.toInt) := by
      simp only [exec, execJcn, allSet_advance, allClear_advance]
      exact onlyJumps_branch ..
    refine ⟨hjump, fun hoverlap => ?_⟩
    rwa [not_set_and_clear_of_overlap s hoverlap] at hjump

/-! ### JRL -/

theorem exec_jrlLit7_neg_one (s : State) : exec (.jrlLit7 (-1)) s = .next s := by
  have hback : s.pc + BitVec.ofNat 24 1 + BitVec.ofInt 24 (-1) = s.pc := by bv_omega
  show Host.Outcome.next (s.jump (s.pc + BitVec.ofNat 24 1 + BitVec.ofInt 24 (-1))) = .next s
  rw [hback]
  rfl

/-- Settles O39: JRL is JCD on a condition that always holds; at BA7F it goes back to itself. -/
theorem jrlAlwaysJumps : Obligations.JrlAlwaysJumps := by
  unfold Obligations.JrlAlwaysJumps
  refine ⟨?jumps, ?ends, by decide, by decide, by decide⟩
  case jumps =>
    intro r1 off lit s
    have hempty : maskSet s 0b00000#5 = true := by simp [maskSet, everyFlag]
    simp only [exec, execJrlReg, execJrlLit7, execJrlLit16, holds_advance, allSet_advance, State.readS_advance, hempty]
    exact ⟨onlyJumps_branch s 1 true (s.readS r1), onlyJumps_branch s 1 true off, onlyJumps_branch s 2 true lit⟩
  case ends =>
    intro s
    refine ⟨s.ended_iff, fun hword => ?_, fun t n hended hstep => run_of_next hended hstep n⟩
    have hdecode : decode (s.readWord s.pc) (s.readWord (s.pc + 1)) = .ok (.jrlLit7 (-1)) := by
      rw [hword]
      exact Rows.decode_jrl 0x7F#8 _
    have hended := s.ended_iff.2 ((Steps.step_of_decode hdecode).trans (exec_jrlLit7_neg_one s))
    exact ⟨hended, run_of_ended hended⟩

/-- Settles O40: a second name has the meaning and the words of the form it stands for by definition. -/
theorem secondNamesMeanCoreForms : Obligations.SecondNamesMeanCoreForms := by
  unfold Obligations.SecondNamesMeanCoreForms
  intro r1 r2 r off lit s
  exact ⟨⟨rfl, rfl⟩, ⟨rfl, rfl⟩, ⟨rfl, rfl⟩, ⟨rfl, rfl⟩, ⟨rfl, rfl⟩, ⟨rfl, rfl⟩, rfl, rfl⟩

end Sys2Proof.Proofs.Branch
end

section
/-!
The arithmetic family (spec/42_arithmetic_family.md): the effect of each kind of result, and the flags as facts about exact
numbers.
-/

namespace Sys2Proof.Proofs.Arithmetic

open Sys2Proof Sys2Proof.Machine

/-! ### The effect of each kind of result -/

section
variable (s : State) (n : Nat) (d : RegA) (v : Word)

/-- The destination register after advancing. -/
theorem effect_result : Effect s ((s.advance n).writeReg (regA d) v) (s.pcNext n) (into (regA d) v) [] [] s.istack :=
  (effect_advance s n).writeReg (plain_regA d) (by simp) v

theorem computes_resultZE : Computes (.next ((s.advance n).resultZE d v)) s n d v [(.ze, v == 0#16)] :=
  ⟨_, rfl, (effect_result s n d v).setFlag (f_not_mem_into (plain_regA d) v) (by simp) _⟩

theorem computes_resultCarry (ca ov : Bool) :
    Computes (.next ((s.advance n).resultCarry d v ca ov)) s n d v [(.ca, ca), (.ov, ov), (.ze, isZero v)] :=
  have hf := f_not_mem_into (plain_regA d) v
  ⟨_, rfl, (((effect_result s n d v).setFlag hf (by simp) ca).setFlag hf (by simp) ov).setFlag hf (by simp) _⟩

theorem computes_aluShift (result : Word → Word) (out : Word → Bool) (r1 : RegA) :
    Computes (aluShift result out r1 d s) s 1 d (result (s.readA r1))
      [(.ca, out (s.readA r1)), (.ze, result (s.readA r1) == 0#16)] := by
  have hf := f_not_mem_into (plain_regA d) (result (s.readA r1))
  unfold aluShift
  simp only [State.readA_advance]
  exact ⟨_, rfl, ((effect_result s 1 d _).setFlag hf (by simp) _).setFlag hf (by simp) _⟩

end

/-! ### ADD, SUB and the bitwise operations -/

/-- Settles O42: the operands are read in the advanced state. -/
theorem addWritesSumAndZE : Obligations.AddWritesSumAndZE := by
  unfold Obligations.AddWritesSumAndZE
  refine ⟨?computes, by decide, by decide⟩
  case computes =>
    intro r1 r2 r3 lit s
    simp only [exec, execAddRegs, execAddLit, aluRegs, aluLit, addOp, State.readA_advance]
    exact ⟨computes_resultZE .., computes_resultZE ..⟩

/-- Settles O44: the operands are read in the advanced state. -/
theorem subWritesDifferenceAndZE : Obligations.SubWritesDifferenceAndZE := by
  unfold Obligations.SubWritesDifferenceAndZE
  refine ⟨?computes, by decide, by decide⟩
  case computes =>
    intro r1 r2 r3 lit s
    simp only [exec, execSubRegs, execSubLit, execSubLitRev, aluRegs, aluLit, aluLitRev, subOp, State.readA_advance]
    exact ⟨computes_resultZE .., computes_resultZE .., computes_resultZE ..⟩

/-- Settles O47: the operands are read in the advanced state. -/
theorem logicWritesResultAndZE : Obligations.LogicWritesResultAndZE := by
  unfold Obligations.LogicWritesResultAndZE
  refine ⟨?computes, by decide, by decide, by decide, by decide⟩
  case computes =>
    intro r1 r2 r3 lit s x y
    simp only [exec, execAndRegs, execAndLit, execIorRegs, execIorLit, execXorRegs, execXorLit, aluRegs, aluLit, andOp, iorOp,
      xorOp, State.readA_advance]
    exact ⟨computes_resultZE .., computes_resultZE .., computes_resultZE .., computes_resultZE .., computes_resultZE ..,
      computes_resultZE ..⟩

/-! ### Shifts and rotates -/

theorem shiftLeft_eq (x : Word) : shiftLeft x = x <<< 1 := by
  apply BitVec.eq_of_getLsbD_eq
  intro i hi
  rw [shiftLeft, BitVec.getLsbD_append]
  cases i with
  | zero => simp
  | succ i => simp [hi, show i < 15 by omega, BitVec.getLsbD_eq_getElem (show i < 16 by omega)]

theorem rotateLeft_eq (x : Word) : rotateLeft x = x.rotateLeft 1 := by
  apply BitVec.eq_of_getLsbD_eq
  intro i hi
  rw [rotateLeft, BitVec.getLsbD_append, BitVec.getLsbD_rotateLeft]
  cases i with
  | zero => simp
  | succ i => simp [hi, show i < 15 by omega]

theorem shiftRight_eq (x : Word) : shiftRight x = x >>> 1 := by
  apply BitVec.eq_of_getLsbD_eq
  intro i hi
  rw [shiftRight, BitVec.getLsbD_append, BitVec.getLsbD_ushiftRight]
  by_cases h : i < 15
  · simp [h]
  · simp [h, show 16 ≤ 1 + i by omega]

theorem rotateRight_eq (x : Word) : rotateRight x = x.rotateRight 1 := by
  apply BitVec.eq_of_getLsbD_eq
  intro i hi
  rw [rotateRight, BitVec.getLsbD_append, BitVec.getLsbD_rotateRight]
  by_cases h : i < 15
  · simp [h]
  · obtain rfl : i = 15 := by omega
    simp

/-- Settles O48: each shift of the model is the library's. -/
theorem shiftsWriteResultAndCarry : Obligations.ShiftsWriteResultAndCarry := by
  unfold Obligations.ShiftsWriteResultAndCarry
  refine ⟨?computes, by decide, by decide, by decide, by decide⟩
  case computes =>
    intro r1 r3 s x
    rw [← shiftLeft_eq, ← rotateLeft_eq, ← shiftRight_eq, ← rotateRight_eq]
    exact ⟨computes_aluShift s r3 shiftLeft (·.getLsbD 15) r1, computes_aluShift s r3 rotateLeft (·.getLsbD 15) r1,
      computes_aluShift s r3 shiftRight (·.getLsbD 0) r1, computes_aluShift s r3 rotateRight (·.getLsbD 0) r1⟩

/-! ### Carry, borrow and overflow -/

theorem bitNat_eq (c : Bool) : bitNat c = c.toNat := by cases c <;> rfl

theorem add_eq_ofNat (x y : Word) (c : Bool) :
    x + y + BitVec.ofNat 16 (bitNat c) = BitVec.ofNat 16 (x.toNat + y.toNat + c.toNat) := by
  rw [bitNat_eq]
  apply BitVec.eq_of_toNat_eq
  simp [BitVec.toNat_add]

theorem sub_eq_ofInt (x y : Word) (c : Bool) :
    x - y - BitVec.ofNat 16 (bitNat c) = BitVec.ofInt 16 ((x.toNat : Int) - y.toNat - c.toNat) := by
  have hx := x.isLt
  have hy := y.isLt
  rw [bitNat_eq]
  apply BitVec.eq_of_toNat_eq
  simp [BitVec.toNat_sub]
  omega

theorem isZero_ofNat (n : Nat) : isZero (BitVec.ofNat 16 n) = decide (n % 65536 = 0) := by
  unfold isZero
  rw [Bool.eq_iff_iff, beq_iff_eq, decide_eq_true_iff, ← BitVec.toNat_inj]
  simp

theorem isZero_ofInt (z : Int) : isZero (BitVec.ofInt 16 z) = decide (z % 65536 = 0) := by
  unfold isZero
  rw [Bool.eq_iff_iff, beq_iff_eq, decide_eq_true_iff, ← BitVec.toNat_inj]
  simp
  omega

/-- ADC of the model, over exact numbers. -/
theorem addsWithCarry (s : State) (n : Nat) (x y : Word) (d : RegA) :
    AddsWithCarry (.next (adcOp x y d (s.advance n))) s n x y d := by
  have h := computes_resultCarry s n d (x + y + BitVec.ofNat 16 (bitNat (s.flag .ca))) (carryOut x y (s.flag .ca))
    (addOverflows x y (s.flag .ca))
  rw [add_eq_ofNat, isZero_ofNat, carryOut, addOverflows, bitNat_eq] at h
  unfold AddsWithCarry adcOp
  dsimp only
  rw [s.flag_advance, add_eq_ofNat, carryOut, addOverflows, bitNat_eq]
  exact h

/-- SBC of the model, over exact numbers. -/
theorem subtractsWithBorrow (s : State) (n : Nat) (x y : Word) (d : RegA) :
    SubtractsWithBorrow (.next (sbcOp x y d (s.advance n))) s n x y d := by
  have h := computes_resultCarry s n d (x - y - BitVec.ofNat 16 (bitNat (s.flag .ca))) (borrowOut x y (s.flag .ca))
    (subOverflows x y (s.flag .ca))
  rw [sub_eq_ofInt, isZero_ofInt, borrowOut, subOverflows, bitNat_eq] at h
  unfold SubtractsWithBorrow sbcOp
  dsimp only
  rw [s.flag_advance, sub_eq_ofInt, borrowOut, subOverflows, bitNat_eq]
  exact h

/-- Settles O43: the operands are read in the advanced state. -/
theorem adcWritesSumAndCarry : Obligations.AdcWritesSumAndCarry := by
  unfold Obligations.AdcWritesSumAndCarry
  refine ⟨?adds, by decide⟩
  case adds =>
    intro r1 r2 r3 lit s
    simp only [exec, execAdcRegs, execAdcLit, aluRegs, aluLit, State.readA_advance]
    exact ⟨addsWithCarry .., addsWithCarry ..⟩

/-- Settles O45: the operands are read in the advanced state. -/
theorem sbcWritesDifferenceAndBorrow : Obligations.SbcWritesDifferenceAndBorrow := by
  unfold Obligations.SbcWritesDifferenceAndBorrow
  refine ⟨?subtracts, by decide⟩
  case subtracts =>
    intro r1 r2 r3 lit s
    simp only [exec, execSbcRegs, execSbcLit, execSbcLitRev, aluRegs, aluLit, aluLitRev, State.readA_advance]
    exact ⟨subtractsWithBorrow .., subtractsWithBorrow .., subtractsWithBorrow ..⟩

/-- The flags of SBC order its operands. -/
theorem compares_of_subtractsWithBorrow {o : Result} {s : State} {n : Nat} {x y : Word} (h : SubtractsWithBorrow o s n x y .z) :
    Compares o s n x y := by
  refine ⟨h, ?_⟩
  obtain ⟨t, ht, heffect⟩ := h
  refine ⟨t, ht, ?_⟩
  have hflags := heffect.flagsHold
  simp only [List.forall_mem_cons] at hflags
  obtain ⟨hca, -, hze, -⟩ := hflags
  have hx := x.isLt
  have hy := y.isLt
  refine ⟨fun hclear => ?_, fun hset => ?_⟩
  · rw [hca, hze, hclear, ← BitVec.toNat_inj]
    simp
    omega
  · rw [hca, hze, hset, ← BitVec.toNat_inj]
    simp [BitVec.toNat_sub]
    omega

/-- Settles O46: CMP is SBC into Z. -/
theorem cmpOrdersItsOperands : Obligations.CmpOrdersItsOperands := by
  unfold Obligations.CmpOrdersItsOperands
  refine ⟨?compares, by decide, by decide, by decide⟩
  case compares =>
    intro r1 r2 lit s
    obtain ⟨hregs, hlit, hrev⟩ := sbcWritesDifferenceAndBorrow.1 r1 r2 .z lit s
    exact ⟨compares_of_subtractsWithBorrow hregs, compares_of_subtractsWithBorrow hlit, compares_of_subtractsWithBorrow hrev⟩

/-! ### The sign bits -/

theorem signBit_eq (x : Word) : x.getLsbD 15 = decide (32768 ≤ x.toNat) := by
  have h := BitVec.msb_eq_decide x
  rwa [BitVec.msb_eq_getLsbD_last] at h

theorem toInt_eq (x : Word) : x.toInt = if 32768 ≤ x.toNat then (x.toNat : Int) - 65536 else x.toNat := by
  have h := BitVec.toInt_eq_msb_cond x
  rw [BitVec.msb_eq_getLsbD_last, signBit_eq] at h
  simpa using h

/-- Settles O49: signs and results are compared as numbers, for each sign of the operands. -/
theorem overflowBitFormula : Obligations.OverflowBitFormula := by
  unfold Obligations.OverflowBitFormula
  intro x y c
  have hc := c.toNat_le
  have hx := x.isLt
  have hy := y.isLt
  constructor
  · intro r
    have hr : r.toNat = (x.toNat + y.toNat + c.toNat) % 65536 := by simp [r, BitVec.toNat_add]
    simp only [addOverflows, toInt_eq, signBit_eq, hr, bitNat_eq]
    rw [Bool.eq_iff_iff]
    simp only [Bool.and_eq_true, beq_iff_eq, bne_iff_ne, decide_eq_true_eq, decide_eq_decide, ne_eq]
    split_ifs <;> omega
  · intro r
    have hr : r.toNat = (x.toNat + 131072 - y.toNat - c.toNat) % 65536 := by
      simp [r, BitVec.toNat_sub]; omega
    simp only [subOverflows, toInt_eq, signBit_eq, hr, bitNat_eq]
    rw [Bool.eq_iff_iff]
    simp only [Bool.and_eq_true, bne_iff_ne, decide_eq_true_eq, decide_eq_decide, ne_eq]
    split_ifs <;> omega

end Sys2Proof.Proofs.Arithmetic
end

section
/-!
The other family (spec/43_other_family.md): flag masks, and the interrupt's entry and return (spec/60_exceptions.md section 2).
-/

namespace Sys2Proof.Proofs.Other

open Sys2Proof Sys2Proof.Machine

/-! ### SEF and CLF -/

/-- Advancing and giving F a value, seen from the state with that value. -/
theorem effect_advance_flags (s : State) (f : Flags) :
    Effect { s with f := f } { s.advance 1 with f := f } (s.pcNext 1) [] [] [] s.istack :=
  effect_advance { s with f := f } 1

/-- Settles O52: the mask is or-ed in, and its complement and-ed. -/
theorem sefSetsAndClfClears : Obligations.SefSetsAndClfClears := by
  unfold Obligations.SefSetsAndClfClears
  refine ⟨?masks, by decide, by decide, by decide⟩
  case masks =>
    intro m s
    refine ⟨⟨_, rfl, effect_advance_flags s _, fun fl => ?set⟩, ⟨_, rfl, effect_advance_flags s _, fun fl => ?clear⟩⟩
    case set =>
      show (s.f ||| m).getLsbD (flagBit fl) = if m.getLsbD (flagBit fl) then true else s.f.getLsbD (flagBit fl)
      rw [BitVec.getLsbD_or]
      cases m.getLsbD (flagBit fl) <;> simp
    case clear =>
      show (s.f &&& ~~~m).getLsbD (flagBit fl) = if m.getLsbD (flagBit fl) then false else s.f.getLsbD (flagBit fl)
      rw [BitVec.getLsbD_and, BitVec.getLsbD_not, decide_eq_true (Stack.flagBit_lt fl)]
      cases m.getLsbD (flagBit fl) <;> simp

/-! ### ITR and RTI -/

theorem exec_itr_masked {s : State} (hdi : s.flag .di = true) (id : Byte) : exec (.itr id) s = .next (s.advance 1) := by
  simp [exec, execItr, hdi]

theorem exec_itr_taken {s : State} (hdi : s.flag .di = false) (hroom : s.istack.length ≠ 4) (id : Byte) :
    exec (.itr id) s = .next
      { (s.jump (Config.intVector id)).writeReg .i (id.setWidth 16) with istack := s.pcNext 1 :: s.istack } := by
  have hdepth : ¬ (s.advance 1).istack.length = Config.intStackDepth := hroom
  simp only [exec, execItr, State.flag_advance, hdi, Bool.false_eq_true, if_false, takeInterrupt, if_neg hdepth]
  rfl

theorem exec_itr_full {s : State} (hdi : s.flag .di = false) (hfull : s.istack.length = 4) (id : Byte) :
    exec (.itr id) s = .fault .interruptStackOverflow := by
  simp [exec, execItr, hdi, takeInterrupt, Config.intStackDepth, hfull]

theorem exec_rti_cons {s : State} {ra : Addr} {rest : List Addr} (h : s.istack = ra :: rest) :
    exec .rti s = .next { s.jump ra with istack := rest } := by
  simp only [exec, execRti, returnFromInterrupt, State.advance_istack, h]
  rfl

/-- Settles O53: DI and then the room on the stack decide. -/
theorem itrEntersTheHandler : Obligations.ItrEntersTheHandler := by
  unfold Obligations.ItrEntersTheHandler
  refine ⟨fun id s => ⟨fun hdi => ?masked, fun hdi hroom => ?taken, fun hdi hfull => exec_itr_full hdi hfull id⟩, by decide⟩
  case masked => exact ⟨_, exec_itr_masked hdi id, effect_advance s 1⟩
  case taken =>
    refine ⟨_, exec_itr_taken hdi hroom id, ?_⟩
    rw [BitVec.ofNat_toNat]
    exact ((Nop.effect_jump s _).writeReg (r := .i) ⟨nofun, nofun, nofun⟩ (by simp) _).withStack _

/-- Settles O54: the newest entry is the target of a jump. -/
theorem rtiReturnsToNewestAddress : Obligations.RtiReturnsToNewestAddress := by
  unfold Obligations.RtiReturnsToNewestAddress
  refine ⟨fun s ra rest h => ⟨_, exec_rti_cons h, (Nop.effect_jump s ra).withStack rest⟩, fun s h => ?underflow, by decide⟩
  case underflow => simp only [exec, execRti, returnFromInterrupt, State.advance_istack, h]

/-- Settles O55: an ITR that completes with DI clear was taken, so the newest entry is its return address. -/
theorem rtiReturnsFromItr : Obligations.RtiReturnsFromItr := by
  unfold Obligations.RtiReturnsFromItr
  intro id s t u hdi hexec hstack
  have hroom : s.istack.length ≠ 4 := by
    intro hfull
    cases hexec.symm.trans (exec_itr_full hdi hfull id)
  cases hexec.symm.trans (exec_itr_taken hdi hroom id)
  exact ⟨_, exec_rti_cons hstack, rfl, rfl⟩

end Sys2Proof.Proofs.Other
end

section
/-!
32-bit arithmetic from two 16-bit steps (spec/42_arithmetic_family.md section 5, R234).
-/

namespace Sys2Proof.Proofs.CarryChain

open Sys2Proof Sys2Proof.Machine Sys2Proof.Proofs.Arithmetic

/-! ### One step of a chain -/

theorem regA_injective {r q : RegA} (h : regA r = regA q) : r = q := by
  cases r <;> cases q <;> first | rfl | cases h

/-- What an arithmetic instruction leaves in a destination that is not Z, and in every other register. -/
theorem readA_of_computes {o : Result} {s : State} {n : Nat} {d : RegA} {v : Word} {flags : List (Flag × Bool)} (hz : d ≠ .z)
    (h : Computes o s n d v flags) :
    Completes o fun t => t.readA d = v ∧ (∀ r, d ≠ r → t.readA r = s.readA r) ∧ ∀ x ∈ flags, t.flag x.1 = x.2 := by
  obtain ⟨t, ht, heffect⟩ := h
  have hdz : regA d ≠ .z := fun he => hz (regA_injective (q := .z) he)
  refine ⟨t, ht, heffect.regsHold (regA d, v) (mem_into.2 ⟨hdz, rfl⟩), fun r hr => ?_, heffect.flagsHold⟩
  refine heffect.regsKept (regA r) ?_ (regA_plain r).1 (regA_plain r).2.1 (regA_plain r).2.2
  rw [fst_mem_into]
  exact fun he => hr (regA_injective he.2).symm

theorem adcRegs_step (s : State) (r1 r2 : RegA) {d : RegA} (hz : d ≠ .z) :
    Completes (exec (.adcRegs r1 r2 d) s) fun t =>
      t.readA d = BitVec.ofNat 16 ((s.readA r1).toNat + (s.readA r2).toNat + (s.flag .ca).toNat) ∧
      (∀ r, d ≠ r → t.readA r = s.readA r) ∧
      t.flag .ca = decide (65536 ≤ (s.readA r1).toNat + (s.readA r2).toNat + (s.flag .ca).toNat) := by
  obtain ⟨t, ht, hd, hkept, hflags⟩ := readA_of_computes hz (adcWritesSumAndCarry.1 r1 r2 d 0 s).1
  exact ⟨t, ht, hd, hkept, hflags _ (List.mem_cons_self ..)⟩

theorem sbcRegs_step (s : State) (r1 r2 : RegA) {d : RegA} (hz : d ≠ .z) :
    Completes (exec (.sbcRegs r1 r2 d) s) fun t =>
      t.readA d = BitVec.ofInt 16 ((s.readA r1).toNat - (s.readA r2).toNat - (s.flag .ca).toNat) ∧
      (∀ r, d ≠ r → t.readA r = s.readA r) ∧
      t.flag .ca = decide (((s.readA r1).toNat - (s.readA r2).toNat - (s.flag .ca).toNat : Int) < 0) := by
  obtain ⟨t, ht, hd, hkept, hflags⟩ := readA_of_computes hz (sbcWritesDifferenceAndBorrow.1 r1 r2 d 0 s).1
  exact ⟨t, ht, hd, hkept, hflags _ (List.mem_cons_self ..)⟩

/-- `CLF CA` clears CA and changes no register. -/
theorem clf_ca_step (s : State) :
    Completes (exec (.clf 0b00001) s) fun t => (∀ r, t.readA r = s.readA r) ∧ t.flag .ca = false := by
  obtain ⟨t, ht, heffect, hflags⟩ := (Other.sefSetsAndClfClears.1 0b00001 s).2
  refine ⟨t, ht, fun r => ?_, hflags .ca⟩
  have hkept := heffect.regsKept (regA r) (by simp) (regA_plain r).1 (regA_plain r).2.1 (regA_plain r).2.2
  exact hkept.trans (by cases r <;> rfl)

/-! ### The two halves as one number -/

theorem toNat_halves (h l : Word) : (h ++ l : BitVec 32).toNat = h.toNat * 65536 + l.toNat := by
  rw [BitVec.toNat_append, ← Nat.shiftLeft_add_eq_or_of_lt l.isLt, Nat.shiftLeft_eq]

section
variable (xh xl yh yl : Word)

/-- The carry of the low half goes into the high half. -/
theorem halves_add (c : Bool) (hc : c = decide (65536 ≤ xl.toNat + yl.toNat)) :
    (BitVec.ofNat 16 (xh.toNat + yh.toNat + c.toNat) ++ BitVec.ofNat 16 (xl.toNat + yl.toNat) : BitVec 32)
        = (xh ++ xl : BitVec 32) + (yh ++ yl) ∧
      decide (65536 ≤ xh.toNat + yh.toNat + c.toNat)
        = decide (2 ^ 32 ≤ (xh ++ xl : BitVec 32).toNat + (yh ++ yl : BitVec 32).toNat) := by
  have hxl := xl.isLt
  have hyl := yl.isLt
  have hcn : c.toNat = (xl.toNat + yl.toNat) / 65536 := by
    subst hc
    by_cases h : 65536 ≤ xl.toNat + yl.toNat <;> simp [h] <;> omega
  constructor
  · apply BitVec.eq_of_toNat_eq
    rw [BitVec.toNat_add, toNat_halves, toNat_halves, toNat_halves, BitVec.toNat_ofNat, BitVec.toNat_ofNat, hcn]
    omega
  · rw [toNat_halves, toNat_halves, hcn, decide_eq_decide]
    omega

/-- The borrow of the low half goes into the high half. -/
theorem halves_sub (c : Bool) (hc : c = decide ((xl.toNat - yl.toNat : Int) < 0)) :
    (BitVec.ofInt 16 (xh.toNat - yh.toNat - c.toNat) ++ BitVec.ofInt 16 (xl.toNat - yl.toNat) : BitVec 32)
        = (xh ++ xl : BitVec 32) - (yh ++ yl) ∧
      decide ((xh.toNat - yh.toNat - c.toNat : Int) < 0)
        = decide ((xh ++ xl : BitVec 32).toNat < (yh ++ yl : BitVec 32).toNat) := by
  have hxl := xl.isLt
  have hyl := yl.isLt
  have hxh := xh.isLt
  have hyh := yh.isLt
  have hcn : (c.toNat : Int) = if xl.toNat < yl.toNat then 1 else 0 := by
    subst hc
    by_cases h : xl.toNat < yl.toNat
    · simp [h, show (xl.toNat - yl.toNat : Int) < 0 by omega]
    · simp [h, show ¬ (xl.toNat - yl.toNat : Int) < 0 by omega]
  constructor
  · apply BitVec.eq_of_toNat_eq
    rw [BitVec.toNat_sub, toNat_halves, toNat_halves, toNat_halves, BitVec.toNat_ofInt, BitVec.toNat_ofInt, hcn]
    split <;> omega
  · rw [toNat_halves, toNat_halves, hcn, decide_eq_decide]
    split <;> omega

end

/-- Settles O50: the flag that the low half leaves is the carry or borrow that the high half takes. -/
theorem carryChainIs32BitArithmetic : Obligations.CarryChainIs32BitArithmetic := by
  unfold Obligations.CarryChainIs32BitArithmetic
  intro xh xl yh yl dh dl s hdl hdh hne hxh hyh x y
  obtain ⟨s1, hs1, hregs, hclear⟩ := clf_ca_step s
  refine ⟨s1, hs1, ?adds, ?subtracts⟩
  case adds =>
    obtain ⟨s2, hs2, hlow, hkept2, hca2⟩ := adcRegs_step s1 xl yl hdl
    obtain ⟨s3, hs3, hhigh, hkept3, hca3⟩ := adcRegs_step s2 xh yh hdh
    rw [hregs, hregs, hclear, Bool.toNat_false, Nat.add_zero] at hlow hca2
    rw [hkept2 xh hxh, hkept2 yh hyh, hregs, hregs] at hhigh hca3
    obtain ⟨hsum, hcarry⟩ := halves_add (s.readA xh) (s.readA xl) (s.readA yh) (s.readA yl) _ hca2
    exact ⟨s2, hs2, s3, hs3, by rw [hhigh, hkept3 dl (Ne.symm hne), hlow, hsum], hca3.trans hcarry⟩
  case subtracts =>
    obtain ⟨s2, hs2, hlow, hkept2, hca2⟩ := sbcRegs_step s1 xl yl hdl
    obtain ⟨s3, hs3, hhigh, hkept3, hca3⟩ := sbcRegs_step s2 xh yh hdh
    rw [hregs, hregs, hclear, Bool.toNat_false, Nat.cast_zero, Int.sub_zero] at hlow hca2
    rw [hkept2 xh hxh, hkept2 yh hyh, hregs, hregs] at hhigh hca3
    obtain ⟨hdifference, hborrow⟩ := halves_sub (s.readA xh) (s.readA xl) (s.readA yh) (s.readA yl) _ hca2
    exact ⟨s2, hs2, s3, hs3, by rw [hhigh, hkept3 dl (Ne.symm hne), hlow, hdifference], hca3.trans hborrow⟩

end Sys2Proof.Proofs.CarryChain
end

section
/-!
Memory and the reset state (spec/20_memory.md, spec/70_reset_and_hazards.md sections 1 and 2): a stored word reads back, the
canonical form is determined by what it reads as, and what reset and loading leave.
-/

namespace Sys2Proof.Proofs.Mem

open Sys2Proof Sys2Proof.Machine

/-- Settles O14: a store is a write of the word, and the laws of that write say the rest. -/
theorem storedWordReadsBack : Obligations.StoredWordReadsBack := by
  unfold Obligations.StoredWordReadsBack
  intro s x v
  refine ⟨s.writeWord x v, memWrite_eq s x v, ?self, fun y hy => ?other, fun key hkey => ?bytes⟩
  case self => rw [memRead_eq, State.readWord_writeWord_self]
  case other => rw [memRead_eq, memRead_eq, s.readWord_writeWord_of_ne hy]
  case bytes =>
    obtain ⟨hhi, hlo⟩ := hkey x (List.mem_singleton_self x)
    exact s.readByte_writeWord_of_ne x v hhi hlo

/-! ### The canonical form -/

theorem get_cons_self (k : Nat) (v : Byte) (m : Memory) : Memory.get ((k, v) :: m) k = v := if_pos rfl

theorem get_cons_of_ne {k key : Nat} (h : k ≠ key) (v : Byte) (m : Memory) : Memory.get ((k, v) :: m) key = m.get key :=
  if_neg h

/-- A key that is not listed reads as an unwritten byte. -/
theorem get_of_not_listed {m : Memory} {key : Nat} (h : ∀ x ∈ m, x.1 ≠ key) : m.get key = Config.unwrittenByte := by
  induction m with
  | nil => rfl
  | cons x rest ih => rw [get_cons_of_ne (h x (by simp)), ih fun y hy => h y (by simp [hy])]

/-- A canonical memory, taken apart: the first entry says something, and every later key is above it. -/
theorem wf_cons {x : Host.Cell} {m : Memory} (h : Memory.wf (x :: m)) :
    x.2 ≠ Config.unwrittenByte ∧ (∀ y ∈ m, x.1 < y.1) ∧ m.wf := by
  obtain ⟨hsorted, hentries⟩ := h
  obtain ⟨habove, hrest⟩ := List.pairwise_cons.1 hsorted
  exact ⟨(hentries x (by simp)).1, habove, hrest, fun y hy => hentries y (by simp [hy])⟩

/-- The key of a first entry reads as something only if the other memory lists it, so its least key is no greater. -/
theorem first_key_le {k k' : Nat} {v v' : Byte} {m m' : Memory} (h : Memory.wf ((k, v) :: m)) (h' : Memory.wf ((k', v') :: m'))
    (hget : ∀ key, Memory.get ((k, v) :: m) key = Memory.get ((k', v') :: m') key) : k' ≤ k := by
  obtain ⟨hv, -, -⟩ := wf_cons h
  obtain ⟨-, habove, -⟩ := wf_cons h'
  by_contra hlt
  have hunlisted : Memory.get ((k', v') :: m') k = Config.unwrittenByte := by
    apply get_of_not_listed
    intro x hx
    rcases List.mem_cons.1 hx with rfl | hx
    · show k' ≠ k; omega
    · have hx' : k' < x.1 := habove x hx
      omega
  exact hv (by rw [← get_cons_self k v m, hget, hunlisted])

/-- Settles O15, by induction on both lists: equal reads force equal first keys, then equal bytes, then equal rests. -/
theorem canonicalMemoriesAgreeingAreEqual : Obligations.CanonicalMemoriesAgreeingAreEqual := by
  unfold Obligations.CanonicalMemoriesAgreeingAreEqual
  intro m
  induction m with
  | nil =>
    intro m' _ h' hget
    cases m' with
    | nil => rfl
    | cons x rest => exact absurd ((hget x.1).trans (get_cons_self x.1 x.2 rest)).symm (wf_cons h').1
  | cons x rest ih =>
    intro m' h h' hget
    cases m' with
    | nil => exact absurd ((get_cons_self x.1 x.2 rest).symm.trans (hget x.1)) (wf_cons h).1
    | cons x' rest' =>
      obtain ⟨k, v⟩ := x
      obtain ⟨k', v'⟩ := x'
      obtain rfl : k = k' := le_antisymm (first_key_le h' h fun key => (hget key).symm) (first_key_le h h' hget)
      obtain rfl : v = v' := by rw [← get_cons_self k v rest, hget, get_cons_self]
      obtain ⟨-, habove, hrest⟩ := wf_cons h
      obtain ⟨-, habove', hrest'⟩ := wf_cons h'
      rw [ih rest' hrest hrest' fun key => ?_]
      by_cases hkey : k = key
      · subst hkey
        rw [get_of_not_listed fun y hy => (habove y hy).ne', get_of_not_listed fun y hy => (habove' y hy).ne']
      · rw [← get_cons_of_ne hkey v rest, hget, get_cons_of_ne hkey]

/-! ### Reset -/

/-- Settles O17. -/
theorem resetMeetsMachineInvariant : Obligations.ResetMeetsMachineInvariant := by
  unfold Obligations.ResetMeetsMachineInvariant
  exact ⟨reset_mem_wf, Nat.zero_le _⟩

theorem readWord_reset (x : Addr) : State.reset.readWord x = 0#16 :=
  show wordOf Config.unwrittenByte Config.unwrittenByte = 0#16 by decide

/-- Settles O18: reset is read off its definition; an image of one block is that block placed in memory. -/
theorem resetStateValues : Obligations.ResetStateValues := by
  unfold Obligations.ResetStateValues
  refine ⟨rfl, rfl, rfl, fun r => ?regs, fun fl => ?flags, fun x => readWord_reset x, fun x ws hlen => ?image⟩
  case regs => cases r <;> rfl
  case flags => cases fl <;> rfl
  case image =>
    exact ⟨fun k hk => State.readWord_placeWords ws State.reset x k hk hlen,
      fun y hy => State.readWord_placeWords_of_ne ws State.reset x y hy, rfl, State.boot_mem_wf [(x, ws)]⟩

end Sys2Proof.Proofs.Mem
end

section
/-!
What no instruction but its own kind changes (R24, R31, R33, R69). One frame, kept or extended by each operation on the state,
then one lemma for each shared operation, then one case analysis over the instructions.
-/

namespace Sys2Proof.Proofs.Frames

open Sys2Proof Sys2Proof.Machine

/-- From `s` to `t`: of the arithmetic registers AA, AB and AC only those in `ds` may have changed; NE and DI only if `control`;
memory only if `stores`, and then it is still canonical; and the interrupt stack not at all. -/
structure Frame (s t : State) (ds : List Reg) (control stores : Bool) : Prop where
  arithmeticKept : ∀ d ∈ [RegA.aa, .ab, .ac], regA d ∉ ds → t.readReg (regA d) = s.readReg (regA d)
  controlKept : control = false → t.flag .ne = s.flag .ne ∧ t.flag .di = s.flag .di
  memKept : stores = false → t.mem = s.mem
  canonicalKept : s.mem.wf → t.mem.wf
  stackKept : t.istack = s.istack

/-- A register that may be written within a frame on `ds`. -/
def Within (r : Reg) (ds : List Reg) : Prop := ∀ d ∈ [RegA.aa, .ab, .ac], regA d ∉ ds → regA d ≠ r

theorem within_of_mem {r : Reg} {ds : List Reg} (h : r ∈ ds) : Within r ds := fun _ _ hd he => hd (he ▸ h)

theorem within_of_plain_bank {r : Reg} (h : r ≠ .aa ∧ r ≠ .ab ∧ r ≠ .ac) (ds : List Reg) : Within r ds := by
  obtain ⟨haa, hab, hac⟩ := h
  intro d hd _
  rcases (by simpa using hd : d = .aa ∨ d = .ab ∨ d = .ac) with rfl | rfl | rfl
  exacts [haa.symm, hab.symm, hac.symm]

theorem within_regS (r : RegS) (ds : List Reg) : Within (regS r) ds :=
  within_of_plain_bank (by cases r <;> decide) ds

theorem within_sp (ds : List Reg) : Within .sp ds := within_of_plain_bank (by decide) ds

theorem within_z (ds : List Reg) : Within (regA .z) ds := within_of_plain_bank (by decide) ds

section
variable {s t : State} {ds : List Reg} {control stores : Bool}

/-! ### One rule for each operation on the state -/

theorem Frame.refl (s : State) : Frame s s ds control stores := ⟨fun _ _ _ => rfl, fun _ => ⟨rfl, rfl⟩, fun _ => rfl, id, rfl⟩

theorem Frame.jump (h : Frame s t ds control stores) (x : Addr) : Frame s (t.jump x) ds control stores where
  arithmeticKept d hd hnew := by rw [t.readReg_jump (regA_plain d).1 (regA_plain d).2.1, h.arithmeticKept d hd hnew]
  controlKept := h.controlKept
  memKept := h.memKept
  canonicalKept := h.canonicalKept
  stackKept := h.stackKept

theorem frame_advance (s : State) (n : Nat) : Frame s (s.advance n) ds control stores := (Frame.refl s).jump _

theorem Frame.writeReg (h : Frame s t ds control stores) {r : Reg} (hr : Within r ds) (hf : r = .f → control = true) (v : Word) :
    Frame s (t.writeReg r v) ds control stores where
  arithmeticKept d hd hnew := by rw [t.readReg_writeReg_of_ne (hr d hd hnew), h.arithmeticKept d hd hnew]
  controlKept hc := by
    have hne : r ≠ .f := fun he => by simp [hf he] at hc
    rw [t.flag_writeReg hne, t.flag_writeReg hne]
    exact h.controlKept hc
  memKept hs := by rw [t.writeReg_mem, h.memKept hs]
  canonicalKept hw := (t.writeReg_mem_wf r v).2 (h.canonicalKept hw)
  stackKept := by rw [t.writeReg_istack, h.stackKept]

theorem Frame.setFlag (h : Frame s t ds control stores) {fl : Flag} (hne : .ne ≠ fl) (hdi : .di ≠ fl) (v : Bool) :
    Frame s (t.setFlag fl v) ds control stores where
  arithmeticKept d hd hnew := by rw [t.readReg_setFlag (regA_plain d).2.2, h.arithmeticKept d hd hnew]
  controlKept hc := by
    rw [t.flag_setFlag_of_ne hne, t.flag_setFlag_of_ne hdi]
    exact h.controlKept hc
  memKept := h.memKept
  canonicalKept := h.canonicalKept
  stackKept := h.stackKept

theorem Frame.setZE (h : Frame s t ds control stores) (v : Bool) : Frame s (t.setFlag .ze v) ds control stores :=
  h.setFlag (by decide) (by decide) v

theorem Frame.writeWord (h : Frame s t ds control true) (x : Addr) (v : Word) : Frame s (t.writeWord x v) ds control true where
  arithmeticKept d hd hnew := by rw [t.readReg_writeWord, h.arithmeticKept d hd hnew]
  controlKept hc := h.controlKept hc
  memKept := nofun
  canonicalKept hw := t.writeWord_mem_wf (h.canonicalKept hw) x v
  stackKept := h.stackKept

/-- A new value of F, which may change NE and DI. -/
theorem Frame.withF (h : Frame s t ds true stores) (f : Flags) : Frame s { t with f := f } ds true stores where
  arithmeticKept d hd hnew := by
    rw [← h.arithmeticKept d hd hnew]
    cases d <;> rfl
  controlKept := nofun
  memKept := h.memKept
  canonicalKept := h.canonicalKept
  stackKept := h.stackKept

/-! ### One lemma for each shared operation -/

/-- A MOV destination stores only if `stores`, and its register is one of bankS. -/
def StoresOnlyIf (stores : Bool) : Dest → Prop
  | .reg r => ∃ r' : RegS, r = regS r'
  | .mem _ => stores = true

theorem storesOnlyIf_destOf (q : Bool) (x : Addr) (r : RegS) : StoresOnlyIf q (destOf q x r) := by
  cases q with
  | false => exact ⟨r, rfl⟩
  | true => rfl

theorem frame_move {n : Nat} {src : Source} {d : Dest} (h : move src d (s.advance n) = .next t)
    (hd : StoresOnlyIf stores d) : Frame s t ds control stores := by
  rw [move_eq] at h
  cases h
  cases d with
  | reg r =>
    obtain ⟨r', rfl⟩ := hd
    exact ((frame_advance s n).writeReg (within_regS r' ds) (fun he => absurd he (regS_plain r').2.2) _).setZE _
  | mem x =>
    obtain rfl : stores = true := hd
    exact ((frame_advance s n).writeWord x _).setZE _

theorem frame_push {n : Nat} {v : Word} (h : push v (s.advance n) = .next t) : Frame s t ds control true := by
  rw [push_eq] at h
  cases h
  exact (((frame_advance s n).writeWord _ _).writeReg (within_sp ds) nofun _).setZE _

theorem frame_pushPair {n : Nat} {x y : Word} (h : pushPair x y (s.advance n) = .next t) : Frame s t ds control true := by
  rw [pushPair_eq] at h
  cases h
  exact ((((frame_advance s n).writeWord _ _).writeWord _ _).writeReg (within_sp ds) nofun _).setZE _

theorem Frame.popFlags (h : Frame s t ds control stores) (poppedF z : Bool) :
    Frame s (Stack.popFlags poppedF z t) ds control stores := by
  unfold Stack.popFlags
  split
  · exact h
  · exact h.setZE z

theorem frame_branch (n : Nat) (taken : Bool) {k : Nat} (off : BitVec k) :
    Frame s ((s.advance n).branch taken off) ds control stores := by
  cases taken with
  | false => exact frame_advance s n
  | true => exact (frame_advance s n).jump _

theorem frame_call (n : Nat) (x : Addr) : Frame s ((s.advance n).call x) ds control stores :=
  (((frame_advance s n).writeReg (within_regS .rh ds) nofun _).writeReg (within_regS .rl ds) nofun _).jump x

theorem Frame.resultReg (h : Frame s t ds control stores) {d : RegA} (hd : Within (regA d) ds) (v : Word) :
    Frame s (t.writeReg (regA d) v) ds control stores :=
  h.writeReg hd (fun he => absurd he (regA_plain d).2.2) v

theorem frame_resultZE (n : Nat) {d : RegA} (hd : Within (regA d) ds) (v : Word) :
    Frame s ((s.advance n).resultZE d v) ds control stores :=
  ((frame_advance s n).resultReg hd v).setZE _

theorem frame_resultCarry (n : Nat) {d : RegA} (hd : Within (regA d) ds) (v : Word) (ca ov : Bool) :
    Frame s ((s.advance n).resultCarry d v ca ov) ds control stores :=
  ((((frame_advance s n).resultReg hd v).setFlag (by decide) (by decide) ca).setFlag (by decide) (by decide) ov).setZE _

theorem frame_resultShift (n : Nat) {d : RegA} (hd : Within (regA d) ds) (v : Word) (ca z : Bool) :
    Frame s ((((s.advance n).writeReg (regA d) v).setFlag .ca ca).setFlag .ze z) ds control stores :=
  (((frame_advance s n).resultReg hd v).setFlag (by decide) (by decide) ca).setZE z

end

/-! ### Every instruction -/

/-- The registers among which an instruction may write AA, AB and AC. -/
def destsOf (i : Instr) : List Reg := (arithDests i).map regA ++ popDests i

/-- Every instruction but ITR and RTI keeps to its frame. -/
theorem exec_frame {i : Instr} {s t : State} (hitr : ∀ id, i ≠ .itr id) (hrti : i ≠ .rti) (h : exec i s = .next t) :
    Frame s t (destsOf i) (mayWriteNeDi i) (mayStore i) := by
  cases i
  case movRegHi | movHiReg | movLitHi | movBytes => exact frame_move h (storesOnlyIf_destOf _ _ _)
  case movHiLit => exact frame_move (d := .mem _) h rfl
  case movStore24 r1 addr => exact frame_move (n := 2) (src := .reg (regS r1)) (d := .mem addr) h rfl
  case movLoad24 r1 addr => exact frame_move (n := 2) (src := .mem addr) (d := .reg (regS r1)) h ⟨r1, rfl⟩
  case movLit8 r1 lit => exact frame_move (n := 1) (src := .lit (lit.setWidth 16)) (d := .reg (regS r1)) h ⟨r1, rfl⟩
  case movLargePair g rhi rlo =>
    cases h
    exact (((frame_advance s 1).writeReg (within_regS rlo _) (fun he => absurd he (regS_plain rlo).2.2) _).writeReg
      (within_regS rhi _) (fun he => absurd he (regS_plain rhi).2.2) _).setZE _
  case movPairLarge g rhi rlo =>
    cases h
    cases g with
    | rt => exact (((frame_advance s 1).writeReg (within_regS .rh _) nofun _).writeReg (within_regS .rl _) nofun _).setZE _
    | pc => exact ((frame_advance s 1).jump _).setZE _
  case pshReg | pshLit16 | pshLit8 => exact frame_push h
  case pshPair => exact frame_pushPair h
  case popReg r =>
    cases (Stack.exec_popReg r s).symm.trans h
    exact (((frame_advance s 1).writeReg (within_sp _) nofun _).writeReg (within_of_mem (by simp [destsOf, popDests]))
      (fun he => by simp [mayWriteNeDi, he]) _).popFlags _ _
  case popPair rhi rlo =>
    cases (Stack.exec_popPair rhi rlo s).symm.trans h
    exact ((((frame_advance s 1).writeReg (within_sp _) nofun _).writeReg (within_of_mem (by simp [destsOf, popDests]))
      (fun he => by simp [mayWriteNeDi, he]) _).writeReg (within_of_mem (by simp [destsOf, popDests]))
      (fun he => by simp [mayWriteNeDi, he]) _).popFlags _ _
  case jmpReg | jmpPair | jmpRegLit | jmpLitReg | jmpLit24 | rts =>
    cases h
    exact (frame_advance s _).jump _
  case jsrReg | jsrPair | jsrRegLit | jsrLitReg | jsrLit24 =>
    cases h
    exact frame_call _ _
  case jcdReg | jcdLit7 | jcdMask | jccReg | jccLit7 | jccMask | jcn | jrlReg | jrlLit7 | jrlLit16 =>
    cases h
    exact frame_branch _ _ _
  case addRegs | subRegs | andRegs | iorRegs | xorRegs | addLit | subLit | subLitRev | andLit | iorLit | xorLit =>
    cases h
    exact frame_resultZE _ (within_of_mem List.mem_cons_self) _
  case adcRegs | sbcRegs | adcLit | sbcLit | sbcLitRev =>
    cases h
    exact frame_resultCarry _ (within_of_mem List.mem_cons_self) _ _ _
  case cmpRegs | cmpLit | cmpLitRev =>
    cases h
    exact frame_resultCarry _ (within_z _) _ _ _
  case lsl | rol | lsr | ror =>
    cases h
    exact frame_resultShift _ (within_of_mem List.mem_cons_self) _ _ _
  case nop =>
    cases h
    exact frame_advance s 1
  case sef | clf =>
    cases h
    exact (frame_advance s 1).withF _
  case itr id => exact absurd rfl (hitr id)
  case rti => exact absurd rfl hrti

/-! ### ITR and RTI -/

/-- What an ITR that completes has changed: `pc`, I, and one more entry of the interrupt stack if there was room. -/
theorem exec_itr_next {id : Byte} {s t : State} (h : exec (.itr id) s = .next t) :
    t = s.advance 1 ∨ s.istack.length ≠ Config.intStackDepth ∧
      t = { (s.jump (Config.intVector id)).writeReg .i (id.setWidth 16) with istack := s.pcNext 1 :: s.istack } := by
  cases hdi : s.flag .di with
  | true => exact .inl (by cases h.symm.trans (Other.exec_itr_masked hdi id); rfl)
  | false =>
    have hroom : s.istack.length ≠ Config.intStackDepth := by
      intro hfull
      cases h.symm.trans (Other.exec_itr_full hdi hfull id)
    exact .inr ⟨hroom, by cases h.symm.trans (Other.exec_itr_taken hdi hroom id); rfl⟩

/-- What an RTI that completes has changed: `pc`, and the newest entry of the interrupt stack is gone. -/
theorem exec_rti_next {s t : State} (h : exec .rti s = .next t) :
    ∃ ra rest, s.istack = ra :: rest ∧ t = { s.jump ra with istack := rest } := by
  obtain ⟨ra, rest, hstack, rfl⟩ := returnFromInterrupt_next h
  exact ⟨ra, rest, hstack, rfl⟩

/-- What ITR and RTI also keep: all of the frame but the interrupt stack. -/
theorem interrupt_keeps {i : Instr} {s t : State} (hi : (∃ id, i = .itr id) ∨ i = .rti) (h : exec i s = .next t) :
    (∀ d, t.readA d = s.readA d) ∧ t.f = s.f ∧ t.mem = s.mem := by
  rcases hi with ⟨id, rfl⟩ | rfl
  · rcases exec_itr_next h with rfl | ⟨-, rfl⟩ <;> exact ⟨fun d => by cases d <;> rfl, rfl, rfl⟩
  · obtain ⟨ra, rest, -, rfl⟩ := exec_rti_next h
    exact ⟨fun d => by cases d <;> rfl, rfl, rfl⟩

/-! ### The claims -/

/-- An instruction is ITR or RTI, or keeps to its frame. -/
theorem interrupt_or_frame {i : Instr} {s t : State} (h : exec i s = .next t) :
    ((∃ id, i = .itr id) ∨ i = .rti) ∨ Frame s t (destsOf i) (mayWriteNeDi i) (mayStore i) := by
  by_cases hi : (∃ id, i = .itr id) ∨ i = .rti
  · exact .inl hi
  · rw [not_or, not_exists] at hi
    exact .inr (exec_frame hi.1 hi.2 h)

/-- Settles O56. -/
theorem onlySefClfPopFChangeNeDi : Obligations.OnlySefClfPopFChangeNeDi := by
  unfold Obligations.OnlySefClfPopFChangeNeDi
  intro i s t hi h
  rcases interrupt_or_frame h with hint | hframe
  · obtain ⟨-, hf, -⟩ := interrupt_keeps hint h
    exact ⟨by rw [State.flag, hf, State.flag], by rw [State.flag, hf, State.flag]⟩
  · exact hframe.controlKept hi

/-- Settles O58. -/
theorem onlyMovAndPshStore : Obligations.OnlyMovAndPshStore := by
  unfold Obligations.OnlyMovAndPshStore
  intro i s t hi h key _
  have hmem : t.mem = s.mem := by
    rcases interrupt_or_frame h with hint | hframe
    · exact (interrupt_keeps hint h).2.2
    · exact hframe.memKept hi
  rw [State.readByte, hmem, State.readByte]

theorem regA_injective {d e : RegA} (h : regA d = regA e) : d = e := by
  simpa using congrArg asmRegA h

/-- Settles O59. -/
theorem arithmeticRegistersAreReachedByArithmeticAndPop : Obligations.ArithmeticRegistersAreReachedByArithmeticAndPop := by
  unfold Obligations.ArithmeticRegistersAreReachedByArithmeticAndPop
  intro i s t d hd harith hpop h
  rcases interrupt_or_frame h with hint | hframe
  · exact (interrupt_keeps hint h).1 d
  · apply hframe.arithmeticKept d hd
    rw [destsOf, List.mem_append, List.mem_map]
    rintro (⟨e, he, hed⟩ | hmem)
    · exact harith (regA_injective hed ▸ he)
    · exact hpop hmem

/-- Settles O16: only ITR makes the interrupt stack grow, and only when there is room; RTI takes an entry away; every other
instruction keeps to its frame. -/
theorem stepKeepsMachineInvariant : Obligations.StepKeepsMachineInvariant := by
  unfold Obligations.StepKeepsMachineInvariant
  intro s t hinv hstep
  obtain ⟨i, -, h⟩ := step_next hstep
  rcases interrupt_or_frame h with hint | hframe
  case inr => exact ⟨hframe.canonicalKept hinv.memCanonical, hframe.stackKept ▸ hinv.stackDepth⟩
  case inl =>
    obtain ⟨-, -, hmem⟩ := interrupt_keeps hint h
    refine ⟨hmem ▸ hinv.memCanonical, ?_⟩
    have hdepth := hinv.stackDepth
    rcases hint with ⟨id, rfl⟩ | rfl
    · rcases exec_itr_next h with rfl | ⟨hroom, rfl⟩
      · exact hdepth
      · exact Nat.lt_of_le_of_ne hdepth hroom
    · obtain ⟨ra, rest, hstack, rfl⟩ := exec_rti_next h
      rw [hstack] at hdepth
      exact Nat.le_of_succ_le hdepth

end Sys2Proof.Proofs.Frames
end

section
/-!
Only ITR and RTI read the interrupt stack (R31): every operation on the state commutes with giving the interrupt stack another
value, so every instruction but those two does.
-/

namespace Sys2Proof.Proofs.InterruptStack

open Sys2Proof Sys2Proof.Machine

/-- The state with another interrupt stack. -/
def withStack (stack : List Addr) (s : State) : State := { s with istack := stack }

/-- The outcome, its next state with another interrupt stack. -/
def withStackAfter (stack : List Addr) : Result → Result
  | .next t => .next (withStack stack t)
  | .fault e => .fault e
  | .refused e => .refused e

section
variable (stack : List Addr) (s : State)

/-! ### Reads -/

@[simp] theorem readReg_withStack (r : Reg) : (withStack stack s).readReg r = s.readReg r := by cases r <;> rfl

@[simp] theorem readS_withStack (r : RegS) : (withStack stack s).readS r = s.readS r := readReg_withStack stack s _

@[simp] theorem readA_withStack (r : RegA) : (withStack stack s).readA r = s.readA r := readReg_withStack stack s _

@[simp] theorem readWord_withStack (x : Addr) : (withStack stack s).readWord x = s.readWord x := rfl

@[simp] theorem readLarge_withStack (g : LargeReg) : (withStack stack s).readLarge g = s.readLarge g := by cases g <;> rfl

@[simp] theorem sp_withStack : (withStack stack s).sp = s.sp := rfl

@[simp] theorem allSet_withStack (m : Flags) : (withStack stack s).allSet m = s.allSet m := rfl

@[simp] theorem allClear_withStack (m : Flags) : (withStack stack s).allClear m = s.allClear m := rfl

@[simp] theorem flag_withStack (fl : Flag) : (withStack stack s).flag fl = s.flag fl := rfl

@[simp] theorem holds_withStack (cond : Cond) : (withStack stack s).holds cond = s.holds cond := by cases cond <;> rfl

@[simp] theorem value_withStack (src : Source) : src.value (withStack stack s) = src.value s := by
  cases src with
  | reg r => exact readReg_withStack stack s r
  | lit v => rfl
  | mem x => rfl

/-! ### Writes -/

@[simp] theorem jump_withStack (x : Addr) : (withStack stack s).jump x = withStack stack (s.jump x) := rfl

@[simp] theorem advance_withStack (n : Nat) : (withStack stack s).advance n = withStack stack (s.advance n) := rfl

@[simp] theorem writeReg_withStack (r : Reg) (v : Word) :
    (withStack stack s).writeReg r v = withStack stack (s.writeReg r v) := by cases r <;> rfl

@[simp] theorem setFlag_withStack (fl : Flag) (v : Bool) :
    (withStack stack s).setFlag fl v = withStack stack (s.setFlag fl v) := rfl

@[simp] theorem writeWord_withStack (x : Addr) (v : Word) :
    (withStack stack s).writeWord x v = withStack stack (s.writeWord x v) := rfl

@[simp] theorem put_withStack (d : Dest) (v : Word) : d.put (withStack stack s) v = withStack stack (d.put s v) := by
  cases d with
  | reg r => exact writeReg_withStack stack s r v
  | mem x => rfl

@[simp] theorem writeLarge_withStack (g : LargeReg) (h l : Word) :
    (withStack stack s).writeLarge g h l = withStack stack (s.writeLarge g h l) := by cases g <;> rfl

@[simp] theorem call_withStack (x : Addr) : (withStack stack s).call x = withStack stack (s.call x) := rfl

@[simp] theorem branch_withStack (taken : Bool) {n : Nat} (off : BitVec n) :
    (withStack stack s).branch taken off = withStack stack (s.branch taken off) := by cases taken <;> rfl

@[simp] theorem popFlags_withStack (poppedF z : Bool) :
    Stack.popFlags poppedF z (withStack stack s) = withStack stack (Stack.popFlags poppedF z s) := by cases poppedF <;> rfl

/-! ### Shared operations -/

@[simp] theorem move_withStack (src : Source) (d : Dest) :
    move src d (withStack stack s) = withStackAfter stack (move src d s) := by
  simp [move_eq, withStackAfter]

@[simp] theorem push_withStack (v : Word) : push v (withStack stack s) = withStackAfter stack (push v s) := rfl

@[simp] theorem pushPair_withStack (h l : Word) :
    pushPair h l (withStack stack s) = withStackAfter stack (pushPair h l s) := rfl

@[simp] theorem resultZE_withStack (d : RegA) (v : Word) :
    (withStack stack s).resultZE d v = withStack stack (s.resultZE d v) := by
  simp [State.resultZE]

@[simp] theorem resultCarry_withStack (d : RegA) (v : Word) (ca ov : Bool) :
    (withStack stack s).resultCarry d v ca ov = withStack stack (s.resultCarry d v ca ov) := by
  simp [State.resultCarry]

/-- An operation of the arithmetic family that does not look at the interrupt stack. -/
def Ignores (op : AluOp) : Prop := ∀ x y d stack s, op x y d (withStack stack s) = withStack stack (op x y d s)

theorem ignores_addOp : Ignores addOp := fun _ _ d _ s => resultZE_withStack _ s d _
theorem ignores_subOp : Ignores subOp := fun _ _ d _ s => resultZE_withStack _ s d _
theorem ignores_andOp : Ignores andOp := fun _ _ d _ s => resultZE_withStack _ s d _
theorem ignores_iorOp : Ignores iorOp := fun _ _ d _ s => resultZE_withStack _ s d _
theorem ignores_xorOp : Ignores xorOp := fun _ _ d _ s => resultZE_withStack _ s d _
theorem ignores_adcOp : Ignores adcOp := fun _ _ d _ s => resultCarry_withStack _ s d _ _ _
theorem ignores_sbcOp : Ignores sbcOp := fun _ _ d _ s => resultCarry_withStack _ s d _ _ _

variable {op : AluOp} (h : Ignores op) (r1 r2 d : RegA) (lit : Word)
include h

theorem aluRegs_withStack : aluRegs op r1 r2 d (withStack stack s) = withStackAfter stack (aluRegs op r1 r2 d s) := by
  simp [aluRegs, withStackAfter, h _ _ _ stack]

theorem aluLit_withStack : aluLit op r1 lit d (withStack stack s) = withStackAfter stack (aluLit op r1 lit d s) := by
  simp [aluLit, withStackAfter, h _ _ _ stack]

theorem aluLitRev_withStack : aluLitRev op r1 lit d (withStack stack s) = withStackAfter stack (aluLitRev op r1 lit d s) := by
  simp [aluLitRev, withStackAfter, h _ _ _ stack]

end

theorem aluShift_withStack (stack : List Addr) (s : State) (result : Word → Word) (out : Word → Bool) (r1 d : RegA) :
    aluShift result out r1 d (withStack stack s) = withStackAfter stack (aluShift result out r1 d s) := by
  simp [aluShift, withStackAfter]

/-! ### Every instruction -/

/-- Every instruction but ITR and RTI completes. -/
theorem exec_completes {i : Instr} (hitr : ∀ id, i ≠ .itr id) (hrti : i ≠ .rti) (s : State) : ∃ t, exec i s = .next t := by
  cases i
  case movRegHi | movHiReg | movLitHi | movBytes => exact ⟨_, move_eq _ _ _⟩
  case movHiLit p r2 hh lit => exact ⟨_, move_eq _ (.mem (shortAddr lit)) _⟩
  case itr id => exact absurd rfl (hitr id)
  case rti => exact absurd rfl hrti
  all_goals exact ⟨_, rfl⟩

/-- Every instruction but ITR and RTI does the same whatever the interrupt stack holds. -/
theorem exec_withStack {i : Instr} (hitr : ∀ id, i ≠ .itr id) (hrti : i ≠ .rti) (stack : List Addr) (s : State) :
    exec i (withStack stack s) = withStackAfter stack (exec i s) := by
  cases i
  case movRegHi | movHiReg | movLitHi | movHiLit | movBytes | movLoad24 | movStore24 | movLit8 =>
    simp [exec, execMovRegHi, execMovHiReg, execMovLitHi, execMovHiLit, execMovBytes, execMovLoad24, execMovStore24,
      execMovLit8, State.addrReg, State.addr2]
  case movLargePair | movPairLarge => simp [exec, execMovLargePair, execMovPairLarge, withStackAfter]
  case pshReg | pshPair | pshLit16 | pshLit8 => simp [exec, execPshReg, execPshPair, execPshLit16, execPshLit8]
  case popReg r =>
    rw [Stack.exec_popReg, Stack.exec_popReg]
    simp [withStackAfter]
  case popPair rhi rlo =>
    rw [Stack.exec_popPair, Stack.exec_popPair]
    simp [withStackAfter]
  case jmpReg | jmpPair | jmpRegLit | jmpLitReg | jmpLit24 | rts => rfl
  case jsrReg | jsrPair | jsrRegLit | jsrLitReg | jsrLit24 => rfl
  case jcdReg | jcdLit7 | jcdMask => simp [exec, execJcdReg, execJcdLit7, execJcdMask, withStackAfter]
  case jccReg | jccLit7 | jccMask => simp [exec, execJccReg, execJccLit7, execJccMask, withStackAfter]
  case jcn => simp [exec, execJcn, withStackAfter]
  case jrlReg | jrlLit7 | jrlLit16 => simp [exec, execJrlReg, execJrlLit7, execJrlLit16, withStackAfter]
  case addRegs => exact aluRegs_withStack stack s ignores_addOp _ _ _
  case adcRegs => exact aluRegs_withStack stack s ignores_adcOp _ _ _
  case subRegs => exact aluRegs_withStack stack s ignores_subOp _ _ _
  case sbcRegs | cmpRegs => exact aluRegs_withStack stack s ignores_sbcOp _ _ _
  case andRegs => exact aluRegs_withStack stack s ignores_andOp _ _ _
  case iorRegs => exact aluRegs_withStack stack s ignores_iorOp _ _ _
  case xorRegs => exact aluRegs_withStack stack s ignores_xorOp _ _ _
  case addLit => exact aluLit_withStack stack s ignores_addOp _ _ _
  case adcLit => exact aluLit_withStack stack s ignores_adcOp _ _ _
  case subLit => exact aluLit_withStack stack s ignores_subOp _ _ _
  case subLitRev => exact aluLitRev_withStack stack s ignores_subOp _ _ _
  case sbcLit | cmpLit => exact aluLit_withStack stack s ignores_sbcOp _ _ _
  case sbcLitRev | cmpLitRev => exact aluLitRev_withStack stack s ignores_sbcOp _ _ _
  case andLit => exact aluLit_withStack stack s ignores_andOp _ _ _
  case iorLit => exact aluLit_withStack stack s ignores_iorOp _ _ _
  case xorLit => exact aluLit_withStack stack s ignores_xorOp _ _ _
  case lsl | rol | lsr | ror => simp [exec, execLsl, execRol, execLsr, execRor, aluShift_withStack]
  case nop | sef | clf => rfl
  case itr id => exact absurd rfl (hitr id)
  case rti => exact absurd rfl hrti

/-- Settles O57. -/
theorem onlyItrRtiUseInterruptStack : Obligations.OnlyItrRtiUseInterruptStack := by
  unfold Obligations.OnlyItrRtiUseInterruptStack
  intro i s stack hitr hrti
  obtain ⟨t, ht⟩ := exec_completes hitr hrti s
  refine ⟨t, ht, (Frames.exec_frame hitr hrti ht).stackKept, ?_⟩
  have hother := exec_withStack hitr hrti stack s
  rwa [ht] at hother

end Sys2Proof.Proofs.InterruptStack
end

section
/-!
The assembler on operands (spec/30_encoding.md R125, R127): an operand printed as the lines of Machine/AsmText.lean print it
reads back, alone and among the operands of a line.
-/

namespace Sys2Proof.Proofs.Assembler

open Sys2Proof Sys2Proof.Machine

/-! ### Printing an operand -/

/-- An atom as the lines print it: a literal in hexadecimal. -/
def atomToken : AsmAtom → AsmToken
  | .reg r => .name (regName r)
  | .large g => .name (largeName g)
  | .num v => .number v.toNat true

/-- An operand as the lines print it. -/
def operandTokens (x : AsmOperand) : List AsmToken :=
  (if x.deref then [.dollar] else []) ++ (x.hi.toList.flatMap fun h => [atomToken h, .colon]) ++ [atomToken x.lo]

/-- An atom that is printed without a sign. -/
def Unsigned : AsmAtom → Prop
  | .num v => 0 ≤ v
  | .reg _ | .large _ => True

/-- An operand of unsigned atoms. -/
def Printable (x : AsmOperand) : Prop := (∀ h ∈ x.hi, Unsigned h) ∧ Unsigned x.lo

theorem asmAtom_atomToken {x : AsmAtom} (h : Unsigned x) (shown : Bool) (rest : List AsmToken) :
    asmAtom shown (atomToken x :: rest) = .ok (x, rest) := by
  cases x with
  | reg r => simp [atomToken, asmAtom]
  | large g => simp [atomToken, asmAtom]
  | num v =>
    have hv : (v.toNat : Int) = v := Int.toNat_of_nonneg h
    simp [atomToken, asmAtom, hv]

/-! ### Reading an operand -/

/-- What is read of an operand behind its `$`, if it has one. -/
def asmBody (deref shown : Bool) (ts : List AsmToken) : Except AsmError (AsmOperand × List AsmToken) :=
  match asmAtom shown ts with
  | .error e => .error e
  | .ok (x, .colon :: rest) =>
    match asmAtom shown rest with
    | .error e => .error e
    | .ok (y, rest) => .ok (⟨deref, some x, y⟩, rest)
  | .ok (x, rest) => .ok (⟨deref, none, x⟩, rest)

theorem asmOperand_dollar (implicit : Bool) (ts : List AsmToken) :
    asmOperand implicit (.dollar :: ts) = asmBody true (!implicit) ts := by
  cases implicit <;> rfl

theorem asmOperand_of_ne_dollar (implicit : Bool) {t : AsmToken} (h : t ≠ .dollar) (ts : List AsmToken) :
    asmOperand implicit (t :: ts) = asmBody false false (t :: ts) := by
  cases t <;> first | exact absurd rfl h | rfl

theorem asmBody_pair {x y : AsmAtom} (hx : Unsigned x) (hy : Unsigned y) (deref shown : Bool) (rest : List AsmToken) :
    asmBody deref shown (atomToken x :: .colon :: atomToken y :: rest) = .ok (⟨deref, some x, y⟩, rest) := by
  simp [asmBody, asmAtom_atomToken hx, asmAtom_atomToken hy]

theorem asmBody_one {x : AsmAtom} (hx : Unsigned x) (deref shown : Bool) {rest : List AsmToken}
    (hrest : ∀ ts, rest ≠ .colon :: ts) : asmBody deref shown (atomToken x :: rest) = .ok (⟨deref, none, x⟩, rest) := by
  rw [asmBody, asmAtom_atomToken hx]
  split
  · simp_all
  · rename_i h
    cases h
    exact absurd rfl (hrest _)
  · rename_i h
    cases h
    rfl

theorem atomToken_ne_dollar (x : AsmAtom) : atomToken x ≠ .dollar := by cases x <;> nofun

/-- A printed operand reads back, up to what is no `:`. -/
theorem asmOperand_operandTokens {x : AsmOperand} (hx : Printable x) (implicit : Bool) {rest : List AsmToken}
    (hrest : ∀ ts, rest ≠ .colon :: ts) : asmOperand implicit (operandTokens x ++ rest) = .ok (x, rest) := by
  obtain ⟨deref, hi, lo⟩ := x
  obtain ⟨hhi, hlo⟩ := hx
  cases hi with
  | none =>
    cases deref with
    | false => exact (asmOperand_of_ne_dollar implicit (atomToken_ne_dollar lo) _).trans (asmBody_one hlo _ _ hrest)
    | true => exact (asmOperand_dollar implicit _).trans (asmBody_one hlo _ _ hrest)
  | some h =>
    cases deref with
    | false => exact (asmOperand_of_ne_dollar implicit (atomToken_ne_dollar h) _).trans (asmBody_pair (hhi h rfl) hlo _ _ _)
    | true => exact (asmOperand_dollar implicit _).trans (asmBody_pair (hhi h rfl) hlo _ _ _)

/-! ### Reading the operands of a line -/

theorem operandTokens_ne_nil (x : AsmOperand) : operandTokens x ≠ [] := by simp [operandTokens]

/-- The operands of a line as the lines print them: sources, and a destination behind `>`. -/
def operandsTokens : List AsmOperand → Option AsmOperand → List AsmToken
  | [], none => []
  | [], some d => .into :: operandTokens d
  | [x], none => operandTokens x
  | [x], some d => operandTokens x ++ .into :: operandTokens d
  | x :: y :: xs, d => operandTokens x ++ .comma :: operandsTokens (y :: xs) d

section
variable {x y d : AsmOperand} (hx : Printable x) (hy : Printable y) (hd : Printable d) (implicit : Bool)
include hx

theorem asmOperand_last : asmOperand implicit (operandTokens x) = .ok (x, []) := by
  have h := asmOperand_operandTokens hx implicit (rest := []) nofun
  rwa [List.append_nil] at h

theorem asmOperands_one : asmOperands implicit (operandsTokens [x] none) = .ok ([x], none) := by
  unfold asmOperands operandsTokens
  split
  · exact absurd ‹_› (operandTokens_ne_nil x)
  · simp [asmOperand_last hx]

include hd in
theorem asmOperands_one_into : asmOperands implicit (operandsTokens [x] (some d)) = .ok ([x], some d) := by
  unfold asmOperands operandsTokens
  split
  · simp at *
  · simp [asmOperand_operandTokens hx, asmOperand_last hd]

include hy in
theorem asmOperands_two : asmOperands implicit (operandsTokens [x, y] none) = .ok ([x, y], none) := by
  unfold asmOperands operandsTokens operandsTokens
  split
  · simp at *
  · simp [asmOperand_operandTokens hx, asmOperand_last hy]

include hy hd in
theorem asmOperands_two_into : asmOperands implicit (operandsTokens [x, y] (some d)) = .ok ([x, y], some d) := by
  unfold asmOperands operandsTokens operandsTokens
  split
  · simp at *
  · simp [asmOperand_operandTokens hx, asmOperand_operandTokens hy, asmOperand_last hd]

end

/-! ### The operands of the instructions -/

/-- A register, with its `$` if it has one. -/
def regOperand (p : Bool) (r : Reg) : AsmOperand := ⟨p, none, .reg r⟩

/-- A literal, with its `$` if it has one. -/
def litOperand (p : Bool) {n : Nat} (lit : BitVec n) : AsmOperand := ⟨p, none, .num lit.toNat⟩

/-- A pair of registers, with its `$` if it has one. -/
def pairOperand (p : Bool) (h l : Reg) : AsmOperand := ⟨p, some (.reg h), .reg l⟩

/-- A `[RHI:]R2` slot: RHI = Z is not named. -/
def slotOperand (p : Bool) (hh : RegHi) (r2 : RegS) : AsmOperand :=
  ⟨p, if hh = .z then none else some (.reg (regHi hh)), .reg (regS r2)⟩

/-- An operand of row M7: the high byte is named behind a `$` only. -/
def byteOperand (p : Bool) (h : Byte) (r : RegS) : AsmOperand :=
  ⟨p, if p then some (.num h.toNat) else none, .reg (regS r)⟩

theorem unsigned_toNat (n : Nat) : Unsigned (.num n) := Int.natCast_nonneg n

theorem printable_regOperand (p : Bool) (r : Reg) : Printable (regOperand p r) := ⟨nofun, trivial⟩

theorem printable_litOperand (p : Bool) {n : Nat} (lit : BitVec n) : Printable (litOperand p lit) := ⟨nofun, unsigned_toNat _⟩

theorem printable_pairOperand (p : Bool) (h l : Reg) : Printable (pairOperand p h l) :=
  ⟨fun _ he => by cases he; trivial, trivial⟩

theorem printable_slotOperand (p : Bool) (hh : RegHi) (r2 : RegS) : Printable (slotOperand p hh r2) := by
  refine ⟨fun x hx => ?_, trivial⟩
  cases hh <;> cases hx <;> trivial

theorem printable_byteOperand (p : Bool) (h : Byte) (r : RegS) : Printable (byteOperand p h r) := by
  refine ⟨fun x hx => ?_, trivial⟩
  cases p <;> cases hx
  exact unsigned_toNat _

theorem tokens_regOperand (p : Bool) (r : Reg) : operandTokens (regOperand p r) = regTokens p r := by cases p <;> rfl

theorem tokens_litOperand (p : Bool) {n : Nat} (lit : BitVec n) : operandTokens (litOperand p lit) = litTokens p lit := by
  cases p <;> rfl

theorem tokens_pairOperand (h l : Reg) : operandTokens (pairOperand false h l) = pairTokens h l := rfl

theorem tokens_slotOperand {p : Bool} {hh : RegHi} (h : (p || hh == .z) = true) (r2 : RegS) :
    operandTokens (slotOperand p hh r2) = slotTokens p hh r2 := by
  cases p with
  | false =>
    obtain rfl : hh = .z := by simpa using h
    rfl
  | true => cases hh <;> rfl

theorem tokens_byteOperand (p : Bool) (h : Byte) (r : RegS) : operandTokens (byteOperand p h r) = byteTokens p h r := by
  cases p <;> rfl

end Sys2Proof.Proofs.Assembler
end

section
/-!
The lines of the instructions but MOV and those that begin with flags (spec/30_encoding.md R125 to R128): what rows their operands
have, and that each of these rows has the line.
-/

namespace Sys2Proof.Proofs.Assembler

open Sys2Proof Sys2Proof.Machine

/-! ### The claim on tokens -/

/-- What a line with some tokens holds: an instruction that has these tokens. -/
def HasTokens (ts : List AsmToken) (i : Instr) : Prop := WellFormed i ∧ hasText i = true ∧ lineTokens i = ts

/-- The line of an instruction is assembled into a list that holds it, and only instructions with its tokens. -/
def Assembles (i : Instr) : Prop :=
  ∃ is, assembleTokens (lineTokens i) = .ok is ∧ i ∈ is ∧ ∀ j ∈ is, HasTokens (lineTokens i) j

theorem assembles_of_rows {i : Instr} {rows : List Instr} (hrows : assembleTokens (lineTokens i) = namedRows (.ok rows))
    (hmem : i ∈ rows.map secondName) (hsound : ∀ k ∈ rows, HasTokens (lineTokens i) (secondName k)) : Assembles i := by
  cases rows with
  | nil => simp at hmem
  | cons k rows =>
    refine ⟨(k :: rows).map secondName, hrows, hmem, fun j hj => ?_⟩
    obtain ⟨k', hk', rfl⟩ := List.mem_map.1 hj
    exact hsound k' hk'

theorem assembles_of_row {i k : Instr} (hrows : assembleTokens (lineTokens i) = namedRows (.ok [k])) (hk : secondName k = i)
    (hwf : WellFormed i) (htext : hasText i = true) : Assembles i :=
  assembles_of_rows hrows (by simp [hk]) fun k' hk' => by
    obtain rfl := List.mem_singleton.1 hk'
    rw [hk]
    exact ⟨hwf, htext, rfl⟩

/-- A well-formed instruction is read under its own name. -/
theorem secondName_of_wellFormed {i : Instr} (h : WellFormed i) : secondName i = i := by
  unfold secondName
  split <;> simp_all [WellFormed, wellFormed]

/-! ### The shape of a line -/

/-- The mnemonic of an instruction's line. -/
def mnemonicOf (i : Instr) : List Char :=
  match lineTokens i with
  | .name m :: _ => m
  | _ => []

/-- The line of an instruction is a mnemonic that no flags follow and operands that read back. -/
structure Line (i : Instr) (xs : List AsmOperand) (d : Option AsmOperand) : Prop where
  tokens : lineTokens i = .name (mnemonicOf i) :: operandsTokens xs d
  reads : ∀ implicit, asmOperands implicit (operandsTokens xs d) = .ok (xs, d)
  plain : flagMnemonics.contains (mnemonicOf i) = false

theorem assembleTokens_of_operands {m : List Char} {ts : List AsmToken} {xs : List AsmOperand} {d : Option AsmOperand}
    (hm : flagMnemonics.contains m = false) (h : asmOperands (implicitDollar.contains m) ts = .ok (xs, d)) :
    assembleTokens (.name m :: ts) = namedRows (.ok (operandRows m xs d)) := by
  rw [assembleTokens, lineRows, hm, if_neg Bool.false_ne_true, h]

section
variable {i k : Instr} {xs : List AsmOperand} {d : Option AsmOperand} {x y e : AsmOperand}

theorem Line.rows (h : Line i xs d) :
    assembleTokens (lineTokens i) = namedRows (.ok (operandRows (mnemonicOf i) xs d)) := by
  rw [h.tokens, assembleTokens_of_operands h.plain (h.reads _)]

/-- A line whose operands have one row. -/
theorem Line.assembles (h : Line i xs d) (hwf : WellFormed i) (htext : hasText i = true) (hk : secondName k = i)
    (hrow : operandRows (mnemonicOf i) xs d = [k]) : Assembles i :=
  assembles_of_row (by rw [h.rows, hrow]) hk hwf htext

variable (hm : flagMnemonics.contains (mnemonicOf i) = false)
include hm

theorem line_none (ht : lineTokens i = [.name (mnemonicOf i)]) : Line i [] none := ⟨ht, fun _ => rfl, hm⟩

theorem line_one (hx : Printable x) (ht : lineTokens i = .name (mnemonicOf i) :: operandTokens x) : Line i [x] none :=
  ⟨ht, asmOperands_one hx, hm⟩

theorem line_one_into (hx : Printable x) (he : Printable e)
    (ht : lineTokens i = .name (mnemonicOf i) :: (operandTokens x ++ .into :: operandTokens e)) : Line i [x] (some e) :=
  ⟨ht, asmOperands_one_into hx he, hm⟩

theorem line_two (hx : Printable x) (hy : Printable y)
    (ht : lineTokens i = .name (mnemonicOf i) :: (operandTokens x ++ .comma :: operandTokens y)) : Line i [x, y] none :=
  ⟨ht, asmOperands_two hx hy, hm⟩

theorem line_two_into (hx : Printable x) (hy : Printable y) (he : Printable e)
    (ht : lineTokens i = .name (mnemonicOf i) ::
      (operandTokens x ++ .comma :: (operandTokens y ++ .into :: operandTokens e))) : Line i [x, y] (some e) :=
  ⟨ht, asmOperands_two_into hx hy he, hm⟩

end

/-! ### Which field an operand fits -/

@[simp] theorem asmOneS_regOperand (p : Bool) (r : RegS) : asmOneS (regOperand p (regS r)) = some r := asmRegS_regS r

@[simp] theorem asmOneA_regOperand (r : RegA) : asmOneA (regOperand false (regA r)) = some r := asmRegA_regA r

@[simp] theorem asmOneA_litOperand (p : Bool) {n : Nat} (lit : BitVec n) : asmOneA (litOperand p lit) = none := by
  cases p <;> rfl

@[simp] theorem asmOneLit_litOperand (p : Bool) {n : Nat} (lit : BitVec n) : asmOneLit n (litOperand p lit) = some lit :=
  asmLit_self lit

@[simp] theorem asmOneLit_regOperand (p : Bool) (n : Nat) (r : Reg) : asmOneLit n (regOperand p r) = none := rfl

/-- A literal that fits a field has the field's value. -/
theorem toNat_of_asmLit {n : Nat} {v : Int} {x : BitVec n} (h : asmLit n v = some x) : v = x.toNat := by
  cases v with
  | ofNat v =>
    simp only [asmLit, Option.ite_none_right_eq_some, Option.some.injEq] at h
    obtain ⟨hlt, rfl⟩ := h
    simp [Nat.mod_eq_of_lt hlt]
  | negSucc v => cases h

theorem mem_oneRow {x : Option Instr} {j : Instr} : j ∈ oneRow x ↔ x = some j := Option.mem_toList

/-! ### PSH and POP -/

theorem pshRows_reg (r : Reg) : pshRows [regOperand false r] = [.pshReg r] := rfl

theorem pshRows_pair (h l : Reg) : pshRows [pairOperand false h l] = [.pshPair h l] := rfl

theorem popRows_reg (r : Reg) : popRows [regOperand false r] = [.popReg r] := rfl

theorem popRows_pair (h l : Reg) : popRows [regOperand false h, regOperand false l] = [.popPair h l] := rfl

/-- The rows of a pushed literal are PSH of that literal, in 8 bits or in 16. -/
theorem mem_pshRows_lit {n : Nat} (lit : BitVec n) (j : Instr) : j ∈ pshRows [litOperand false lit] ↔
    (∃ x, asmLit 8 lit.toNat = some x ∧ .pshLit8 x = j) ∨ ∃ x, asmLit 16 lit.toNat = some x ∧ .pshLit16 x = j := by
  simp [pshRows, litOperand, asmStackPair, mem_oneRow]

/-- Literals of one value have one spelling. -/
theorem litToken_of_asmLit {n m : Nat} {lit : BitVec n} {x : BitVec m} (h : asmLit m lit.toNat = some x) :
    litToken x = litToken lit := by
  rw [litToken, litToken, Int.ofNat_inj.1 (toNat_of_asmLit h)]

theorem hasTokens_of_mem_pshRows_lit {n : Nat} {lit : BitVec n} {k : Instr} (h : k ∈ pshRows [litOperand false lit]) :
    HasTokens [.name ['P', 'S', 'H'], litToken lit] (secondName k) := by
  rcases (mem_pshRows_lit lit k).1 h with ⟨x, hx, rfl⟩ | ⟨x, hx, rfl⟩ <;>
    exact ⟨rfl, rfl, by rw [← litToken_of_asmLit hx]; rfl⟩

theorem assembles_pshLit {n : Nat} {lit : BitVec n} {i : Instr} (ht : lineTokens i = [.name ['P', 'S', 'H'], litToken lit])
    (hmem : i ∈ pshRows [litOperand false lit]) (hname : secondName i = i) : Assembles i := by
  have hm : mnemonicOf i = ['P', 'S', 'H'] := by rw [mnemonicOf, ht]
  have hline : Line i [litOperand false lit] none :=
    line_one (by rw [hm]; rfl) (printable_litOperand false lit) (by rw [ht, hm]; rfl)
  have hrows := hline.rows
  rw [hm] at hrows
  exact assembles_of_rows hrows (List.mem_map.2 ⟨i, hmem, hname⟩) fun k hk => ht ▸ hasTokens_of_mem_pshRows_lit hk

/-! ### JMP and JSR -/

section
variable (one : RegS → Instr) (two : RegS → RegS → Instr) (regLit litReg : RegS → Word → Instr) (lit : Addr → Instr)

theorem jumpRows_reg (r : RegS) : jumpRows (regOperand true (regS r)) one two regLit litReg lit = [one r] := by
  simp [jumpRows, regOperand, oneRow]

theorem jumpRows_pair (r1 r2 : RegS) :
    jumpRows (pairOperand true (regS r1) (regS r2)) one two regLit litReg lit = [two r1 r2] := by
  simp [jumpRows, pairOperand, oneRow]

theorem jumpRows_regLit (r1 : RegS) (w : Word) :
    jumpRows ⟨true, some (.reg (regS r1)), .num w.toNat⟩ one two regLit litReg lit = [regLit r1 w] := by
  simp [jumpRows, oneRow]

theorem jumpRows_litReg (r1 : RegS) (w : Word) :
    jumpRows ⟨true, some (.num w.toNat), .reg (regS r1)⟩ one two regLit litReg lit = [litReg r1 w] := by
  simp [jumpRows, oneRow]

theorem jumpRows_lit (x : Addr) : jumpRows (litOperand true x) one two regLit litReg lit = [lit x] := by
  simp [jumpRows, litOperand, oneRow]

end

theorem printable_regLit (r : Reg) (w : Word) : Printable ⟨true, some (.reg r), .num w.toNat⟩ :=
  ⟨fun _ he => by cases he; trivial, unsigned_toNat _⟩

theorem printable_litReg (r : Reg) (w : Word) : Printable ⟨true, some (.num w.toNat), .reg r⟩ :=
  ⟨fun _ he => by cases he; exact unsigned_toNat _, trivial⟩

theorem itrRows_lit (id : Byte) : operandRows ['I', 'T', 'R'] [litOperand false id] none = [.itr id] := by
  show oneRow ((asmOneLit 8 (litOperand false id)).map Instr.itr) = _
  rw [asmOneLit_litOperand]
  rfl

/-! ### Arithmetic -/

section
variable (regs : RegA → RegA → RegA → Instr) (lit : RegA → Word → RegA → Instr)
  (rev : Option (RegA → Word → RegA → Instr))
  (r1 r2 r3 : RegA) (w : Word)

theorem arithRows_regs : arithRows (regOperand false (regA r1)) (regOperand false (regA r2)) (regOperand false (regA r3))
    regs lit rev = [regs r1 r2 r3] := by
  cases rev <;> simp [arithRows, oneRow]

theorem arithRows_lit : arithRows (regOperand false (regA r1)) (litOperand false w) (regOperand false (regA r3))
    regs lit rev = [lit r1 w r3] := by
  cases rev <;> simp [arithRows, oneRow, litOperand, asmOneLit, asmOneA, regOperand]

theorem arithRows_rev (mk : RegA → Word → RegA → Instr) :
    arithRows (litOperand false w) (regOperand false (regA r1)) (regOperand false (regA r3)) regs lit (some mk) =
      [mk r1 w r3] := by
  simp [arithRows, oneRow, litOperand, asmOneLit, asmOneA, regOperand]

theorem shiftRows_regs (mk : RegA → RegA → Instr) :
    shiftRows (regOperand false (regA r1)) (regOperand false (regA r3)) mk = [mk r1 r3] := by
  simp [shiftRows, oneRow]

end

section
variable {i : Instr} (r1 r2 r3 : RegA) (w : Word) (hm : flagMnemonics.contains (mnemonicOf i) = false)
include hm

theorem line_arithRegs (ht : lineTokens i = arithLine (mnemonicOf i) (nameA r1) (nameA r2) r3) :
    Line i [regOperand false (regA r1), regOperand false (regA r2)] (some (regOperand false (regA r3))) :=
  line_two_into hm (printable_regOperand _ _) (printable_regOperand _ _) (printable_regOperand _ _) ht

theorem line_arithLit (ht : lineTokens i = arithLine (mnemonicOf i) (nameA r1) (litToken w) r3) :
    Line i [regOperand false (regA r1), litOperand false w] (some (regOperand false (regA r3))) :=
  line_two_into hm (printable_regOperand _ _) (printable_litOperand _ _) (printable_regOperand _ _) ht

theorem line_arithRev (ht : lineTokens i = arithLine (mnemonicOf i) (litToken w) (nameA r1) r3) :
    Line i [litOperand false w, regOperand false (regA r1)] (some (regOperand false (regA r3))) :=
  line_two_into hm (printable_litOperand _ _) (printable_regOperand _ _) (printable_regOperand _ _) ht

theorem line_shift (ht : lineTokens i = shiftLine (mnemonicOf i) r1 r3) :
    Line i [regOperand false (regA r1)] (some (regOperand false (regA r3))) :=
  line_one_into hm (printable_regOperand _ _) (printable_regOperand _ _) ht

end

/-! ### All of them -/

/-- The instructions of this file: all but MOV and those with a list of flags or an offset. -/
def isPlain : Instr → Bool
  | .movRegHi .. | .movHiReg .. | .movLitHi .. | .movHiLit .. | .movLargePair .. | .movPairLarge .. | .movBytes ..
  | .movLoad24 .. | .movStore24 .. | .movLit8 .. | .jcdReg .. | .jcdLit7 .. | .jcdMask .. | .jccReg .. | .jccLit7 ..
  | .jccMask .. | .jcn .. | .sef .. | .clf .. | .jrlReg .. | .jrlLit7 .. | .jrlLit16 .. => false
  | _ => true

theorem assembles_plain {i : Instr} (hplain : isPlain i = true) (hwf : WellFormed i) (htext : hasText i = true) : Assembles i := by
  have hname : secondName i = i := secondName_of_wellFormed hwf
  cases i
  case movRegHi | movHiReg | movLitHi | movHiLit | movLargePair | movPairLarge | movBytes | movLoad24 | movStore24 | movLit8 |
      jcdReg | jcdLit7 | jcdMask | jccReg | jccLit7 | jccMask | jcn | sef | clf | jrlReg | jrlLit7 | jrlLit16 => cases hplain
  case pshReg r => exact (line_one rfl (printable_regOperand false r) rfl).assembles hwf htext hname (pshRows_reg r)
  case pshPair h l => exact (line_one rfl (printable_pairOperand false h l) rfl).assembles hwf htext hname (pshRows_pair h l)
  case pshLit16 lit => exact assembles_pshLit rfl ((mem_pshRows_lit lit _).2 (.inr ⟨lit, asmLit_self lit, rfl⟩)) hname
  case pshLit8 lit => exact assembles_pshLit rfl ((mem_pshRows_lit lit _).2 (.inl ⟨lit, asmLit_self lit, rfl⟩)) hname
  case popReg r => exact (line_one rfl (printable_regOperand false r) rfl).assembles hwf htext hname (popRows_reg r)
  case popPair h l =>
    exact (line_two rfl (printable_regOperand false h) (printable_regOperand false l) rfl).assembles hwf htext hname
      (popRows_pair h l)
  case jmpReg r | jsrReg r =>
    exact (line_one rfl (printable_regOperand true (regS r)) rfl).assembles hwf htext hname
      (by simp [mnemonicOf, lineTokens, operandRows, jumpRows_reg])
  case jmpPair r1 r2 | jsrPair r1 r2 =>
    exact (line_one rfl (printable_pairOperand true (regS r1) (regS r2)) rfl).assembles hwf htext hname
      (by simp [mnemonicOf, lineTokens, operandRows, jumpRows_pair])
  case jmpRegLit r w | jsrRegLit r w =>
    exact (line_one rfl (printable_regLit (regS r) w) rfl).assembles hwf htext hname
      (by simp [mnemonicOf, lineTokens, operandRows, jumpRows_regLit])
  case jmpLitReg r w | jsrLitReg r w =>
    exact (line_one rfl (printable_litReg (regS r) w) rfl).assembles hwf htext hname
      (by simp [mnemonicOf, lineTokens, operandRows, jumpRows_litReg])
  case jmpLit24 x | jsrLit24 x =>
    exact (line_one rfl (printable_litOperand true x) rfl).assembles hwf htext hname
      (by simp [mnemonicOf, lineTokens, operandRows, jumpRows_lit])
  case addRegs r1 r2 r3 | adcRegs r1 r2 r3 | subRegs r1 r2 r3 | sbcRegs r1 r2 r3 | andRegs r1 r2 r3 | iorRegs r1 r2 r3 |
      xorRegs r1 r2 r3 =>
    exact (line_arithRegs r1 r2 r3 rfl rfl).assembles hwf htext hname
      (by simp [mnemonicOf, lineTokens, arithLine, operandRows, arithRows_regs])
  case addLit r1 w r3 | adcLit r1 w r3 | subLit r1 w r3 | sbcLit r1 w r3 | andLit r1 w r3 | iorLit r1 w r3 | xorLit r1 w r3 =>
    exact (line_arithLit r1 r3 w rfl rfl).assembles hwf htext hname
      (by simp [mnemonicOf, lineTokens, arithLine, operandRows, arithRows_lit])
  case subLitRev r1 w r3 | sbcLitRev r1 w r3 =>
    exact (line_arithRev r1 r3 w rfl rfl).assembles hwf htext hname
      (by simp [mnemonicOf, lineTokens, arithLine, operandRows, arithRows_rev])
  case cmpRegs r1 r2 =>
    exact (line_two rfl (printable_regOperand false (regA r1)) (printable_regOperand false (regA r2)) rfl).assembles hwf htext
      (k := .sbcRegs r1 r2 .z) rfl (arithRows_regs .sbcRegs .sbcLit (some .sbcLitRev) r1 r2 .z)
  case cmpLit r1 w =>
    exact (line_two rfl (printable_regOperand false (regA r1)) (printable_litOperand false w) rfl).assembles hwf htext
      (k := .sbcLit r1 w .z) rfl (arithRows_lit .sbcRegs .sbcLit (some .sbcLitRev) r1 .z w)
  case cmpLitRev r1 w =>
    exact (line_two rfl (printable_litOperand false w) (printable_regOperand false (regA r1)) rfl).assembles hwf htext
      (k := .sbcLitRev r1 w .z) rfl (arithRows_rev .sbcRegs .sbcLit r1 .z w .sbcLitRev)
  case lsl r1 r3 | rol r1 r3 | lsr r1 r3 | ror r1 r3 =>
    exact (line_shift r1 r3 rfl rfl).assembles hwf htext hname
      (by simp [mnemonicOf, lineTokens, shiftLine, operandRows, shiftRows_regs])
  case nop | rti | rts => exact (line_none rfl rfl).assembles hwf htext hname rfl
  case itr id => exact (line_one rfl (printable_litOperand false id) rfl).assembles hwf htext hname (itrRows_lit id)

end Sys2Proof.Proofs.Assembler
end

section
/-!
The lines of MOV (spec/30_encoding.md R125, R127): the rows that a source and a destination have are exactly the instructions with
these operands.
-/

namespace Sys2Proof.Proofs.Assembler

open Sys2Proof Sys2Proof.Machine

/-! ### What an operand is, from the field it fits -/

theorem eq_of_asmRegS {q : Reg} {r : RegS} (h : asmRegS q = some r) : q = regS r := by
  cases q <;> cases h <;> rfl

theorem eq_of_asmRegHi {q : Reg} {r : RegHi} (h : asmRegHi q = some r) : q = regHi r := by
  cases q <;> cases h <;> rfl

theorem eq_of_asmOneS {x : AsmOperand} {r : RegS} (h : asmOneS x = some r) : x = regOperand x.deref (regS r) := by
  obtain ⟨p, hi, lo⟩ := x
  unfold asmOneS at h
  split at h
  case h_1 q hhi hlo =>
    obtain rfl := eq_of_asmRegS h
    cases hhi
    cases hlo
    rfl
  case h_2 => cases h

theorem eq_of_asmOneLit {n : Nat} {x : AsmOperand} {lit : BitVec n} (h : asmOneLit n x = some lit) :
    x = litOperand x.deref lit := by
  obtain ⟨p, hi, lo⟩ := x
  unfold asmOneLit at h
  split at h
  case h_1 v hhi hlo =>
    cases hhi
    cases hlo
    rw [toNat_of_asmLit h]
    rfl
  case h_2 => cases h

/-- An operand that does not name Z as its high register behind a `$`: the lines never do. -/
def NamesNoHighZ (x : AsmOperand) : Prop := x.deref = true → x.hi ≠ some (.reg .z)

theorem eq_of_asmSlot {x : AsmOperand} {hh : RegHi} {r : RegS} (hx : NamesNoHighZ x) (h : asmSlot x = some (hh, r)) :
    x = slotOperand x.deref hh r ∧ (x.deref || hh == .z) = true := by
  obtain ⟨p, hi, lo⟩ := x
  unfold asmSlot at h
  split at h
  case h_1 q hhi hlo =>
    obtain ⟨r', hr, he⟩ := Option.map_eq_some_iff.1 h
    cases he
    cases hhi
    cases hlo
    obtain rfl := eq_of_asmRegS hr
    exact ⟨rfl, by simp⟩
  case h_2 qh q hhi hlo =>
    split at h
    case h_1 hd hrh hr =>
      cases h
      cases hd
      cases hhi
      cases hlo
      obtain rfl := eq_of_asmRegS hr
      obtain rfl := eq_of_asmRegHi hrh
      have hz : hh ≠ .z := fun hz => hx rfl (by rw [hz]; rfl)
      exact ⟨by simp [slotOperand, hz], rfl⟩
    case h_2 => cases h
  case h_3 => cases h

theorem eq_of_asmPairS {x : AsmOperand} {h l : RegS} (hx : asmPairS x = some (h, l)) :
    x = pairOperand false (regS h) (regS l) := by
  obtain ⟨p, hi, lo⟩ := x
  unfold asmPairS at hx
  split at hx
  case h_1 qh ql hd hhi hlo =>
    split at hx
    case h_1 hh hl =>
      cases hx
      cases hd
      cases hhi
      cases hlo
      rw [eq_of_asmRegS hh, eq_of_asmRegS hl]
      rfl
    case h_2 => cases hx
  case h_2 => cases hx

theorem eq_of_asmByteSlot {x : AsmOperand} {p : Bool} {h : Byte} {r : RegS} (hx : asmByteSlot x = some (p, h, r)) :
    x = byteOperand p h r ∧ (p || h == 0#8) = true := by
  obtain ⟨p', hi, lo⟩ := x
  unfold asmByteSlot at hx
  split at hx
  case h_1 q hd hhi hlo =>
    obtain ⟨r', hr, he⟩ := Option.map_eq_some_iff.1 hx
    cases he
    cases hd
    cases hhi
    cases hlo
    rw [eq_of_asmRegS hr]
    exact ⟨rfl, rfl⟩
  case h_2 v q hd hhi hlo =>
    split at hx
    case h_1 hv hr =>
      cases hx
      cases hd
      cases hhi
      cases hlo
      rw [eq_of_asmRegS hr, toNat_of_asmLit hv]
      exact ⟨rfl, rfl⟩
    case h_2 => cases hx
  case h_3 => cases hx

/-! ### The operands of MOV -/

/-- A large register. -/
def largeOperand (g : LargeReg) : AsmOperand := ⟨false, none, .large g⟩

theorem printable_largeOperand (g : LargeReg) : Printable (largeOperand g) := ⟨nofun, trivial⟩

/-- The source and the destination of a MOV. -/
def movOperands : Instr → Option (AsmOperand × AsmOperand)
  | .movRegHi p q r1 r2 hh => some (regOperand p (regS r1), slotOperand q hh r2)
  | .movHiReg p q r1 r2 hh => some (slotOperand p hh r2, regOperand q (regS r1))
  | .movLitHi p q r2 hh lit => some (litOperand p lit, slotOperand q hh r2)
  | .movHiLit p r2 hh lit => some (slotOperand p hh r2, litOperand true lit)
  | .movLargePair g rhi rlo => some (largeOperand g, pairOperand false (regS rhi) (regS rlo))
  | .movPairLarge g rhi rlo => some (pairOperand false (regS rhi) (regS rlo), largeOperand g)
  | .movBytes p q r1 r2 hs hd => some (byteOperand p hs r1, byteOperand q hd r2)
  | .movLoad24 r1 addr => some (litOperand true addr, regOperand false (regS r1))
  | .movStore24 r1 addr => some (regOperand false (regS r1), litOperand true addr)
  | .movLit8 r1 lit => some (litOperand false lit, regOperand false (regS r1))
  | _ => none

/-- Each row that a source and a destination have is a MOV with these operands, which has a line. -/
theorem movOperands_of_mem_movRows {x d : AsmOperand} (hx : NamesNoHighZ x) (hd : NamesNoHighZ d) {k : Instr}
    (hk : k ∈ movRows x d) : movOperands k = some (x, d) ∧ hasText k = true := by
  have pair {a b : AsmOperand} (ha : x = a) (hb : d = b) : some (a, b) = some (x, d) := by rw [ha, hb]
  simp only [movRows, List.mem_append, mem_oneRow] at hk
  rcases hk with ((((((((h | h) | h) | h) | h) | h) | h) | h) | h) | h
  · -- M10
    split at h
    case isTrue => cases h
    case isFalse hplain =>
      obtain ⟨hp, hq⟩ : x.deref = false ∧ d.deref = false := by simpa using hplain
      split at h
      case h_1 hlit hreg =>
        cases h
        have hxe := eq_of_asmOneLit hlit
        have hde := eq_of_asmOneS hreg
        rw [hp] at hxe
        rw [hq] at hde
        exact ⟨pair hxe hde, rfl⟩
      case h_2 => cases h
  · -- M1
    split at h
    case h_1 hreg hslot =>
      cases h
      obtain ⟨hde, htext⟩ := eq_of_asmSlot hd hslot
      exact ⟨pair (eq_of_asmOneS hreg) hde, htext⟩
    case h_2 => cases h
  · -- M2
    split at h
    case h_1 hslot hreg =>
      cases h
      obtain ⟨hxe, htext⟩ := eq_of_asmSlot hx hslot
      exact ⟨pair hxe (eq_of_asmOneS hreg), htext⟩
    case h_2 => cases h
  · -- M5
    split at h
    case h_1 hpair =>
      cases h
      exact ⟨pair rfl (eq_of_asmPairS hpair), rfl⟩
    case h_2 => cases h
  · -- M6
    split at h
    case h_1 hpair =>
      cases h
      exact ⟨pair (eq_of_asmPairS hpair) rfl, rfl⟩
    case h_2 => cases h
  · -- M3
    split at h
    case h_1 hlit hslot =>
      cases h
      obtain ⟨hde, htext⟩ := eq_of_asmSlot hd hslot
      exact ⟨pair (eq_of_asmOneLit hlit) hde, htext⟩
    case h_2 => cases h
  · -- M4
    split at h
    case h_1 hslot hq hlit =>
      cases h
      obtain ⟨hxe, htext⟩ := eq_of_asmSlot hx hslot
      have hde := eq_of_asmOneLit hlit
      rw [hq] at hde
      exact ⟨pair hxe hde, htext⟩
    case h_2 => cases h
  · -- M7
    split at h
    case h_1 hs hd' =>
      split at h
      case isTrue hpq =>
        cases h
        obtain ⟨hxe, hxt⟩ := eq_of_asmByteSlot hs
        obtain ⟨hde, hdt⟩ := eq_of_asmByteSlot hd'
        exact ⟨pair hxe hde, by simp only [hasText, hpq, hxt, hdt, Bool.and_self]⟩
      case isFalse => cases h
    case h_2 => cases h
  · -- M8
    split at h
    case h_1 hp hlit hq hreg =>
      cases h
      have hxe := eq_of_asmOneLit hlit
      have hde := eq_of_asmOneS hreg
      rw [hp] at hxe
      rw [hq] at hde
      exact ⟨pair hxe hde, rfl⟩
    case h_2 => cases h
  · -- M9
    split at h
    case h_1 hp hreg hq hlit =>
      cases h
      have hxe := eq_of_asmOneS hreg
      have hde := eq_of_asmOneLit hlit
      rw [hp] at hxe
      rw [hq] at hde
      exact ⟨pair hxe hde, rfl⟩
    case h_2 => cases h

@[simp] theorem deref_regOperand (p : Bool) (r : Reg) : (regOperand p r).deref = p := rfl

@[simp] theorem deref_litOperand (p : Bool) {n : Nat} (lit : BitVec n) : (litOperand p lit).deref = p := rfl

@[simp] theorem deref_slotOperand (p : Bool) (hh : RegHi) (r : RegS) : (slotOperand p hh r).deref = p := rfl

theorem asmSlot_slotOperand {p : Bool} {hh : RegHi} (h : (p || hh == .z) = true) (r : RegS) :
    asmSlot (slotOperand p hh r) = some (hh, r) := by
  cases hh with
  | z => cases p <;> simp [asmSlot, slotOperand]
  | a | b | c =>
    obtain rfl : p = true := by simpa using h
    cases r <;> rfl

@[simp] theorem asmPairS_pairOperand (h l : RegS) : asmPairS (pairOperand false (regS h) (regS l)) = some (h, l) := by
  simp [asmPairS, pairOperand]

theorem asmByteSlot_byteOperand {p : Bool} {h : Byte} (hh : (p || h == 0#8) = true) (r : RegS) :
    asmByteSlot (byteOperand p h r) = some (p, h, r) := by
  cases p with
  | false =>
    obtain rfl : h = 0#8 := by simpa using hh
    simp [asmByteSlot, byteOperand]
  | true => simp [asmByteSlot, byteOperand]

/-- Each MOV that has a line is a row of its operands. -/
theorem mem_movRows {i : Instr} {x d : AsmOperand} (hi : movOperands i = some (x, d)) (htext : hasText i = true) :
    i ∈ movRows x d := by
  simp only [movRows, List.mem_append, mem_oneRow]
  cases i <;> cases hi
  case movRegHi | movHiReg | movLitHi | movHiLit => simp [asmSlot_slotOperand htext]
  case movLargePair | movPairLarge => simp [largeOperand]
  case movBytes p q r1 r2 hs hd =>
    obtain ⟨⟨hpq, hsp⟩, hdq⟩ : ((p || q) = true ∧ (p || hs == 0#8) = true) ∧ (q || hd == 0#8) = true := by
      simpa [hasText] using htext
    simp only [asmByteSlot_byteOperand hsp, asmByteSlot_byteOperand hdq, hpq]
    simp
  case movLoad24 | movStore24 | movLit8 => simp

/-! ### The line of a MOV -/

/-- An operand as the lines of MOV print it. -/
def Printed (x : AsmOperand) : Prop := Printable x ∧ NamesNoHighZ x

theorem printed_reg (p : Bool) (r : Reg) : Printed (regOperand p r) := ⟨printable_regOperand p r, fun _ => nofun⟩

theorem printed_lit (p : Bool) {n : Nat} (lit : BitVec n) : Printed (litOperand p lit) :=
  ⟨printable_litOperand p lit, fun _ => nofun⟩

theorem printed_slot (p : Bool) (hh : RegHi) (r : RegS) : Printed (slotOperand p hh r) :=
  ⟨printable_slotOperand p hh r, fun _ => by cases hh <;> nofun⟩

theorem printed_byte (p : Bool) (h : Byte) (r : RegS) : Printed (byteOperand p h r) :=
  ⟨printable_byteOperand p h r, fun _ => by cases p <;> nofun⟩

theorem printed_large (g : LargeReg) : Printed (largeOperand g) := ⟨printable_largeOperand g, fun _ => nofun⟩

theorem printed_pair (h l : RegS) : Printed (pairOperand false (regS h) (regS l)) :=
  ⟨printable_pairOperand false _ _, nofun⟩

/-- The operands of a MOV are as the lines print them. -/
theorem printed_of_movOperands {i : Instr} {x d : AsmOperand} (hi : movOperands i = some (x, d)) : Printed x ∧ Printed d := by
  cases i <;> cases hi
  case movRegHi => exact ⟨printed_reg _ _, printed_slot _ _ _⟩
  case movHiReg => exact ⟨printed_slot _ _ _, printed_reg _ _⟩
  case movLitHi => exact ⟨printed_lit _ _, printed_slot _ _ _⟩
  case movHiLit => exact ⟨printed_slot _ _ _, printed_lit _ _⟩
  case movLargePair => exact ⟨printed_large _, printed_pair _ _⟩
  case movPairLarge => exact ⟨printed_pair _ _, printed_large _⟩
  case movBytes => exact ⟨printed_byte _ _ _, printed_byte _ _ _⟩
  case movLoad24 => exact ⟨printed_lit _ _, printed_reg _ _⟩
  case movStore24 => exact ⟨printed_reg _ _, printed_lit _ _⟩
  case movLit8 => exact ⟨printed_lit _ _, printed_reg _ _⟩

theorem lineTokens_of_movOperands {i : Instr} {x d : AsmOperand} (hi : movOperands i = some (x, d)) (htext : hasText i = true) :
    lineTokens i = .name ['M', 'O', 'V'] :: operandsTokens [x] (some d) := by
  cases i <;> cases hi
  case movRegHi | movHiReg | movLitHi | movHiLit =>
    simp only [lineTokens, operandsTokens, tokens_slotOperand htext, tokens_regOperand, tokens_litOperand]
    rfl
  case movBytes =>
    simp only [lineTokens, operandsTokens, tokens_byteOperand]
    rfl
  case movLargePair | movPairLarge | movLoad24 | movStore24 | movLit8 => rfl

/-- Each MOV with these operands is well formed under its own name, and has the line of the operands. -/
theorem hasTokens_of_movOperands {i : Instr} {x d : AsmOperand} (hi : movOperands i = some (x, d)) (htext : hasText i = true) :
    HasTokens (.name ['M', 'O', 'V'] :: operandsTokens [x] (some d)) (secondName i) := by
  have hwf : WellFormed i := by cases i <;> cases hi <;> rfl
  rw [secondName_of_wellFormed hwf]
  exact ⟨hwf, htext, lineTokens_of_movOperands hi htext⟩

theorem assembles_mov {i : Instr} {x d : AsmOperand} (hi : movOperands i = some (x, d)) (hwf : WellFormed i)
    (htext : hasText i = true) : Assembles i := by
  obtain ⟨⟨hx, hxz⟩, hd, hdz⟩ := printed_of_movOperands hi
  have ht := lineTokens_of_movOperands hi htext
  have hrows : assembleTokens (lineTokens i) = namedRows (.ok (movRows x d)) := by
    rw [ht, assembleTokens_of_operands rfl (asmOperands_one_into hx hd _)]
    rfl
  refine assembles_of_rows hrows (List.mem_map.2 ⟨i, mem_movRows hi htext, secondName_of_wellFormed hwf⟩) fun k hk => ?_
  obtain ⟨hk', hktext⟩ := movOperands_of_mem_movRows hxz hdz hk
  rw [ht]
  exact hasTokens_of_movOperands hk' hktext

end Sys2Proof.Proofs.Assembler
end

section
/-!
The lines of SEF, CLF and of the relative jumps (spec/30_encoding.md R125 to R128): a list of flags, and an offset, which may fit
the short row and the long one.
-/

namespace Sys2Proof.Proofs.Assembler

open Sys2Proof Sys2Proof.Machine

/-! ### A list of flags at the head of a line -/

/-- Tests of flags as the conditions that are read of them. -/
def condsOf (xs : List (Bool × Flag)) : List (Bool × Cond) := xs.map fun y => (y.1, .flag y.2)

/-- The tests of a mask: each flag, none behind `!`. -/
def maskTests (m : Flags) : List (Bool × Flag) := (flagsOf m).map fun fl => (false, fl)

theorem flagsOf_ne_nil {m : Flags} (h : m ≠ 0#5) : flagsOf m ≠ [] := by revert m; decide

theorem maskTests_ne_nil {m : Flags} (h : m ≠ 0#5) : maskTests m ≠ [] := by
  simpa [maskTests] using flagsOf_ne_nil h

theorem conds_maskTests (m : Flags) : (condsOf (maskTests m)).map (·.2) = (flagsOf m).map .flag := by
  simp [condsOf, maskTests, Function.comp_def]

theorem any_maskTests (m : Flags) : (condsOf (maskTests m)).any (·.1) = false := by
  simp [condsOf, maskTests]

theorem assembleTokens_flags {m : List Char} {xs : List (Bool × Flag)} (hm : flagMnemonics.contains m = true) (hxs : xs ≠ []) :
    assembleTokens (.name m :: testsTokens xs) = namedRows (.ok (flagRows m (condsOf xs) none)) := by
  have hflags := asmFlags_testsTokens xs hxs [] nofun
  rw [List.append_nil] at hflags
  rw [assembleTokens, lineRows, if_pos hm, hflags]
  rfl

theorem assembleTokens_flags_operand {m : List Char} {xs : List (Bool × Flag)} {rest : List AsmToken} {x : AsmOperand}
    (hm : flagMnemonics.contains m = true) (hxs : xs ≠ []) (hrest : rest ≠ []) (hcomma : ∀ ts, rest ≠ .comma :: ts)
    (hx : asmOperand false rest = .ok (x, [])) :
    assembleTokens (.name m :: (testsTokens xs ++ rest)) = namedRows (.ok (flagRows m (condsOf xs) (some x))) := by
  rw [assembleTokens, lineRows, if_pos hm, asmFlags_testsTokens xs hxs rest hcomma]
  cases rest with
  | nil => exact absurd rfl hrest
  | cons t ts =>
    simp only [hx]
    rfl

/-! ### SEF and CLF -/

theorem flagRows_sef (m : Flags) : flagRows ['S', 'E', 'F'] (condsOf (maskTests m)) none = [.sef m] := by
  simp [flagRows, any_maskTests, conds_maskTests, asmMask_flagsOf, oneRow]

theorem flagRows_clf (m : Flags) : flagRows ['C', 'L', 'F'] (condsOf (maskTests m)) none = [.clf m] := by
  simp [flagRows, any_maskTests, conds_maskTests, asmMask_flagsOf, oneRow]

theorem assembles_sef {m : Flags} (htext : hasText (.sef m) = true) : Assembles (.sef m) := by
  have hm : m ≠ 0#5 := by simpa [hasText] using htext
  exact assembles_of_row ((assembleTokens_flags rfl (maskTests_ne_nil hm)).trans (by rw [flagRows_sef])) rfl rfl htext

theorem assembles_clf {m : Flags} (htext : hasText (.clf m) = true) : Assembles (.clf m) := by
  have hm : m ≠ 0#5 := by simpa [hasText] using htext
  exact assembles_of_row ((assembleTokens_flags rfl (maskTests_ne_nil hm)).trans (by rw [flagRows_clf])) rfl rfl htext

/-! ### Offsets -/

/-- An offset. -/
def offOperand (v : Int) : AsmOperand := ⟨false, none, .num v⟩

theorem toInt_of_asmOff {n : Nat} {v : Int} {off : BitVec (n + 1)} (h : asmOff (n + 1) v = some off) : off.toInt = v := by
  simp only [asmOff, Option.ite_none_right_eq_some, Option.some.injEq] at h
  obtain ⟨⟨hlo, hhi⟩, rfl⟩ := h
  exact BitVec.toInt_ofInt_eq_self (Nat.succ_pos n) hlo hhi

/-- Offsets of one value have one spelling. -/
theorem offTokens_of_asmOff {n k : Nat} {x : BitVec k} {off : BitVec (n + 1)} (h : asmOff (n + 1) x.toInt = some off) :
    offTokens off = offTokens x := by
  rw [offTokens, offTokens, toInt_of_asmOff h]

theorem offTokens_ne_nil {n : Nat} (off : BitVec n) : offTokens off ≠ [] := by
  unfold offTokens
  split <;> nofun

theorem offTokens_ne_comma {n : Nat} (off : BitVec n) (ts : List AsmToken) : offTokens off ≠ .comma :: ts := by
  unfold offTokens
  split <;> nofun

/-- A list of flags and an offset. -/
theorem assembleTokens_flags_off {m : List Char} {xs : List (Bool × Flag)} (hm : flagMnemonics.contains m = true)
    (hxs : xs ≠ []) {n : Nat} (off : BitVec n) : assembleTokens (.name m :: (testsTokens xs ++ offTokens off)) =
      namedRows (.ok (flagRows m (condsOf xs) (some (offOperand off.toInt)))) :=
  assembleTokens_flags_operand hm hxs (offTokens_ne_nil off) (offTokens_ne_comma off) (asmOperand_offTokens off)

/-- A flag and a register. -/
theorem assembleTokens_flag_reg {m : List Char} (hm : flagMnemonics.contains m = true) (fl : Flag) (r : RegS) :
    assembleTokens [.name m, .name (flagName fl), .name (regName (regS r))] =
      namedRows (.ok (flagRows m [(false, .flag fl)] (some (regOperand false (regS r))))) :=
  assembleTokens_flags_operand (xs := [(false, fl)]) (rest := [.name (regName (regS r))]) hm nofun nofun nofun
    (asmOperand_last (printable_regOperand false (regS r)) false)

/-! ### JCD and JCC -/

/-- The rows of a conditional jump with some flags and an offset: the short one for one flag, and the one of a mask. -/
def IsCondRow (fls : List Flag) (v : Int) (short : Flag → BitVec 7 → Instr) (long : Flags → Word → Instr) (k : Instr) : Prop :=
  (∃ fl off, fls = [fl] ∧ asmOff 7 v = some off ∧ k = short fl off) ∨
    ∃ m off, asmMask (fls.map .flag) = some m ∧ asmOff 16 v = some off ∧ k = long m off

@[simp] theorem asmOneOff_offOperand (n : Nat) (v : Int) : asmOneOff n (offOperand v) = asmOff n v := rfl

theorem asmOneS_offOperand (v : Int) : asmOneS (offOperand v) = none := rfl

theorem map_flag_ne_aw (fls : List Flag) : fls.map Cond.flag ≠ [.aw] := by
  cases fls <;> simp

theorem map_flag_eq_singleton {fls : List Flag} {cond : Cond} :
    fls.map Cond.flag = [cond] ↔ ∃ fl, fls = [fl] ∧ cond = .flag fl := by
  cases fls <;> simp [eq_comm, and_comm]

theorem mem_jcdRows_off {fls : List Flag} {v : Int} {k : Instr} : k ∈ jcdRows (fls.map .flag) (offOperand v) ↔
    IsCondRow fls v (fun fl => .jcdLit7 (.flag fl)) .jcdMask k := by
  simp only [jcdRows, if_neg (map_flag_ne_aw fls), List.mem_append, mem_oneRow]
  constructor
  · rintro ((h | h) | h)
    · split at h
      case h_1 hreg => cases (asmOneS_offOperand v).symm.trans hreg
      case h_2 => cases h
    · split at h
      case h_1 cond off hconds hoff =>
        cases h
        obtain ⟨fl, hfls, rfl⟩ := map_flag_eq_singleton.1 hconds
        exact .inl ⟨fl, off, hfls, hoff, rfl⟩
      case h_2 => cases h
    · split at h
      case h_1 m off hm hoff =>
        cases h
        exact .inr ⟨m, off, hm, hoff, rfl⟩
      case h_2 => cases h
  · rintro (⟨fl, off, rfl, hoff, rfl⟩ | ⟨m, off, hm, hoff, rfl⟩)
    · exact .inl (.inr (by simp [hoff]))
    · exact .inr (by simp [hm, hoff])

theorem mem_jccRows_off {fls : List Flag} {v : Int} {k : Instr} : k ∈ jccRows (fls.map .flag) (offOperand v) ↔
    IsCondRow fls v .jccLit7 .jccMask k := by
  simp only [jccRows, List.mem_append, mem_oneRow]
  constructor
  · rintro ((h | h) | h)
    · split at h
      case h_1 hreg => cases (asmOneS_offOperand v).symm.trans hreg
      case h_2 => cases h
    · split at h
      case h_1 fl off hconds hoff =>
        cases h
        obtain ⟨fl', hfls, hfl⟩ := map_flag_eq_singleton.1 hconds
        cases hfl
        exact .inl ⟨fl, off, hfls, hoff, rfl⟩
      case h_2 => cases h
    · split at h
      case h_1 m off hm hoff =>
        cases h
        exact .inr ⟨m, off, hm, hoff, rfl⟩
      case h_2 => cases h
  · rintro (⟨fl, off, rfl, hoff, rfl⟩ | ⟨m, off, hm, hoff, rfl⟩)
    · exact .inl (.inr (by simp [hoff]))
    · exact .inr (by simp [hm, hoff])

/-- A conditional jump by offset: its mnemonic, its row for one flag and its row for a mask. -/
structure CondJump (mn : List Char) (short : Flag → BitVec 7 → Instr) (long : Flags → Word → Instr) : Prop where
  flags : flagMnemonics.contains mn = true
  rows : ∀ m v k, k ∈ flagRows mn (condsOf (maskTests m)) (some (offOperand v)) ↔ IsCondRow (flagsOf m) v short long k
  shortTokens : ∀ fl off, lineTokens (short fl off) = .name mn :: .name (flagName fl) :: offTokens off
  longTokens : ∀ m off, lineTokens (long m off) = .name mn :: (maskTokens m ++ offTokens off)
  shortSaid : ∀ fl off, WellFormed (short fl off) ∧ hasText (short fl off) = true
  longSaid : ∀ m off, m ≠ 0#5 → WellFormed (long m off) ∧ hasText (long m off) = true

theorem jcd_condJump : CondJump ['J', 'C', 'D'] (fun fl => .jcdLit7 (.flag fl)) .jcdMask where
  flags := rfl
  rows m v k := by
    rw [← mem_jcdRows_off, ← conds_maskTests m]
    simp [flagRows, any_maskTests]
  shortTokens _ _ := rfl
  longTokens _ _ := rfl
  shortSaid _ _ := ⟨rfl, rfl⟩
  longSaid m _ hm := ⟨by simpa [WellFormed, wellFormed] using hm, by simpa [hasText] using hm⟩

theorem jcc_condJump : CondJump ['J', 'C', 'C'] .jccLit7 .jccMask where
  flags := rfl
  rows m v k := by
    rw [← mem_jccRows_off, ← conds_maskTests m]
    simp [flagRows, any_maskTests]
  shortTokens _ _ := rfl
  longTokens _ _ := rfl
  shortSaid _ _ := ⟨rfl, rfl⟩
  longSaid m _ hm := ⟨rfl, by simpa [hasText] using hm⟩

theorem flagsOf_single (fl : Flag) : flagsOf (1#5 <<< fl.code.toNat) = [fl] := by cases fl <;> decide

/-- A flag alone is printed as the mask of that flag. -/
theorem maskTokens_of_single {m : Flags} {fl : Flag} (h : flagsOf m = [fl]) : maskTokens m = [.name (flagName fl)] := by
  simp [maskTokens, h, testsTokens, testTokens]

section
variable {mn : List Char} {short : Flag → BitVec 7 → Instr} {long : Flags → Word → Instr}

/-- Each row of a mask and an offset has the line of the mask and the offset. -/
theorem CondJump.hasTokens (h : CondJump mn short long) {m : Flags} (hm : m ≠ 0#5) {n : Nat} {off : BitVec n} {k : Instr}
    (hk : IsCondRow (flagsOf m) off.toInt short long k) :
    HasTokens (.name mn :: (maskTokens m ++ offTokens off)) (secondName k) := by
  rcases hk with ⟨fl, off', hfl, hoff, rfl⟩ | ⟨m', off', hm', hoff, rfl⟩
  · obtain ⟨hwf, htext⟩ := h.shortSaid fl off'
    rw [secondName_of_wellFormed hwf]
    exact ⟨hwf, htext, by rw [h.shortTokens, maskTokens_of_single hfl, offTokens_of_asmOff hoff]; rfl⟩
  · obtain rfl : m = m' := by simpa [asmMask_flagsOf] using hm'
    obtain ⟨hwf, htext⟩ := h.longSaid m off' hm
    rw [secondName_of_wellFormed hwf]
    exact ⟨hwf, htext, by rw [h.longTokens, offTokens_of_asmOff hoff]⟩

theorem CondJump.assembles (h : CondJump mn short long) {m : Flags} (hm : m ≠ 0#5) {n : Nat} {off : BitVec n} {i : Instr}
    (hi : IsCondRow (flagsOf m) off.toInt short long i) (hwf : WellFormed i) : Assembles i := by
  have hsound : ∀ k, IsCondRow (flagsOf m) off.toInt short long k → HasTokens (lineTokens i) (secondName k) := by
    obtain ⟨-, -, ht⟩ := h.hasTokens hm hi
    rw [secondName_of_wellFormed hwf] at ht
    rw [ht]
    exact fun k hk => h.hasTokens hm hk
  obtain ⟨-, -, ht⟩ := h.hasTokens hm hi
  rw [secondName_of_wellFormed hwf] at ht
  have hrows := assembleTokens_flags_off h.flags (maskTests_ne_nil hm) off
  rw [show testsTokens (maskTests m) = maskTokens m from rfl, ← ht] at hrows
  exact assembles_of_rows hrows (List.mem_map.2 ⟨i, (h.rows m _ i).2 hi, secondName_of_wellFormed hwf⟩)
    fun k hk => hsound k ((h.rows m _ k).1 hk)

theorem CondJump.assembles_short (h : CondJump mn short long) (fl : Flag) (off : BitVec 7) : Assembles (short fl off) := by
  have hm : 1#5 <<< fl.code.toNat ≠ 0#5 := by cases fl <;> decide
  exact h.assembles hm (.inl ⟨fl, off, flagsOf_single fl, asmOff_self off, rfl⟩) (h.shortSaid fl off).1

theorem CondJump.assembles_long (h : CondJump mn short long) {m : Flags} (hm : m ≠ 0#5) (off : Word) :
    Assembles (long m off) :=
  h.assembles hm (.inr ⟨m, off, asmMask_flagsOf m, asmOff_self off, rfl⟩) (h.longSaid m off hm).1

end

@[simp] theorem asmOneOff_regOperand (p : Bool) (n : Nat) (r : Reg) : asmOneOff n (regOperand p r) = none := by cases p <;> rfl

theorem assembles_jcdReg (fl : Flag) (r : RegS) : Assembles (.jcdReg (.flag fl) r) :=
  assembles_of_row (k := .jcdReg (.flag fl) r)
    ((assembleTokens_flag_reg rfl fl r).trans (by simp [flagRows, jcdRows, oneRow])) rfl rfl rfl

theorem assembles_jccReg (fl : Flag) (r : RegS) : Assembles (.jccReg fl r) :=
  assembles_of_row (k := .jccReg fl r)
    ((assembleTokens_flag_reg rfl fl r).trans (by simp [flagRows, jccRows, oneRow])) rfl rfl rfl

/-! ### JCN -/

/-- The tests of two masks: the flags to be set, then those to be clear. -/
def bothTests (ms mc : Flags) : List (Bool × Flag) :=
  (flagsOf ms).map (fun fl => (false, fl)) ++ (flagsOf mc).map fun fl => (true, fl)

theorem jcnRows_off (ms mc : Flags) (off : Byte) :
    jcnRows (condsOf (bothTests ms mc)) (offOperand off.toInt) = [.jcn off ms mc] := by
  simp [jcnRows, condsOf, bothTests, List.filter_map, Function.comp_def, asmOff_self, asmMask_flagsOf, oneRow]

theorem assembles_jcn {off : Byte} {ms mc : Flags} (htext : hasText (.jcn off ms mc) = true) : Assembles (.jcn off ms mc) := by
  have hne : bothTests ms mc ≠ [] := by
    intro h
    obtain ⟨hs, hc⟩ := List.append_eq_nil_iff.1 h
    have hm : ms ≠ 0#5 ∨ mc ≠ 0#5 := by simpa [hasText] using htext
    rcases hm with hm | hm
    · exact flagsOf_ne_nil hm (List.map_eq_nil_iff.1 hs)
    · exact flagsOf_ne_nil hm (List.map_eq_nil_iff.1 hc)
  refine assembles_of_row (k := .jcn off ms mc) ((assembleTokens_flags_off rfl hne off).trans ?_) rfl rfl htext
  rw [← jcnRows_off]
  rfl

/-! ### JRL -/

theorem assembles_jrlReg (r : RegS) : Assembles (.jrlReg r) :=
  (line_one rfl (printable_regOperand false (regS r)) rfl).assembles rfl rfl (k := .jcdReg .aw r) rfl
    (by simp [mnemonicOf, lineTokens, operandRows, jcdRows, oneRow])

/-- The rows of JRL with an offset: the short one and the long one. -/
theorem mem_jrlRows_off {v : Int} {k : Instr} : k ∈ jcdRows [.aw] (offOperand v) ↔
    (∃ off, asmOff 7 v = some off ∧ k = .jcdLit7 .aw off) ∨ ∃ off, asmOff 16 v = some off ∧ k = .jcdMask 0#5 off := by
  simp only [jcdRows, List.mem_append, mem_oneRow]
  constructor
  · rintro ((h | h) | h)
    · split at h
      case h_1 hreg => cases (asmOneS_offOperand v).symm.trans hreg
      case h_2 => cases h
    · split at h
      case h_1 off hconds hoff =>
        cases h
        cases hconds
        exact .inl ⟨off, hoff, rfl⟩
      case h_2 => cases h
    · split at h
      case h_1 m off hm hoff =>
        cases h
        cases hm
        exact .inr ⟨off, hoff, rfl⟩
      case h_2 => cases h
  · rintro (⟨off, hoff, rfl⟩ | ⟨off, hoff, rfl⟩)
    · exact .inl (.inr (by simp [hoff]))
    · exact .inr (by simp [hoff])

theorem hasTokens_of_mem_jrlRows {n : Nat} {off : BitVec n} {k : Instr} (h : k ∈ jcdRows [.aw] (offOperand off.toInt)) :
    HasTokens (.name ['J', 'R', 'L'] :: offTokens off) (secondName k) := by
  rcases mem_jrlRows_off.1 h with ⟨off', hoff, rfl⟩ | ⟨off', hoff, rfl⟩ <;>
    exact ⟨rfl, rfl, by rw [← offTokens_of_asmOff hoff]; rfl⟩

theorem assembles_jrlOff {n : Nat} {off : BitVec n} {i k : Instr} (ht : lineTokens i = .name ['J', 'R', 'L'] :: offTokens off)
    (hk : k ∈ jcdRows [.aw] (offOperand off.toInt)) (hname : secondName k = i) : Assembles i := by
  have hoperands : asmOperands false (offTokens off) = .ok ([offOperand off.toInt], none) := by
    unfold asmOperands
    split
    · exact absurd ‹_› (offTokens_ne_nil off)
    · rw [asmOperand_offTokens]
      rfl
  have hrows : assembleTokens (lineTokens i) = namedRows (.ok (jcdRows [.aw] (offOperand off.toInt))) := by
    rw [ht, assembleTokens_of_operands (m := ['J', 'R', 'L']) rfl hoperands]
    rfl
  exact assembles_of_rows hrows (List.mem_map.2 ⟨k, hk, hname⟩) fun k' hk' => ht ▸ hasTokens_of_mem_jrlRows hk'

theorem assembles_jrlLit7 (off : BitVec 7) : Assembles (.jrlLit7 off) :=
  assembles_jrlOff rfl (mem_jrlRows_off.2 (.inl ⟨off, asmOff_self off, rfl⟩)) rfl

theorem assembles_jrlLit16 (off : Word) : Assembles (.jrlLit16 off) :=
  assembles_jrlOff rfl (mem_jrlRows_off.2 (.inr ⟨off, asmOff_self off, rfl⟩)) rfl

/-! ### All of them -/

/-- Every well-formed instruction that has a line is assembled from it. -/
theorem assembles {i : Instr} (hwf : WellFormed i) (htext : hasText i = true) : Assembles i := by
  cases i
  case movRegHi | movHiReg | movLitHi | movHiLit | movLargePair | movPairLarge | movBytes | movLoad24 | movStore24 | movLit8 =>
    exact assembles_mov rfl hwf htext
  case jcdReg cond r =>
    cases cond with
    | flag fl => exact assembles_jcdReg fl r
    | aw => cases hwf
  case jcdLit7 cond off =>
    cases cond with
    | flag fl => exact jcd_condJump.assembles_short fl off
    | aw => cases hwf
  case jcdMask m off => exact jcd_condJump.assembles_long (by simpa [hasText] using htext) off
  case jccReg fl r => exact assembles_jccReg fl r
  case jccLit7 fl off => exact jcc_condJump.assembles_short fl off
  case jccMask m off => exact jcc_condJump.assembles_long (by simpa [hasText] using htext) off
  case jcn => exact assembles_jcn htext
  case sef => exact assembles_sef htext
  case clf => exact assembles_clf htext
  case jrlReg r => exact assembles_jrlReg r
  case jrlLit7 off => exact assembles_jrlLit7 off
  case jrlLit16 off => exact assembles_jrlLit16 off
  all_goals exact assembles_plain rfl hwf htext

/-- The list that a line gives holds exactly the instructions that have the line. -/
theorem mem_of_asmLine {i : Instr} (hwf : WellFormed i) (htext : hasText i = true) :
    ∃ is, assemble (asmLine i) = .ok is ∧ ∀ j : Instr, j ∈ is ↔ WellFormed j ∧ hasText j = true ∧ asmLine j = asmLine i := by
  obtain ⟨is, his, -, hsound⟩ := assembles hwf htext
  refine ⟨is, by rw [assemble_asmLine, his], fun j => ⟨fun hj => ?sound, fun hj => ?complete⟩⟩
  case sound =>
    obtain ⟨hjwf, hjtext, hjt⟩ := hsound j hj
    exact ⟨hjwf, hjtext, by rw [asmLine, asmLine, hjt]⟩
  case complete =>
    obtain ⟨hjwf, hjtext, hline⟩ := hj
    obtain ⟨js, hjs, hmem, -⟩ := assembles hjwf hjtext
    rw [lineTokens_of_asmLine hline, his] at hjs
    cases hjs
    exact hmem

end Sys2Proof.Proofs.Assembler
end

section
/-!
The address of JMP and JSR with its `$` left out (spec/30_encoding.md R125), and the claim on lines as a whole.
-/

namespace Sys2Proof.Proofs.Assembler

open Sys2Proof Sys2Proof.Machine

/-- An operand with a `$`. -/
def dollared (x : AsmOperand) : AsmOperand := { x with deref := true }

/-- Operands, the first with a `$`. -/
def firstDollared (r : List AsmOperand × Option AsmOperand) : List AsmOperand × Option AsmOperand :=
  (r.1.modifyHead dollared, r.2)

theorem asmBody_true (ts : List AsmToken) :
    asmBody true false ts = (asmBody false false ts).map fun r => (dollared r.1, r.2) := by
  unfold asmBody
  split
  · rfl
  · split <;> rfl
  · rfl

/-- What is read behind the last source: nothing, or a destination behind `>`. -/
def asmFinish (implicit : Bool) (xs : List AsmOperand) (rest : List AsmToken) :
    Except AsmError (List AsmOperand × Option AsmOperand) :=
  match rest with
  | [] => .ok (xs, none)
  | .into :: rest =>
    match asmOperand implicit rest with
    | .ok (d, []) => .ok (xs, some d)
    | .ok _ => .error .badText
    | .error e => .error e
  | _ => .error .badText

/-- What is read behind the first source. -/
def asmAfterFirst (implicit : Bool) (r : AsmOperand × List AsmToken) : Except AsmError (List AsmOperand × Option AsmOperand) :=
  match r with
  | (x, .comma :: rest) =>
    match asmOperand implicit rest with
    | .error e => .error e
    | .ok (y, rest) => asmFinish implicit [x, y] rest
  | (x, rest) => asmFinish implicit [x] rest

theorem asmOperands_cons (implicit : Bool) (t : AsmToken) (ts : List AsmToken) :
    asmOperands implicit (t :: ts) = (asmOperand implicit (t :: ts)).bind (asmAfterFirst implicit) := by
  unfold asmOperands
  cases asmOperand implicit (t :: ts) with
  | error e => rfl
  | ok r =>
    obtain ⟨x, rest⟩ := r
    cases rest with
    | nil => rfl
    | cons u us => cases u <;> rfl

theorem asmFinish_dollared (implicit : Bool) (x : AsmOperand) (xs : List AsmOperand) (rest : List AsmToken) :
    asmFinish implicit (dollared x :: xs) rest = (asmFinish implicit (x :: xs) rest).map firstDollared := by
  cases rest with
  | nil => rfl
  | cons u us =>
    cases u with
    | into =>
      simp only [asmFinish]
      cases asmOperand implicit us with
      | error e => rfl
      | ok r =>
        obtain ⟨d, rest⟩ := r
        cases rest <;> rfl
    | name | number | dollar | colon | comma | bang | minus => rfl

theorem asmAfterFirst_of_ne_comma (implicit : Bool) (x : AsmOperand) {rest : List AsmToken}
    (h : ∀ us, rest ≠ .comma :: us) : asmAfterFirst implicit (x, rest) = asmFinish implicit [x] rest := by
  unfold asmAfterFirst
  split
  · rename_i he
    cases he
    exact absurd rfl (h _)
  · rename_i he
    cases he
    rfl

theorem asmAfterFirst_dollared (implicit : Bool) (x : AsmOperand) (rest : List AsmToken) :
    asmAfterFirst implicit (dollared x, rest) = (asmAfterFirst implicit (x, rest)).map firstDollared := by
  by_cases hcomma : ∃ us, rest = .comma :: us
  · obtain ⟨us, rfl⟩ := hcomma
    simp only [asmAfterFirst]
    cases asmOperand implicit us with
    | error e => rfl
    | ok r => exact asmFinish_dollared implicit x [r.1] r.2
  · rw [not_exists] at hcomma
    rw [asmAfterFirst_of_ne_comma implicit _ hcomma, asmAfterFirst_of_ne_comma implicit _ hcomma]
    exact asmFinish_dollared implicit x [] rest

/-- Where the `$` is implicit, reading it or not changes only whether the first operand has it. -/
theorem asmOperands_dollar {t : AsmToken} (ht : t ≠ .dollar) (ts : List AsmToken) :
    asmOperands true (.dollar :: t :: ts) = (asmOperands true (t :: ts)).map firstDollared := by
  rw [asmOperands_cons, asmOperands_cons, asmOperand_dollar, asmOperand_of_ne_dollar true ht, Bool.not_true, asmBody_true]
  cases asmBody false false (t :: ts) with
  | error e => rfl
  | ok r => exact asmAfterFirst_dollared true r.1 r.2

/-- JMP and JSR do not look at the `$`. -/
theorem operandRows_firstDollared {m : List Char} (hm : m ∈ implicitDollar) (xs : List AsmOperand) (d : Option AsmOperand) :
    operandRows m (xs.modifyHead dollared) d = operandRows m xs d := by
  have hm' : m = ['J', 'M', 'P'] ∨ m = ['J', 'S', 'R'] := by simpa [implicitDollar] using hm
  match xs, d with
  | [], _ => rfl
  | [x], none => rcases hm' with rfl | rfl <;> rfl
  | [x], some d => rcases hm' with rfl | rfl <;> rfl
  | [x, y], none => rcases hm' with rfl | rfl <;> rfl
  | [x, y], some d => rcases hm' with rfl | rfl <;> rfl
  | x :: y :: z :: xs, _ => rfl

theorem assembleTokens_dollar {m : List Char} (hm : m ∈ implicitDollar) {t : AsmToken} (ht : t ≠ .dollar) (ts : List AsmToken) :
    assembleTokens (.name m :: .dollar :: t :: ts) = assembleTokens (.name m :: t :: ts) := by
  have hplain : flagMnemonics.contains m = false := by
    rcases (by simpa [implicitDollar] using hm : m = ['J', 'M', 'P'] ∨ m = ['J', 'S', 'R']) with rfl | rfl <;> rfl
  have hdollar : implicitDollar.contains m = true := List.contains_iff_mem.2 hm
  simp only [assembleTokens, lineRows, hplain, hdollar, asmOperands_dollar ht]
  cases asmOperands true (t :: ts) with
  | error e => rfl
  | ok r =>
    show namedRows (.ok (operandRows m (r.1.modifyHead dollared) r.2)) = namedRows (.ok (operandRows m r.1 r.2))
    rw [operandRows_firstDollared hm]

/-- Settles O60. -/
theorem linesAssembleToWhatTheySay : Obligations.LinesAssembleToWhatTheySay := by
  unfold Obligations.LinesAssembleToWhatTheySay
  refine ⟨fun i hwf htext => mem_of_asmLine hwf htext, fun m hm t ts ht => assembleTokens_dollar hm ht ts, ?_⟩
  and_intros <;> rfl

end Sys2Proof.Proofs.Assembler
end
